-- ==== Sys2Proof/Word.lean ====
section
/-! DEFINITION. The word types of the core: bytes, 32-bit register words, and binary32 values by their bit pattern. -/

namespace Sys2Proof

/-- One byte, the smallest unit of the PCM buffer (R101). -/
abbrev Byte := BitVec 8

/-- A 32-bit word: a register as the host reads and writes it, or a u32 of the spec (R8, R9, R40). -/
abbrev Word := BitVec 32

/-- An IEEE 754 binary32 value, named by its bit pattern (R10). -/
abbrev F32 := BitVec 32

end Sys2Proof
end

