-- ==== Sys2Proof/Syntax.lean ====
section
/-! DEFINITION. The operations of spec/opcode_table.json, one constructor a row, and the words that carry them. -/

namespace Sys2Proof

/-- The nine agent steps that have a STEP label (R148). -/
inductive Label where
  | host | capture | dmaHt | dmaTc | tick | reset | decode | passStart | frame
  deriving DecidableEq, Repr, Inhabited

/-- One row of the opcode table each, in the table's order. -/
inductive Instr where
  /-- `NOTE_ON`, CMD OP 0x1: key slot and NOTE field, 7 naming the NOTE register (R141, R142, R283). -/
  | noteOn (key : BitVec 4) (note : BitVec 3)
  /-- `NOTE_OFF`, CMD OP 0x2 (R141, R286). -/
  | noteOff (key : BitVec 4)
  /-- `CMD_RSVD_0`, CMD OP 0x0 (R146, R461). -/
  | cmdRsvd0
  /-- `CMD_RSVD_3`, CMD OP 0x3 (R146, R461). -/
  | cmdRsvd3
  /-- `CMD_RSVD_4_7`, CMD OP 0x4..0x7, `lo` being OP bits 1:0 (R146, R461). -/
  | cmdRsvd47 (lo : BitVec 2)
  /-- `CMD_RSVD_8_F`, CMD OP 0x8..0xF, `lo` being OP bits 2:0 (R146, R461). -/
  | cmdRsvd8F (lo : BitVec 3)
  /-- `WR_CMD` (R461). -/
  | wrCmd (data : Word)
  /-- `RD_CMD` (R483). -/
  | rdCmd
  /-- `WR_STATUS` (R462). -/
  | wrStatus (data : Word)
  /-- `RD_STATUS` (R465). -/
  | rdStatus
  /-- `WR_IRQ_EN` (R469). -/
  | wrIrqEn (data : Word)
  /-- `RD_IRQ_EN` (R469). -/
  | rdIrqEn
  /-- `RD_EVENT` (R463). -/
  | rdEvent
  /-- `WR_RO_EVENT` (R484). -/
  | wrRoEvent (data : Word)
  /-- `WR_ATTACK` (R470). -/
  | wrAttack (data : Word)
  /-- `WR_DECAY` (R471). -/
  | wrDecay (data : Word)
  /-- `WR_SUSTAIN` (R472). -/
  | wrSustain (data : Word)
  /-- `WR_RELEASE` (R473). -/
  | wrRelease (data : Word)
  /-- `WR_CUTOFF` (R474). -/
  | wrCutoff (data : Word)
  /-- `WR_RESONANCE` (R475). -/
  | wrResonance (data : Word)
  /-- `WR_VOLUME` (R476). -/
  | wrVolume (data : Word)
  /-- `WR_WAVE` (R477). -/
  | wrWave (data : Word)
  /-- `WR_NOTE` (R478). -/
  | wrNote (data : Word)
  /-- `WR_OCTAVE` (R479). -/
  | wrOctave (data : Word)
  /-- `RD_ATTACK` (R480). -/
  | rdAttack
  /-- `RD_DECAY` (R480). -/
  | rdDecay
  /-- `RD_SUSTAIN` (R480). -/
  | rdSustain
  /-- `RD_RELEASE` (R480). -/
  | rdRelease
  /-- `RD_CUTOFF` (R480). -/
  | rdCutoff
  /-- `RD_RESONANCE` (R480). -/
  | rdResonance
  /-- `RD_VOLUME` (R480). -/
  | rdVolume
  /-- `RD_WAVE` (R480). -/
  | rdWave
  /-- `RD_NOTE` (R480). -/
  | rdNote
  /-- `RD_OCTAVE` (R480). -/
  | rdOctave
  /-- `RD_VOICE_STATE` (R481). -/
  | rdVoiceState
  /-- `WR_RO_VOICE_STATE` (R484). -/
  | wrRoVoiceState (data : Word)
  /-- `RD_TICK` (R482). -/
  | rdTick
  /-- `WR_RO_TICK` (R484). -/
  | wrRoTick (data : Word)
  /-- `WR_KEYMAP`, the key being OFFSET bits 5:2 (R466). -/
  | wrKeymap (key : BitVec 4) (data : Word)
  /-- `RD_KEYMAP` (R467). -/
  | rdKeymap (key : BitVec 4)
  /-- `WR_RSVD`, offset 0x80..0xFC (R485). -/
  | wrRsvd (offset : BitVec 8) (data : Word)
  /-- `RD_RSVD`, offset 0x80..0xFC (R485). -/
  | rdRsvd (offset : BitVec 8)
  /-- `BUS_ERR_SIZE8`, SIZE 00 (R468). -/
  | busErrSize8 (we : BitVec 1) (offset : BitVec 8) (data : Word)
  /-- `BUS_ERR_SIZE16`, SIZE 01 (R468). -/
  | busErrSize16 (we : BitVec 1) (offset : BitVec 8) (data : Word)
  /-- `BUS_ERR_SIZE_RSVD`, SIZE 11 (R468). -/
  | busErrSizeRsvd (we : BitVec 1) (offset : BitVec 8) (data : Word)
  /-- `BUS_ERR_ALIGN_B0`, SIZE 10 and OFFSET bit 0 set (R468). -/
  | busErrAlignB0 (we : BitVec 1) (offset : BitVec 8) (data : Word)
  /-- `BUS_ERR_ALIGN_B1`, SIZE 10, OFFSET bit 1 set and bit 0 clear (R468). -/
  | busErrAlignB1 (we : BitVec 1) (offset : BitVec 8) (data : Word)
  /-- `ENC_AB`, RAW KIND 00 (R155, R401). -/
  | encAb (stamp : Word) (index : BitVec 4) (ab : BitVec 2)
  /-- `ENC_BTN`, RAW KIND 01 (R155, R410). -/
  | encBtn (stamp : Word) (index : BitVec 4) (level : BitVec 1)
  /-- `KEY_SCAN`, RAW KIND 10 (R155, R431). -/
  | keyScan (stamp : Word) (mask : BitVec 16)
  /-- `RAW_RSVD`, RAW KIND 11: the rest of the record has no meaning (R156). -/
  | rawRsvd (stamp : Word) (low : BitVec 30)
  /-- `HOST`, STEP 0x0: one BUS access (R143, R460). -/
  | host (access : BitVec 43)
  /-- `CAPTURE`, STEP 0x1: bits 31:0 of the record, which the core stamps (R155, R400). -/
  | capture (record : Word)
  /-- `DMA_HT`, STEP 0x2 (R361). -/
  | dmaHt
  /-- `DMA_TC`, STEP 0x3 (R361). -/
  | dmaTc
  /-- `TICK`, STEP 0x4 (R520). -/
  | tick
  /-- `RESET`, STEP 0x5: encoder e's AB pins at release are bits 2e+1:2e of `pins` (R540, R542). -/
  | reset (pins : Word)
  /-- `DECODE`, STEP 0x8 (R400). -/
  | decode
  /-- `PASS_START`, STEP 0x9 (R363). -/
  | passStart
  /-- `FRAME`, STEP 0xA (R364). -/
  | frame
  /-- `ENV_IDLE`, a micro-operation on voice `v` (R202). -/
  | envIdle (v : BitVec 3)
  /-- `ENV_ATTACK` (R203). -/
  | envAttack (v : BitVec 3)
  /-- `ENV_DECAY` (R204). -/
  | envDecay (v : BitVec 3)
  /-- `ENV_SUSTAIN` (R205). -/
  | envSustain (v : BitVec 3)
  /-- `ENV_RELEASE` (R206). -/
  | envRelease (v : BitVec 3)
  /-- `OSC_TUNE` of voice `v` to note `note` at the octave of `reg.OCTAVE` (R240). -/
  | oscTune (v : BitVec 3) (note : BitVec 3)
  /-- `OSC_LOOKUP` of voice `v` with the wave of `reg.WAVE` (R245). -/
  | oscLookup (v : BitVec 3)
  /-- `OSC_ADVANCE` of voice `v` (R244). -/
  | oscAdvance (v : BitVec 3)
  /-- `VOICE_SELECT` (R281). -/
  | voiceSelect
  /-- `GEN_REBASE` (R291, R292). -/
  | genRebase
  /-- `FILT_UPDATE` (R332). -/
  | filtUpdate
  /-- `FILT_PROCESS` of the input `x` (R333). -/
  | filtProcess (x : F32)
  /-- `DETENT_CHECK` of encoder `e` (R402). -/
  | detentCheck (e : BitVec 4) (stamp : Word)
  /-- `KEY_ACTION` of key `key`, pressed or released (R440). -/
  | keyAction (key : BitVec 4) (pressed : Bool)
  deriving DecidableEq, Repr

/-- A word of one of the four formats that select operations, each at its fixed width (R140, R147).
A STEP word is its 4-bit label (R148) beside the operand the environment supplies with it. -/
inductive Line where
  /-- A 32-bit CMD word (R141). -/
  | cmd (w : Word)
  /-- A 43-bit BUS word (R143). -/
  | bus (w : BitVec 43)
  /-- A 64-bit RAW record (R155). -/
  | raw (w : BitVec 64)
  /-- A 4-bit STEP label (R148) and its operand: HOST takes a BUS word from bits 42:0, CAPTURE a record from bits 31:0,
  RESET the AB pins from bits 31:0, and the other labels ignore it. -/
  | step (label : BitVec 4) (operand : BitVec 64)
  deriving DecidableEq, Repr

end Sys2Proof
end

