-- ==== Sys2Proof/Config.lean ====
section
/-! DEFINITION. The configuration parameters of rule R7, their reference values and legal ranges, and the free values the
spec leaves to the environment. -/

namespace Sys2Proof

/-- A nonnegative real parameter of R7, as a fraction (log 15). -/
structure Frac where
  num : Nat
  den : Nat
  deriving DecidableEq, Repr

/-- The five binary32 coefficients that `BIQUAD_COEF` returns (R331). -/
structure Coefs where
  b0 : F32
  b1 : F32
  b2 : F32
  a1 : F32
  a2 : F32
  deriving DecidableEq, Repr

/-- One row of a coefficient ROM that differs from the reference definition of R331 (log 14). -/
structure CoefRow where
  cutoff    : Nat
  resonance : Nat
  coefs     : Coefs
  deriving DecidableEq, Repr

/-- The parameters of R7. `REG_BASE` is `256 * regPage` and `PCM_BASE` is `4 * pcmWord`, so that neither can be misaligned
(R104, R107, U26, U27). -/
structure Params where
  nVoices          : Nat
  fs               : Nat
  samplesPerUnit   : Nat
  tableLog2        : Nat
  bufFrames        : Nat
  silence          : F32
  genMax           : Nat
  debounceMax      : Nat
  numEnc           : Nat
  detentSubsteps   : Nat
  btnDebounceTicks : Nat
  /-- `TICK_HZ`: timing only, read by no rule (R560). -/
  tickHz           : Nat
  /-- `KEYSCAN_PERIOD_TICKS`: timing only, read by no rule (R520, R560). -/
  keyscanPeriod    : Nat
  cmdqDepth        : Nat
  evqDepth         : Nat
  rawqDepth        : Nat
  noteFreq         : List F32
  octaveMin        : Int
  octaveMax        : Int
  cutoffHz         : Frac
  nyqFrac          : Frac
  qBase            : Frac
  qStep            : Frac
  /-- Rows of the coefficient ROM that are not those of the reference `BIQUAD_COEF` (R331). -/
  coefRom          : List CoefRow
  /-- `SINE_TABLE`, signed 16-bit entries (R249, R250). -/
  sine             : List Int
  regPage          : Nat
  pcmWord          : Nat
  deriving DecidableEq, Repr

/-- `HALF`, frames per half buffer (R7). -/
def Params.half (c : Params) : Nat := c.bufFrames / 2

/-- T, the wavetable length (R7). -/
def Params.tableLen (c : Params) : Nat := 2 ^ c.tableLog2

/-- Bytes of the PCM buffer (R62, R100). -/
def Params.pcmBytes (c : Params) : Nat := 4 * c.bufFrames

/-- `REG_BASE` (R107), an address without a width (log 28). -/
def Params.regBase (c : Params) : Nat := 256 * c.regPage

/-- `PCM_BASE` (R104, R107). The spec gives a bus address no width, and the model takes addresses as natural numbers, so that none
wraps (log 28). -/
def Params.pcmBase (c : Params) : Nat := 4 * c.pcmWord

/-- A "positive binary32" of R7, which does not say whether +infinity is one: the model takes finite values only and refuses a
configuration with an infinity (log 27). -/
def isPositiveF32 (x : F32) : Bool := decide (0 < x.toNat) && decide (x.toNat < 0x7F800000)

/-- The legal ranges of R7 (U28), grouped to the right so that the first condition is met first. -/
def Params.legal (c : Params) : Bool :=
  decide (1 ≤ c.nVoices) && (decide (c.nVoices ≤ 8) &&
  (decide (1 ≤ c.fs) && (decide (c.fs ≤ 192000) &&
  (decide (c.samplesPerUnit ≤ 65535) &&
  (decide (1 ≤ c.tableLog2) && (decide (c.tableLog2 ≤ 16) &&
  (decide (c.bufFrames % 2 = 0) && (decide (2 ≤ c.bufFrames) && (decide (c.bufFrames ≤ 65534) &&
  (isPositiveF32 c.silence &&
  ((List.range 13).any (fun k => decide (c.genMax + 1 = 2 ^ (k + 4))) &&
  (decide (1 ≤ c.debounceMax) && (decide (c.debounceMax ≤ 255) &&
  (decide (1 ≤ c.numEnc) && (decide (c.numEnc ≤ 16) &&
  (decide (1 ≤ c.detentSubsteps) && (decide (c.detentSubsteps ≤ 127) &&
  (decide (c.btnDebounceTicks < 2 ^ 32) &&
  (decide (1 ≤ c.keyscanPeriod) &&
  (decide (1 ≤ c.cmdqDepth) && (decide (c.cmdqDepth ≤ 255) &&
  (decide (1 ≤ c.evqDepth) && (decide (c.evqDepth ≤ 255) &&
  (decide (1 ≤ c.rawqDepth) && (decide (c.rawqDepth ≤ 255) &&
  (decide (c.noteFreq.length = 7) && (c.noteFreq.all isPositiveF32 &&
  (decide (-8 ≤ c.octaveMin) && (decide (c.octaveMin ≤ 0) &&
  (decide (0 ≤ c.octaveMax) && (decide (c.octaveMax ≤ 8) &&
  (decide (0 < c.cutoffHz.num) && (decide (0 < c.cutoffHz.den) &&
  (decide (c.nyqFrac.den < 2 * c.nyqFrac.num) && (decide (c.nyqFrac.num < c.nyqFrac.den) &&
  (decide (0 < c.qBase.den) && (decide (c.qBase.den ≤ 10 * c.qBase.num) &&
  (decide (0 < c.qStep.den) &&
  (decide (c.sine.length = 2 ^ c.tableLog2) &&
  c.sine.all (fun y => decide (-32767 ≤ y) && decide (y ≤ 32767)))))))))))))))))))))))))))))))))))))))))

namespace Config

/-- `REG_BASE` in units of 256 bytes: OPEN (R7, P1), so a free value (log 8). -/
opaque regPage : Nat

/-- `PCM_BASE` in units of 4 bytes: OPEN (R7, P2), so a free value (log 8). -/
opaque pcmWord : Nat

/-- The AB pins of the encoders when reset is released before the first step: a draw (R37, R542), so a free value (log 9).
Encoder e's pair is bits 2e+1:2e. -/
opaque abPins : BitVec 32

/-- The PCM buffer's bytes at power-up, by offset from `PCM_BASE`: a draw that may be any byte string (R540-R542, U17), so a
free value (log 10). -/
opaque pcmPowerUp : Nat → Byte

/-- Which agent takes the n-th step that no line of the schedule decides: the interleaving is free (R5, R522), so a free value
(log 1). -/
opaque drawLabel : Nat → Label

/-- The operand the environment supplies with that step: a draw (R6), so a free value (log 1). -/
opaque drawOperand : Nat → BitVec 64

/-- Sign and payload of the NaN that an operation on the operands gives: the spec states none (R10 says no rule meets one), so
a free value (log 13). -/
opaque nanBits : F32 → F32 → BitVec 23

/-- `NOTE_FREQ`: C4, D4, E4, F4, G4, A4, B4 (R241). -/
def noteFreq : List F32 :=
  [0x4382D013#32, 0x4392D517#32, 0x43A4D054#32, 0x43AE9D37#32, 0x43C3FF6A#32, 0x43DC0000#32, 0x43F6F110#32]

/-- `SINE_TABLE` at T = 256, sixteen entries a row (R250). -/
def sineTable : List Int :=
  [0, 804, 1608, 2410, 3212, 4011, 4808, 5602, 6393, 7179, 7962, 8739, 9512, 10278, 11039, 11793] ++
  [12539, 13279, 14010, 14732, 15446, 16151, 16846, 17530, 18204, 18868, 19519, 20159, 20787, 21403, 22005, 22594] ++
  [23170, 23731, 24279, 24811, 25329, 25832, 26319, 26790, 27245, 27683, 28105, 28510, 28898, 29268, 29621, 29956] ++
  [30273, 30571, 30852, 31113, 31356, 31580, 31785, 31971, 32137, 32285, 32412, 32521, 32609, 32678, 32728, 32757] ++
  [32767, 32757, 32728, 32678, 32609, 32521, 32412, 32285, 32137, 31971, 31785, 31580, 31356, 31113, 30852, 30571] ++
  [30273, 29956, 29621, 29268, 28898, 28510, 28105, 27683, 27245, 26790, 26319, 25832, 25329, 24811, 24279, 23731] ++
  [23170, 22594, 22005, 21403, 20787, 20159, 19519, 18868, 18204, 17530, 16846, 16151, 15446, 14732, 14010, 13279] ++
  [12539, 11793, 11039, 10278, 9512, 8739, 7962, 7179, 6393, 5602, 4808, 4011, 3212, 2410, 1608, 804] ++
  [0, -804, -1608, -2410, -3212, -4011, -4808, -5602, -6393, -7179, -7962, -8739, -9512, -10278, -11039, -11793] ++
  [-12539, -13279, -14010, -14732, -15446, -16151, -16846, -17530, -18204, -18868, -19519, -20159, -20787, -21403, -22005, -22594] ++
  [-23170, -23731, -24279, -24811, -25329, -25832, -26319, -26790, -27245, -27683, -28105, -28510, -28898, -29268, -29621, -29956] ++
  [-30273, -30571, -30852, -31113, -31356, -31580, -31785, -31971, -32137, -32285, -32412, -32521, -32609, -32678, -32728, -32757] ++
  [-32767, -32757, -32728, -32678, -32609, -32521, -32412, -32285, -32137, -31971, -31785, -31580, -31356, -31113, -30852, -30571] ++
  [-30273, -29956, -29621, -29268, -28898, -28510, -28105, -27683, -27245, -26790, -26319, -25832, -25329, -24811, -24279, -23731] ++
  [-23170, -22594, -22005, -21403, -20787, -20159, -19519, -18868, -18204, -17530, -16846, -16151, -15446, -14732, -14010, -13279] ++
  [-12539, -11793, -11039, -10278, -9512, -8739, -7962, -7179, -6393, -5602, -4808, -4011, -3212, -2410, -1608, -804]

/-- The reference core: the value column of R7. -/
def reference : Params where
  nVoices := 3
  fs := 44100
  samplesPerUnit := 441
  tableLog2 := 8
  bufFrames := 512
  silence := 0x39000000#32
  genMax := 255
  debounceMax := 4
  numEnc := 2
  detentSubsteps := 4
  btnDebounceTicks := 20
  tickHz := 1000
  keyscanPeriod := 5
  cmdqDepth := 8
  evqDepth := 16
  rawqDepth := 32
  noteFreq := noteFreq
  octaveMin := -4
  octaveMax := 4
  cutoffHz := ⟨44100, 400⟩
  nyqFrac := ⟨9, 10⟩
  qBase := ⟨707, 1000⟩
  qStep := ⟨1, 10⟩
  coefRom := []
  sine := sineTable
  regPage := regPage
  pcmWord := pcmWord

end Config

end Sys2Proof
end

