-- ==== Sys2Proof/Machine/State.lean ====
section
/-! DEFINITION. Everything the spec gives the core to hold, as plain data, and the state after reset. -/

namespace Sys2Proof.Machine

/-- The envelope states (R33). -/
inductive Env where
  | idle | attack | decay | sustain | release
  deriving DecidableEq, Repr

/-- One voice of the pool (R32); generations are numbers without a width (log 21). -/
structure Voice where
  env   : Env
  level : F32
  step  : F32
  left  : Word
  atk   : Word
  dec   : Word
  sus   : F32
  rel   : Word
  freq  : F32
  tw    : Word
  phase : Word
  gen   : Nat
  deriving DecidableEq, Repr

/-- The renderer's sequencer (R31). -/
structure Seq where
  busy     : Bool
  cur      : BitVec 1
  j        : BitVec 16
  nextHalf : BitVec 1
  notify0  : Bool
  notify1  : Bool
  deriving DecidableEq, Repr

/-- The biquad filter: coefficients, Direct Form I history, dirty flag (R36). -/
structure Filter where
  b0    : F32
  b1    : F32
  b2    : F32
  a1    : F32
  a2    : F32
  x1    : F32
  x2    : F32
  y1    : F32
  y2    : F32
  dirty : Bool
  deriving DecidableEq, Repr

/-- One rotary encoder and its button (R37). -/
structure Encoder where
  prev  : BitVec 2
  acc   : BitVec 8
  blvl  : Bool
  btick : Word
  deriving DecidableEq, Repr

/-- One key's debounce state (R38). -/
structure Key where
  integ  : Nat
  stable : Bool
  deriving DecidableEq, Repr

/-- The OP of a command record: only these two are ever queued (R150). -/
inductive CmdOp where
  | noteOn | noteOff
  deriving DecidableEq, Repr

/-- A CMDQ record (R150). -/
structure Cmd where
  op   : CmdOp
  key  : BitVec 4
  note : BitVec 3
  deriving DecidableEq, Repr

/-- The TYPE of an event; TYPE 11 is never produced (R160). -/
inductive EventType where
  | detent | encButton | key
  deriving DecidableEq, Repr

/-- An EVQ record (R160). -/
structure Event where
  type  : EventType
  index : BitVec 4
  value : Bool
  stamp : BitVec 16
  deriving DecidableEq, Repr

/-- The parameter registers (R45-R54). -/
structure Regs where
  attack    : BitVec 8
  decay     : BitVec 8
  sustain   : BitVec 8
  release   : BitVec 8
  cutoff    : BitVec 8
  resonance : BitVec 8
  volume    : BitVec 8
  wave      : BitVec 2
  note      : BitVec 3
  octave    : Int
  deriving DecidableEq, Repr

/-- The kinds of permanent model fault (R503): BusError is code 1, DeadlineMiss code 2. -/
inductive FaultKind where
  | busError | deadlineMiss
  deriving DecidableEq, Repr

/-- The set FAULTS (R63, R503). -/
structure Faults where
  busError     : Bool
  deadlineMiss : Bool
  deriving DecidableEq, Repr

/-- What the last host access or micro-operation gave back: the model's own latch (log 6). -/
inductive Answer where
  /-- Nothing yet. -/
  | none
  /-- A completed host write. -/
  | written
  /-- A host read's `rdata`. -/
  | rdata (w : Word)
  /-- The bus error response with its `rdata`, which a read takes; the host of a write looks at none (R468). -/
  | busError (rdata : Word)
  /-- OSC_LOOKUP's table entry (R245). -/
  | raw (entry : Int)
  /-- VOICE_SELECT's voice (R281). -/
  | voice (v : Nat)
  /-- FILT_PROCESS's output (R333). -/
  | sample (y : F32)
  deriving DecidableEq, Repr

/-- The whole machine. -/
@[ext]
structure State where
  /-- The parameters of R7; no step writes them (log 7). -/
  cfg     : Params
  seq     : Seq
  voices  : List Voice
  /-- `NEXT_GEN` (R35). -/
  nextGen : Nat
  /-- `KEY_GEN[k]`, k = 0..15 (R35). -/
  keyGen  : List Nat
  filt    : Filter
  encs    : List Encoder
  keys    : List Key
  /-- CMDQ, oldest first (R39). -/
  cmdq    : List Cmd
  /-- EVQ, oldest first (R39). -/
  evq     : List Event
  /-- RAWQ, oldest first: 64-bit records of R155 (R39). -/
  rawq    : List (BitVec 64)
  /-- STATUS bits 4:0 (R42). -/
  sticky  : BitVec 5
  /-- IRQ_EN bits 1:0 (R43). -/
  irqEn   : BitVec 2
  regs    : Regs
  /-- KEYMAP[k] bits 7:0, k = 0..15 (R57). -/
  keymap  : List (BitVec 8)
  tick    : Word
  faults  : Faults
  /-- The PCM buffer by byte offset from `PCM_BASE`, offsets rising: the bytes that differ from the power-up draw
  `Config.pcmPowerUp`, which every unlisted one reads as (R62, R542, log 10). -/
  pcm     : List Host.Cell
  /-- The model's own: what the last access or micro-operation gave back (log 6). -/
  answer  : Answer
  /-- The model's own: the agents' steps lined up from outside, next one first (log 1). -/
  lines   : List Line
  /-- The model's own: whether the eager schedule of R172 is in force (log 18). -/
  eager   : Bool
  /-- The model's own: how many steps the free draws have supplied (log 1). -/
  drawn   : Nat
  deriving DecidableEq, Repr

/-- Why a step stops the model for good. -/
inductive Fault where
  /-- A FRAME asked for a PCM write at this byte offset, outside the PCM buffer, where the core touches no memory (R100). Raised by
  FRAME alone, in sequencer states with `R.j ≥ HALF`, which no run reaches. Safe: the hardware's behaviour there is not the
  spec's, and the model claims nothing (log 11). -/
  | pcmOutside (offset : Nat)
  deriving DecidableEq, Repr

/-- Why a step is refused. -/
inductive Refusal where
  /-- An instruction without a meaning yet, by its mnemonic; raised by `exec`'s arms alone. Safe. -/
  | notModelled (mnemonic : String)
  /-- The line at the head of the schedule has a STEP label that no step has (R148, U12); raised by `step`. Safe: the spec has a
  model refuse such a trace. -/
  | reservedLabel (label : BitVec 4)
  /-- The configuration lies outside the legal ranges of R7 (U26-U28); raised by `step`. Safe: the spec has a model refuse it. -/
  | illegalConfig
  deriving DecidableEq, Repr

/-- How an operation or a step ends. -/
abbrev StepOutcome := Host.Outcome State Fault Refusal

/-- A voice after reset (R541). -/
def Voice.reset : Voice :=
  { env := .idle, level := 0#32, step := 0#32, left := 0#32, atk := 0#32, dec := 0#32, sus := 0#32, rel := 0#32,
    freq := 0#32, tw := 0#32, phase := 0#32, gen := 0 }

/-- The sequencer after reset (R541). -/
def Seq.reset : Seq :=
  { busy := false, cur := 0#1, j := 0#16, nextHalf := 0#1, notify0 := false, notify1 := false }

/-- The filter after reset: all +0.0 and dirty (R36, R541). -/
def Filter.reset : Filter :=
  { b0 := 0#32, b1 := 0#32, b2 := 0#32, a1 := 0#32, a2 := 0#32, x1 := 0#32, x2 := 0#32, y1 := 0#32, y2 := 0#32, dirty := true }

/-- Encoder e after reset, its pins sampled from bits 2e+1:2e of `pins`, and its button ready for a change at once
(R37, R541, R542). -/
def Encoder.reset (c : Params) (pins : Word) (e : Nat) : Encoder :=
  { prev := pins.extractLsb' (2 * e) 2, acc := 0#8, blvl := false, btick := BitVec.ofNat 32 (2 ^ 32 - c.btnDebounceTicks) }

/-- The parameter registers after reset (R541). -/
def Regs.reset : Regs :=
  { attack := 10#8, decay := 10#8, sustain := 70#8, release := 20#8, cutoff := 100#8, resonance := 0#8, volume := 50#8,
    wave := 0#2, note := 0#3, octave := 0 }

/-- KEYMAP after reset (R57, R541). -/
def resetKeymap : List (BitVec 8) :=
  [0x40#8, 0x41#8, 0x42#8, 0x43#8, 0x44#8, 0x45#8, 0x46#8, 0x00#8, 0x80#8, 0x81#8, 0x82#8, 0x83#8, 0x00#8, 0x00#8, 0x00#8,
    0x00#8]

/-- The launch state of a core with parameters `c` whose encoders' pins are `pins`: one RESET from nothing, FAULTS empty, every
byte of the PCM buffer the power-up draw (log 10), no step lined up (R540-R542). -/
def State.launch (c : Params) (pins : Word) : State :=
  { cfg := c
    seq := Seq.reset
    voices := List.replicate c.nVoices Voice.reset
    nextGen := 1
    keyGen := List.replicate 16 0
    filt := Filter.reset
    encs := (List.range c.numEnc).map (Encoder.reset c pins)
    keys := List.replicate 16 { integ := 0, stable := false }
    cmdq := []
    evq := []
    rawq := []
    sticky := 0#5
    irqEn := 0#2
    regs := Regs.reset
    keymap := resetKeymap
    tick := 0#32
    faults := { busError := false, deadlineMiss := false }
    pcm := []
    answer := .none
    lines := []
    eager := false
    drawn := 0 }

/-- The reference core right after reset (R541), the encoders' pins a free value (R542, log 9). -/
def State.reset : State := State.launch Config.reference Config.abPins

end Sys2Proof.Machine
end

