-- ==== Sys2Proof/Machine/Ops.lean ====
section
/-! DEFINITION. The named operations over the state: the primitives of R11 (push, pop, sticky, raise Fault, MemWrite), access to the
voices, encoders and keys by index, and the PCM buffer's bytes. The core has no trap (R505): recording an error in STATUS and
FAULTS is all that meeting one does, and there is nothing to return from (R506). -/

namespace Sys2Proof.Machine

/-! ### STATUS bits and FAULTS -/

/-- The sticky STATUS bits by number (R42). -/
def bitCmdqOvf : Nat := 0
def bitCmdErr : Nat := 1
def bitEvqOvf : Nat := 2
def bitRawqOvf : Nat := 3
def bitDeadlineMiss : Nat := 4

/-- `sticky S <- 1` (R11). -/
def setSticky (bit : Nat) (s : State) : State := { s with sticky := s.sticky ||| (1#5 <<< bit) }

/-- `raise Fault(kind)` (R11, R503): the kind joins FAULTS for good. -/
def raiseFault (k : FaultKind) (s : State) : State :=
  match k with
  | .busError => { s with faults := { s.faults with busError := true } }
  | .deadlineMiss => { s with faults := { s.faults with deadlineMiss := true } }

/-! ### FIFOs -/

/-- `push(CMDQ, rec)` (R11, R39): when full, the record is dropped and CMDQ_OVF set. -/
def pushCmd (r : Cmd) (s : State) : State :=
  if s.cmdq.length < s.cfg.cmdqDepth then { s with cmdq := s.cmdq ++ [r] } else setSticky bitCmdqOvf s

/-- `push(EVQ, rec)` (R11, R39): when full, the record is dropped and EVQ_OVF set. -/
def pushEvent (r : Event) (s : State) : State :=
  if s.evq.length < s.cfg.evqDepth then { s with evq := s.evq ++ [r] } else setSticky bitEvqOvf s

/-- `push(RAWQ, rec)` (R11, R39): when full, the record is dropped and RAWQ_OVF set. -/
def pushRaw (r : BitVec 64) (s : State) : State :=
  if s.rawq.length < s.cfg.rawqDepth then { s with rawq := s.rawq ++ [r] } else setSticky bitRawqOvf s

/-! ### Indexed state -/

/-- Voice `v` replaced by `f` of it; no voice has an index from N_VOICES on. -/
def modifyVoice (v : Nat) (f : Voice → Voice) (s : State) : State := { s with voices := s.voices.modify v f }

/-- Encoder `e` replaced by `f` of it; no encoder has an index from NUM_ENC on. -/
def modifyEnc (e : Nat) (f : Encoder → Encoder) (s : State) : State := { s with encs := s.encs.modify e f }

/-- Key `k` replaced. -/
def setKey (k : Nat) (x : Key) (s : State) : State := { s with keys := s.keys.set k x }

/-- `R.notify[h]` (R31). -/
def notify (h : BitVec 1) (q : Seq) : Bool := if h = 0#1 then q.notify0 else q.notify1

/-- `R.notify[h] <- b` (R31). -/
def setNotify (h : BitVec 1) (b : Bool) (q : Seq) : Seq :=
  if h = 0#1 then { q with notify0 := b } else { q with notify1 := b }

/-- The model's latch of what an access or micro-operation gave back (log 6). -/
def answerWith (a : Answer) (s : State) : State := { s with answer := a }

/-! ### The PCM buffer -/

/-- The byte at an offset: the listed one, and where none is listed the byte of the power-up draw (R62, R542, log 10). -/
def memLookup (a : Nat) : List Host.Cell → Byte
  | [] => Config.pcmPowerUp a
  | (b, y) :: m => if a = b then y else memLookup a m

/-- The list without an entry for an offset, which so reads as at power-up. -/
def memErase (a : Nat) (m : List Host.Cell) : List Host.Cell := m.filter fun c => decide (c.1 ≠ a)

/-- The list with an entry put in before the first greater offset. -/
def memInsert (a : Nat) (x : Byte) : List Host.Cell → List Host.Cell
  | [] => [(a, x)]
  | (b, y) :: m => if a < b then (a, x) :: (b, y) :: m else (b, y) :: memInsert a x m

/-- One byte stored: listed in place of what the list held for its offset, unless it is what an unlisted one reads as. -/
def memStore (a : Nat) (x : Byte) (m : List Host.Cell) : List Host.Cell :=
  if x = Config.pcmPowerUp a then memErase a m else memInsert a x (memErase a m)

/-- The canonical form: offsets strictly rising, and no entry equal to what an unlisted offset reads as. -/
def Memory.wf (m : List Host.Cell) : Bool :=
  decide (m.Pairwise (fun c d => c.1 < d.1) ∧ ∀ c ∈ m, c.2 ≠ Config.pcmPowerUp c.1)

/-- The byte the bus sees at an address: one of the PCM buffer's, and none at an address outside it (R100, R102).
Addresses have no top to wrap at (log 28). -/
def memRead (s : State) (addr : Nat) : Option Byte :=
  if s.cfg.pcmBase ≤ addr ∧ addr < s.cfg.pcmBase + s.cfg.pcmBytes then some (memLookup (addr - s.cfg.pcmBase) s.pcm) else none

/-- `MemWrite(PCM_BASE + off, 2, v)`, little-endian (R11, R101, R104); none outside the PCM buffer (R100, log 11). -/
def memWrite16 (off : Nat) (v : BitVec 16) (s : State) : Option State :=
  if off + 1 < s.cfg.pcmBytes then
    some { s with pcm := memStore (off + 1) (v.extractLsb' 8 8) (memStore off (v.extractLsb' 0 8) s.pcm) }
  else none

/-- The DMA's 32-bit read of frame `i`: right in bits 31:16, left in bits 15:0; none past the buffer (R102). -/
def dmaReadFrame (s : State) (i : Nat) : Option Word :=
  let at' := fun n => memRead s (s.cfg.pcmBase + 4 * i + n)
  match at' 0, at' 1, at' 2, at' 3 with
  | some l0, some l1, some r0, some r1 => some (r1 ++ r0 ++ l1 ++ l0)
  | _, _, _, _ => none

end Sys2Proof.Machine
end

