-- ==== Sys2Proof/Machine/Operands.lean ====
section
/-! DEFINITION. How operations get their operands: the fields of the words, the clamps of register writes, the note of a command, the
legal form of a KEYMAP entry. -/

namespace Sys2Proof.Machine

/-- `clamp(d as u32, lo, hi)` (R9, R144, R464). -/
def clampU (d : Word) (lo hi : Nat) : Nat := min (max d.toNat lo) hi

/-- `clamp(d as i32, lo, hi)` (R9, R144, R479). -/
def clampS (d : Word) (lo hi : Int) : Int := min (max d.toInt lo) hi

/-- A register's u8 field after a clamped write. -/
def clampReg (d : Word) (lo hi : Nat) : BitVec 8 := BitVec.ofNat 8 (clampU d lo hi)

/-- The note of a NOTE field: the field itself up to 6, the NOTE register for 7 (R142). -/
def resolveNote (field : BitVec 3) (s : State) : BitVec 3 := if field.toNat ≤ 6 then field else s.regs.note

/-- The KEYMAP entry a write stores: KIND 11 becomes 00, INDEX is capped by its KIND, bits 5:3 are zero (R57, R466). -/
def keymapEntry (d : Word) : BitVec 8 :=
  let kind := d.extractLsb' 6 2
  let idx := d.extractLsb' 0 3
  if kind = 0b01#2 then kind ++ 0#3 ++ BitVec.ofNat 3 (min idx.toNat 6)
  else if kind = 0b10#2 then kind ++ 0#3 ++ BitVec.ofNat 3 (min idx.toNat 3)
  else 0#8

/-! ### The fields of a BUS word (R143) -/

def busWe (w : BitVec 43) : BitVec 1 := w.extractLsb' 42 1
def busSize (w : BitVec 43) : BitVec 2 := w.extractLsb' 40 2
def busOffset (w : BitVec 43) : BitVec 8 := w.extractLsb' 32 8
def busData (w : BitVec 43) : Word := w.extractLsb' 0 32

/-! ### The fields of a RAW record (R155) -/

def rawStamp (r : BitVec 64) : Word := r.extractLsb' 32 32
def rawKind (r : BitVec 64) : BitVec 2 := r.extractLsb' 30 2
def rawZero (r : BitVec 64) : BitVec 10 := r.extractLsb' 20 10
def rawIndex (r : BitVec 64) : BitVec 4 := r.extractLsb' 16 4
def rawData (r : BitVec 64) : BitVec 16 := r.extractLsb' 0 16

/-! ### The fields of a KEYMAP entry (R57) -/

def keymapKind (m : BitVec 8) : BitVec 2 := m.extractLsb' 6 2
def keymapIndex (m : BitVec 8) : BitVec 3 := m.extractLsb' 0 3

end Sys2Proof.Machine
end

