-- ==== Sys2Proof/Machine/Flags.lean ====
section
/-! DEFINITION. The flags and condition bits of R59 as the outside sees them: the STATUS word, the interrupt line, the VOICE_STATE view,
the event word, the enabling conditions of the agents. The core has no arithmetic condition code (R59). -/

namespace Sys2Proof.Machine

/-- One bit of a Bool. -/
def bitOf (b : Bool) : BitVec 1 := if b then 1#1 else 0#1

/-- The word a read of STATUS gives: live views in bits 11:8, sticky bits in 4:0 (R42, R465). -/
def statusWord (s : State) : Word :=
  0#20 ++ bitOf s.filt.dirty ++ bitOf s.seq.busy ++ bitOf (!s.evq.isEmpty) ++ bitOf s.cmdq.isEmpty ++ 0#3 ++ s.sticky

/-- The interrupt line (R510). -/
def irq (s : State) : Bool := (s.irqEn.getLsbD 0 && !s.evq.isEmpty) || (s.irqEn.getLsbD 1 && s.sticky != 0#5)

/-- The numeric codes of the envelope states (R33). -/
def envCode : Env → Nat
  | .idle => 0
  | .attack => 1
  | .decay => 2
  | .sustain => 3
  | .release => 4

/-- The sum of `V[v].state << 3v` over a list of voices (R55, R481). -/
def voiceCodes : List Voice → Nat
  | [] => 0
  | x :: xs => envCode x.env + 8 * voiceCodes xs

/-- The word a read of VOICE_STATE gives (R55, R481). -/
def voiceStateWord (s : State) : Word := BitVec.ofNat 32 (voiceCodes s.voices)

/-- The TYPE field of an event (R160). -/
def eventTypeCode : EventType → BitVec 2
  | .detent => 0b00#2
  | .encButton => 0b01#2
  | .key => 0b10#2

/-- Bits 30:0 of an event, as EVQ stores it (R160). -/
def eventBits (e : Event) : BitVec 31 := 0#8 ++ bitOf e.value ++ eventTypeCode e.type ++ e.index ++ e.stamp

/-- The word a read of EVENT gives for it, VALID set (R160, R463). -/
def eventWord (e : Event) : Word := 1#1 ++ eventBits e

/-- DECODE is enabled exactly when RAWQ holds a record (R400). -/
def decodeEnabled (s : State) : Bool := !s.rawq.isEmpty

/-- PASS_START is enabled exactly when no pass runs and the next half's notification is pending (R362). -/
def passStartEnabled (s : State) : Bool := !s.seq.busy && notify s.seq.nextHalf s.seq

/-- FRAME is enabled exactly when a pass runs (R364). -/
def frameEnabled (s : State) : Bool := s.seq.busy

end Sys2Proof.Machine
end

