-- ==== Sys2Proof/Machine/Input.lean ====
section
/-! DEFINITION. Raw capture, the quadrature decoder, the encoder buttons (46_quadrature.md), the keypad and its actions
(47_keypad.md). -/

namespace Sys2Proof.Machine

/-! ### Quadrature (R401-R403) -/

/-- QTAB by index `prev << 2 | cur` (R403). -/
def qtabList : List Int := [0, -1, 1, 0, 1, 0, 0, -1, -1, 0, 0, 1, 0, 1, -1, 0]

def qtab (prev cur : BitVec 2) : Int := qtabList.getD (4 * prev.toNat + cur.toNat) 0

/-- A DETENT event (R402). -/
def detentEvent (e : BitVec 4) (up : Bool) (stamp : Word) : Event :=
  { type := .detent, index := e, value := up, stamp := stamp.extractLsb' 0 16 }

/-- DETENT_CHECK(e, stamp): the accumulator restarts from 0 whether or not the event found room (R402). -/
def detentCheck (e : BitVec 4) (stamp : Word) (s : State) : State :=
  match s.encs[e.toNat]? with
  | none => s
  | some x =>
    if (s.cfg.detentSubsteps : Int) ≤ x.acc.toInt then
      modifyEnc e.toNat (fun y => { y with acc := 0#8 }) (pushEvent (detentEvent e true stamp) s)
    else if x.acc.toInt ≤ -(s.cfg.detentSubsteps : Int) then
      modifyEnc e.toNat (fun y => { y with acc := 0#8 }) (pushEvent (detentEvent e false stamp) s)
    else s

/-- An encoder after a sample: `prev` takes it, valid or not, and the sub-step is added (R401). -/
def encSample (ab : BitVec 2) (x : Encoder) : Encoder :=
  { x with prev := ab, acc := x.acc + BitVec.ofInt 8 (qtab x.prev ab) }

/-- ENC_AB(e, ab, stamp): a record for an encoder that does not exist is ignored (R401). -/
def encAb (e : BitVec 4) (ab : BitVec 2) (stamp : Word) (s : State) : State :=
  match s.encs[e.toNat]? with
  | none => s
  | some _ => detentCheck e stamp (modifyEnc e.toNat (encSample ab) s)

/-! ### The encoder button (R410) -/

/-- ENC_BTN(e, l, stamp): a change is taken only after the lockout, stamps compared modulo 2^32 (R410). -/
def encBtn (e : BitVec 4) (level : BitVec 1) (stamp : Word) (s : State) : State :=
  let l := decide (level = 1#1)
  match s.encs[e.toNat]? with
  | none => s
  | some x =>
    if l ≠ x.blvl ∧ s.cfg.btnDebounceTicks ≤ (stamp - x.btick).toNat then
      pushEvent { type := .encButton, index := e, value := l, stamp := stamp.extractLsb' 0 16 }
        (modifyEnc e.toNat (fun y => { y with blvl := l, btick := stamp }) s)
    else s

/-! ### The keypad (R431-R440) -/

/-- KEY_ACTION(k, p), with the mapping read now (R440). -/
def keyAction (k : BitVec 4) (p : Bool) (s : State) : State :=
  let m := s.keymap.getD k.toNat 0#8
  if keymapKind m = 0b01#2 then
    if p then
      pushCmd { op := .noteOn, key := k, note := keymapIndex m } { s with regs := { s.regs with note := keymapIndex m } }
    else pushCmd { op := .noteOff, key := k, note := 0#3 } s
  else if keymapKind m = 0b10#2 then
    if p then { s with regs := { s.regs with wave := (keymapIndex m).setWidth 2 } } else s
  else s

/-- KEY_EDGE(k, p, stamp): the event first, then the action, whether or not the event found room (R432). -/
def keyEdge (k : BitVec 4) (p : Bool) (stamp : Word) (s : State) : State :=
  keyAction k p (pushEvent { type := .key, index := k, value := p, stamp := stamp.extractLsb' 0 16 } s)

/-- The integrator of one key in a scan: up to MAX while pressed, down to 0 otherwise (R431). -/
def integrate (max : Nat) (pressed : Bool) (n : Nat) : Nat := if pressed then if n < max then n + 1 else n else n - 1

/-- One key of a scan (R431). -/
def scanKey (mask : BitVec 16) (stamp : Word) (s : State) (k : Nat) : State :=
  match s.keys[k]? with
  | none => s
  | some x =>
    let pressed := mask.getLsbD k
    let n := integrate s.cfg.debounceMax pressed x.integ
    if pressed then
      if n = s.cfg.debounceMax ∧ x.stable = false then
        keyEdge (BitVec.ofNat 4 k) true stamp (setKey k { integ := n, stable := true } s)
      else setKey k { x with integ := n } s
    else
      if n = 0 ∧ x.stable = true then
        keyEdge (BitVec.ofNat 4 k) false stamp (setKey k { integ := n, stable := false } s)
      else setKey k { x with integ := n } s

/-- KEY_SCAN(mask, stamp): the keys in ascending order, each finished before the next (R431, R433). -/
def keyScan (mask : BitVec 16) (stamp : Word) (s : State) : State := (List.range 16).foldl (scanKey mask stamp) s

/-! ### Capture and dispatch (R400) -/

/-- CAPTURE: the record, stamped with TICK (R155, R400). It takes any low word; that one of KIND 11, or with nonzero bits where INPUT
has zeros, comes this way too, and so takes its place in RAWQ or sets RAWQ_OVF, is the model's choice (R156, U9, log 26). -/
def capture (record : Word) (s : State) : State := pushRaw (s.tick ++ record) s

/-- What DECODE does with a record it has popped (R156, R400). -/
def decodeRecord (r : BitVec 64) (s : State) : State :=
  if rawZero r ≠ 0#10 ∨ rawKind r = 0b11#2 then s
  else if rawKind r = 0b00#2 then encAb (rawIndex r) ((rawData r).extractLsb' 0 2) (rawStamp r) s
  else if rawKind r = 0b01#2 then encBtn (rawIndex r) ((rawData r).extractLsb' 0 1) (rawStamp r) s
  else keyScan (rawData r) (rawStamp r) s

/-- DECODE: one record, in capture order; with none the decoder waits and all state is kept (R400, R524, log 4). -/
def decodeStep (s : State) : State :=
  match s.rawq with
  | [] => s
  | r :: rest => decodeRecord r { s with rawq := rest }

/-! ### The rows -/

def execEncAb (stamp : Word) (e : BitVec 4) (ab : BitVec 2) (s : State) : StepOutcome := .next (encAb e ab stamp s)

def execEncBtn (stamp : Word) (e : BitVec 4) (level : BitVec 1) (s : State) : StepOutcome := .next (encBtn e level stamp s)

def execKeyScan (stamp : Word) (mask : BitVec 16) (s : State) : StepOutcome := .next (keyScan mask stamp s)

/-- A KIND 11 record is discarded (R156). -/
def execRawRsvd (s : State) : StepOutcome := .next s

def execCapture (record : Word) (s : State) : StepOutcome := .next (capture record s)

def execDecode (s : State) : StepOutcome := .next (decodeStep s)

def execDetentCheck (e : BitVec 4) (stamp : Word) (s : State) : StepOutcome := .next (detentCheck e stamp s)

def execKeyAction (k : BitVec 4) (p : Bool) (s : State) : StepOutcome := .next (keyAction k p s)

end Sys2Proof.Machine
end

