-- ==== Sys2Proof/Machine/Registers.lean ====
section
/-! DEFINITION. The host register operations (48_host_registers.md): one operation per register and direction, the bus error, and the
dispatch of a bus access by its offset (R460). -/

namespace Sys2Proof.Machine

/-! ### Writes -/

/-- WR CMD (R461). -/
def cmdPush (d : Word) (s : State) : State :=
  let op := d.extractLsb' 0 4
  let k := d.extractLsb' 4 4
  if op = 0x1#4 then pushCmd { op := .noteOn, key := k, note := resolveNote (d.extractLsb' 8 3) s } s
  else if op = 0x2#4 then pushCmd { op := .noteOff, key := k, note := 0#3 } s
  else setSticky bitCmdErr s

def writeCmd (d : Word) (s : State) : State := answerWith .written (cmdPush d s)

/-- WR STATUS: the sticky bits written as 1 are cleared (R462). -/
def writeStatus (d : Word) (s : State) : State :=
  answerWith .written { s with sticky := s.sticky &&& ~~~(d.extractLsb' 0 5) }

/-- WR IRQ_EN (R469). -/
def writeIrqEn (d : Word) (s : State) : State := answerWith .written { s with irqEn := d.extractLsb' 0 2 }

/-- A write that is ignored: a read-only register (R484) or a reserved offset (R485). -/
def writeIgnored (s : State) : State := answerWith .written s

/-- A write of parameter registers. -/
def writeRegs (f : Regs → Regs) (s : State) : State := answerWith .written { s with regs := f s.regs }

/-- A write of CUTOFF or RESONANCE, which sets `F.dirty` too (R49, R50). -/
def writeFilterRegs (f : Regs → Regs) (s : State) : State :=
  answerWith .written { s with regs := f s.regs, filt := { s.filt with dirty := true } }

def writeAttack (d : Word) (s : State) : State := writeRegs (fun r => { r with attack := clampReg d 1 200 }) s

def writeDecay (d : Word) (s : State) : State := writeRegs (fun r => { r with decay := clampReg d 1 200 }) s

def writeSustain (d : Word) (s : State) : State := writeRegs (fun r => { r with sustain := clampReg d 0 100 }) s

def writeRelease (d : Word) (s : State) : State := writeRegs (fun r => { r with release := clampReg d 1 200 }) s

def writeCutoff (d : Word) (s : State) : State := writeFilterRegs (fun r => { r with cutoff := clampReg d 0 100 }) s

def writeResonance (d : Word) (s : State) : State := writeFilterRegs (fun r => { r with resonance := clampReg d 0 100 }) s

def writeVolume (d : Word) (s : State) : State := writeRegs (fun r => { r with volume := clampReg d 0 100 }) s

def writeWave (d : Word) (s : State) : State := writeRegs (fun r => { r with wave := BitVec.ofNat 2 (clampU d 0 3) }) s

def writeNote (d : Word) (s : State) : State := writeRegs (fun r => { r with note := BitVec.ofNat 3 (clampU d 0 6) }) s

def writeOctave (d : Word) (s : State) : State :=
  writeRegs (fun r => { r with octave := clampS d s.cfg.octaveMin s.cfg.octaveMax }) s

/-- WR KEYMAP[k] (R466). -/
def writeKeymap (k : BitVec 4) (d : Word) (s : State) : State :=
  answerWith .written { s with keymap := s.keymap.set k.toNat (keymapEntry d) }

/-! ### Reads -/

/-- A read that gives back `w` and changes nothing else. -/
def readWord (w : Word) (s : State) : State := answerWith (.rdata w) s

/-- A read of an 8-bit field, bits 31:8 reading as zero (R480). -/
def readReg (x : BitVec 8) (s : State) : State := readWord (x.setWidth 32) s

/-- RD EVENT: the oldest event leaves EVQ; an empty EVQ reads 0 (R463). -/
def readEvent (s : State) : State :=
  match s.evq with
  | [] => readWord 0#32 s
  | e :: rest => readWord (eventWord e) { s with evq := rest }

/-- RD OCTAVE: sign-extended (R54, R480). -/
def readOctave (s : State) : State := readWord (BitVec.ofInt 32 s.regs.octave) s

/-- RD KEYMAP[k] (R467). -/
def readKeymap (k : BitVec 4) (s : State) : State := readReg (s.keymap.getD k.toNat 0#8) s

/-! ### Bus errors (R468) -/

/-- The `rdata` of the bus error response (R468). -/
def busErrorData : Word := 0x00000000#32

/-- BUS_ERROR: the error response, its `rdata` 0 for a read, and the fault; no core state (R468, R503, log 12). -/
def busError (s : State) : State := answerWith (.busError busErrorData) (raiseFault .busError s)

/-! ### Dispatch (R460) -/

/-- The write rule of the register at a word offset (R460). -/
def writeAt (o : BitVec 8) (d : Word) (s : State) : State :=
  if o.getLsbD 7 then writeIgnored s
  else if o.getLsbD 6 then writeKeymap (o.extractLsb' 2 4) d s
  else if o = 0x00#8 then writeCmd d s
  else if o = 0x04#8 then writeStatus d s
  else if o = 0x08#8 then writeIrqEn d s
  else if o = 0x0C#8 then writeIgnored s
  else if o = 0x10#8 then writeAttack d s
  else if o = 0x14#8 then writeDecay d s
  else if o = 0x18#8 then writeSustain d s
  else if o = 0x1C#8 then writeRelease d s
  else if o = 0x20#8 then writeCutoff d s
  else if o = 0x24#8 then writeResonance d s
  else if o = 0x28#8 then writeVolume d s
  else if o = 0x2C#8 then writeWave d s
  else if o = 0x30#8 then writeNote d s
  else if o = 0x34#8 then writeOctave d s
  else writeIgnored s

/-- The read rule of the register at a word offset (R460). -/
def readAt (o : BitVec 8) (s : State) : State :=
  if o.getLsbD 7 then readWord 0#32 s
  else if o.getLsbD 6 then readKeymap (o.extractLsb' 2 4) s
  else if o = 0x00#8 then readWord 0#32 s
  else if o = 0x04#8 then readWord (statusWord s) s
  else if o = 0x08#8 then readWord (s.irqEn.setWidth 32) s
  else if o = 0x0C#8 then readEvent s
  else if o = 0x10#8 then readReg s.regs.attack s
  else if o = 0x14#8 then readReg s.regs.decay s
  else if o = 0x18#8 then readReg s.regs.sustain s
  else if o = 0x1C#8 then readReg s.regs.release s
  else if o = 0x20#8 then readReg s.regs.cutoff s
  else if o = 0x24#8 then readReg s.regs.resonance s
  else if o = 0x28#8 then readReg s.regs.volume s
  else if o = 0x2C#8 then readWord (s.regs.wave.setWidth 32) s
  else if o = 0x30#8 then readWord (s.regs.note.setWidth 32) s
  else if o = 0x34#8 then readOctave s
  else if o = 0x38#8 then readWord (voiceStateWord s) s
  else readWord s.tick s

/-- One bus access (R460): the error conditions come before any register (R143, R504). -/
def busAccess (w : BitVec 43) (s : State) : State :=
  if busSize w ≠ 0b10#2 ∨ (busOffset w).extractLsb' 0 2 ≠ 0b00#2 then busError s
  else if busWe w = 1#1 then writeAt (busOffset w) (busData w) s
  else readAt (busOffset w) s

/-! ### The rows -/

def execHost (access : BitVec 43) (s : State) : StepOutcome := .next (busAccess access s)

def execWrCmd (d : Word) (s : State) : StepOutcome := .next (writeCmd d s)

/-- RD CMD reads 0 (R483). -/
def execRdCmd (s : State) : StepOutcome := .next (readWord 0#32 s)

def execWrStatus (d : Word) (s : State) : StepOutcome := .next (writeStatus d s)

/-- RD STATUS (R465). -/
def execRdStatus (s : State) : StepOutcome := .next (readWord (statusWord s) s)

def execWrIrqEn (d : Word) (s : State) : StepOutcome := .next (writeIrqEn d s)

/-- RD IRQ_EN (R469). -/
def execRdIrqEn (s : State) : StepOutcome := .next (readWord (s.irqEn.setWidth 32) s)

def execRdEvent (s : State) : StepOutcome := .next (readEvent s)

/-- WR EVENT is ignored and does not pop (R484). -/
def execWrRoEvent (s : State) : StepOutcome := .next (writeIgnored s)

def execWrAttack (d : Word) (s : State) : StepOutcome := .next (writeAttack d s)

def execWrDecay (d : Word) (s : State) : StepOutcome := .next (writeDecay d s)

def execWrSustain (d : Word) (s : State) : StepOutcome := .next (writeSustain d s)

def execWrRelease (d : Word) (s : State) : StepOutcome := .next (writeRelease d s)

def execWrCutoff (d : Word) (s : State) : StepOutcome := .next (writeCutoff d s)

def execWrResonance (d : Word) (s : State) : StepOutcome := .next (writeResonance d s)

def execWrVolume (d : Word) (s : State) : StepOutcome := .next (writeVolume d s)

def execWrWave (d : Word) (s : State) : StepOutcome := .next (writeWave d s)

def execWrNote (d : Word) (s : State) : StepOutcome := .next (writeNote d s)

def execWrOctave (d : Word) (s : State) : StepOutcome := .next (writeOctave d s)

def execRdAttack (s : State) : StepOutcome := .next (readReg s.regs.attack s)

def execRdDecay (s : State) : StepOutcome := .next (readReg s.regs.decay s)

def execRdSustain (s : State) : StepOutcome := .next (readReg s.regs.sustain s)

def execRdRelease (s : State) : StepOutcome := .next (readReg s.regs.release s)

def execRdCutoff (s : State) : StepOutcome := .next (readReg s.regs.cutoff s)

def execRdResonance (s : State) : StepOutcome := .next (readReg s.regs.resonance s)

def execRdVolume (s : State) : StepOutcome := .next (readReg s.regs.volume s)

def execRdWave (s : State) : StepOutcome := .next (readWord (s.regs.wave.setWidth 32) s)

def execRdNote (s : State) : StepOutcome := .next (readWord (s.regs.note.setWidth 32) s)

def execRdOctave (s : State) : StepOutcome := .next (readOctave s)

/-- RD VOICE_STATE (R481). -/
def execRdVoiceState (s : State) : StepOutcome := .next (readWord (voiceStateWord s) s)

/-- WR VOICE_STATE is ignored (R484). -/
def execWrRoVoiceState (s : State) : StepOutcome := .next (writeIgnored s)

/-- RD TICK (R482). -/
def execRdTick (s : State) : StepOutcome := .next (readWord s.tick s)

/-- WR TICK is ignored (R484). -/
def execWrRoTick (s : State) : StepOutcome := .next (writeIgnored s)

def execWrKeymap (k : BitVec 4) (d : Word) (s : State) : StepOutcome := .next (writeKeymap k d s)

def execRdKeymap (k : BitVec 4) (s : State) : StepOutcome := .next (readKeymap k s)

/-- A write of a reserved offset is ignored (R485). -/
def execWrRsvd (s : State) : StepOutcome := .next (writeIgnored s)

/-- A read of a reserved offset gives 0 (R485). -/
def execRdRsvd (s : State) : StepOutcome := .next (readWord 0#32 s)

def execBusErrSize8 (s : State) : StepOutcome := .next (busError s)

def execBusErrSize16 (s : State) : StepOutcome := .next (busError s)

def execBusErrSizeRsvd (s : State) : StepOutcome := .next (busError s)

def execBusErrAlignB0 (s : State) : StepOutcome := .next (busError s)

def execBusErrAlignB1 (s : State) : StepOutcome := .next (busError s)

end Sys2Proof.Machine
end

