-- ==== Sys2Proof/Machine/Float.lean ====
section
/-! DEFINITION. binary32 arithmetic of rule R10: each operation computes the exact value and rounds it once, to nearest, ties to
even. A finite magnitude is a whole number of units of 2^-149, so every exact value is a fraction of such units. Signed zeros,
infinities and NaN follow IEEE 754 (log 13). -/

namespace Sys2Proof.Machine

/-- Bits 30:0: exponent and fraction, which order the magnitudes. -/
def fcode (x : F32) : Nat := x.toNat % 2 ^ 31

/-- The sign bit. -/
def fneg? (x : F32) : Bool := x.getLsbD 31

/-- The code of infinity. -/
def infCode : Nat := 0x7F800000

def isNan (x : F32) : Bool := decide (infCode < fcode x)

def isInf (x : F32) : Bool := decide (fcode x = infCode)

def isFinite (x : F32) : Bool := decide (fcode x < infCode)

/-- The magnitude of a finite value, in units of 2^-149. -/
def funits (x : F32) : Nat :=
  let e := fcode x / 2 ^ 23
  let m := fcode x % 2 ^ 23
  if e = 0 then m else (m + 2 ^ 23) * 2 ^ (e - 1)

/-- The value of a finite binary32, in units of 2^-149. -/
def fval (x : F32) : Int := if fneg? x then -(funits x : Int) else funits x

/-- The bit pattern of a sign and a code. -/
def fpack (neg : Bool) (code : Nat) : F32 := BitVec.ofNat 32 ((if neg then 2 ^ 31 else 0) + code)

/-- `num / den` to the nearest integer, ties to even. -/
def rne (num den : Nat) : Nat :=
  let q := num / den
  let r := num % den
  if 2 * r < den then q else if den < 2 * r then q + 1 else q + q % 2

/-- The code of the binary32 nearest to `num / den` units of 2^-149, ties to even, infinity past the largest finite value: RN of
R10. Up to 2^24 units the spacing is one unit and the code is the number of units; above, each doubling of the value doubles
the spacing, and a carry out of the fraction moves on to the next exponent by itself. -/
def rnCode (num den : Nat) : Nat :=
  let k := (num / den).log2 - 23
  min (k * 2 ^ 23 + rne num (den * 2 ^ k)) infCode

/-- RN of the integer or fraction `num / den`, with a sign (R10). -/
def fround (neg : Bool) (num den : Nat) : F32 := fpack neg (rnCode (num * 2 ^ 149) den)

/-- `f32(n)` of a natural number (R10). -/
def fofNat (n : Nat) : F32 := fround false n 1

/-- `f32(n)` of an integer (R10). -/
def fofInt (n : Int) : F32 := fround (decide (n < 0)) n.natAbs 1

/-- The NaN an operation on `a` and `b` gives: quiet, its sign and payload free (log 13). -/
def fnan (a b : F32) : F32 :=
  let p := Config.nanBits a b
  p.extractLsb' 22 1 ++ 0b111111111#9 ++ p.extractLsb' 0 22

def fnegate (x : F32) : F32 := x ^^^ 0x80000000#32

/-- `a +f b` (R10): an exact zero sum is +0.0 unless both are negative zeros. -/
def fadd (a b : F32) : F32 :=
  if isNan a || isNan b then fnan a b
  else if isInf a then if isInf b && (fneg? a != fneg? b) then fnan a b else a
  else if isInf b then b
  else
    let s := fval a + fval b
    if s = 0 then fpack (fneg? a && fneg? b) 0 else fpack (decide (s < 0)) (rnCode s.natAbs 1)

/-- `a −f b` (R10). -/
def fsub (a b : F32) : F32 := if isNan a || isNan b then fnan a b else fadd a (fnegate b)

/-- `a ×f b` (R10). -/
def fmul (a b : F32) : F32 :=
  let neg := fneg? a != fneg? b
  if isNan a || isNan b then fnan a b
  else if isInf a || isInf b then if fcode a = 0 || fcode b = 0 then fnan a b else fpack neg infCode
  else fpack neg (rnCode (funits a * funits b) (2 ^ 149))

/-- `a ÷f b` (R10). -/
def fdiv (a b : F32) : F32 :=
  let neg := fneg? a != fneg? b
  if isNan a || isNan b then fnan a b
  else if isInf a then if isInf b then fnan a b else fpack neg infCode
  else if isInf b then fpack neg 0
  else if fcode b = 0 then if fcode a = 0 then fnan a b else fpack neg infCode
  else fpack neg (rnCode (funits a * 2 ^ 149) (funits b))

/-- A number that orders the values that are no NaN as the reals they are, the two zeros being one. -/
def fkey (x : F32) : Int := if fneg? x then -(fcode x : Int) else fcode x

/-- `a ≤ b` on reals, false with a NaN (R10). -/
def fle (a b : F32) : Bool := !isNan a && !isNan b && decide (fkey a ≤ fkey b)

/-- `clamp(x, lo, hi) = min(max(x, lo), hi)` (R9). -/
def fclamp (x lo hi : F32) : F32 :=
  let m := if fle lo x then x else lo
  if fle m hi then m else hi

/-- CLIP16 (R369): 0 for a NaN, the bounds from 32767.0 up and -32768.0 down, else truncation toward zero. -/
def clip16 (o : F32) : Int :=
  if isNan o then 0
  else if fle 0x46FFFE00#32 o then 32767
  else if fle o 0xC7000000#32 then -32768
  else if fneg? o then -((funits o / 2 ^ 149 : Nat) : Int)
  else ((funits o / 2 ^ 149 : Nat) : Int)

/-- 1.0. -/
def fone : F32 := 0x3F800000#32

/-- +0.0. -/
def fzero : F32 := 0x00000000#32

/-- 100.0, the divisor of SUSTAIN and VOLUME (R282, R369). -/
def fhundred : F32 := 0x42C80000#32

/-- `2^o` for an octave `o` (R240). -/
def fpow2 (o : Int) : F32 := if 0 ≤ o then fround false (2 ^ o.natAbs) 1 else fround false 1 (2 ^ o.natAbs)

end Sys2Proof.Machine
end

