-- ==== Sys2Proof/Machine/Envelope.lean ====
section
/-! DEFINITION. The ADSR envelope generator: one definition per state of a voice (41_envelope.md), and the five micro-operations. -/

namespace Sys2Proof.Machine

/-- `max(n, 1)` of a u32 (R201). -/
def atLeastOne (n : Word) : Word := if n = 0#32 then 1#32 else n

/-- `begin_stage(v, delta, n)` (R201). -/
def beginStage (delta : F32) (n : Word) (x : Voice) : Voice :=
  { x with step := fdiv delta (fofNat (atLeastOne n).toNat), left := atLeastOne n }

/-- ENV_IDLE (R202). -/
def envIdle (x : Voice) : Voice := { x with level := fzero }

/-- ENV_ATTACK (R203). A stage counter of 0, which no ramping stage has (R201), wraps as the u32 it is (log 20). -/
def envAttack (x : Voice) : Voice :=
  let y := { x with level := fadd x.level x.step, left := x.left - 1#32 }
  if fle fone y.level || y.left == 0#32 then
    beginStage (fsub fone y.sus) y.dec { y with level := fone, env := .decay }
  else y

/-- ENV_DECAY (R204). -/
def envDecay (x : Voice) : Voice :=
  let y := { x with level := fsub x.level x.step, left := x.left - 1#32 }
  if fle y.level y.sus || y.left == 0#32 then
    { y with level := y.sus, env := .sustain, step := fzero, left := 0#32 }
  else y

/-- ENV_SUSTAIN: no change (R205). -/
def envSustain (x : Voice) : Voice := x

/-- ENV_RELEASE (R206). -/
def envRelease (x : Voice) : Voice :=
  let y := { x with level := fsub x.level x.step, left := x.left - 1#32 }
  if fle y.level fzero || y.left == 0#32 then
    { y with level := fzero, env := .idle, step := fzero, left := 0#32 }
  else y

/-- `ENV_ADVANCE(v)`: exactly one of the five, by the voice's state (R200). -/
def envAdvance (x : Voice) : Voice :=
  match x.env with
  | .idle => envIdle x
  | .attack => envAttack x
  | .decay => envDecay x
  | .sustain => envSustain x
  | .release => envRelease x

/-- A micro-operation of a voice in the state `e` that R200 dispatches to it; in another state it is not the one that runs, and
the voice stays as it is (log 5). -/
def whenEnv (e : Env) (f : Voice → Voice) (x : Voice) : Voice := if x.env = e then f x else x

def execEnvIdle (v : BitVec 3) (s : State) : StepOutcome := .next (modifyVoice v.toNat (whenEnv .idle envIdle) s)

def execEnvAttack (v : BitVec 3) (s : State) : StepOutcome := .next (modifyVoice v.toNat (whenEnv .attack envAttack) s)

def execEnvDecay (v : BitVec 3) (s : State) : StepOutcome := .next (modifyVoice v.toNat (whenEnv .decay envDecay) s)

def execEnvSustain (v : BitVec 3) (s : State) : StepOutcome := .next (modifyVoice v.toNat (whenEnv .sustain envSustain) s)

def execEnvRelease (v : BitVec 3) (s : State) : StepOutcome := .next (modifyVoice v.toNat (whenEnv .release envRelease) s)

end Sys2Proof.Machine
end

