-- ==== Sys2Proof/Machine/Oscillator.lean ====
section
/-! DEFINITION. The oscillator and the wavetable bank (42_oscillator.md): OSC_TUNE, OSC_ADVANCE, OSC_LOOKUP. -/

namespace Sys2Proof.Machine

/-- The bank's entry `i` of wave `w`: sine, saw, square, triangle (R249). -/
def wavetable (c : Params) (w : BitVec 2) (i : Nat) : Int :=
  let t := c.tableLen
  if w = 0#2 then c.sine.getD i 0
  else if w = 1#2 then (2 * (i : Int) - t) * 32767 / t
  else if w = 2#2 then if i < t / 2 then 32767 else -32767
  else if i < t / 2 then -32767 + (4 * 32767 * i / t : Nat)
  else 32767 - (4 * 32767 * (i - t / 2) / t : Nat)

/-- The tuning word of a frequency: `floor(f 2^32 / FS + 1/2)`, exactly (R243). -/
def tuningWord (c : Params) (f : F32) : Word :=
  BitVec.ofNat 32 ((2 * funits f * 2 ^ 32 + c.fs * 2 ^ 149) / (2 * c.fs * 2 ^ 149))

/-- The clamp bound FS/2 (R242). -/
def nyquist (c : Params) : F32 := fdiv (fofNat c.fs) 0x40000000#32

/-- The frequency of a note at an octave, clamped to [0, FS/2] (R240, R242). Note 7, which OSC_TUNE does not have, counts as
+0.0 (log 24). -/
def noteFrequency (c : Params) (note : BitVec 3) (octave : Int) : F32 :=
  fclamp (fmul (c.noteFreq.getD note.toNat fzero) (fpow2 octave)) fzero (nyquist c)

/-- OSC_TUNE (R240). -/
def oscTune (c : Params) (note : BitVec 3) (octave : Int) (x : Voice) : Voice :=
  { x with freq := noteFrequency c note octave, tw := tuningWord c (noteFrequency c note octave) }

/-- OSC_ADVANCE: the phase wraps (R244). -/
def oscAdvance (x : Voice) : Voice := { x with phase := x.phase + x.tw }

/-- The table index of a phase: its high TABLE_LOG2 bits (R245). -/
def tableIndex (c : Params) (phase : Word) : Nat := phase.toNat / 2 ^ (32 - c.tableLog2)

/-- OSC_LOOKUP: the raw sample, from the phase before the frame's advance (R245). -/
def oscLookup (c : Params) (w : BitVec 2) (x : Voice) : Int := wavetable c w (tableIndex c x.phase)

def execOscTune (v note : BitVec 3) (s : State) : StepOutcome :=
  .next (modifyVoice v.toNat (oscTune s.cfg note s.regs.octave) s)

/-- The raw sample goes to `answer`; nothing else is written (R245, log 6). -/
def execOscLookup (v : BitVec 3) (s : State) : StepOutcome :=
  match s.voices[v.toNat]? with
  | some x => .next (answerWith (.raw (oscLookup s.cfg s.regs.wave x)) s)
  | none => .next s

def execOscAdvance (v : BitVec 3) (s : State) : StepOutcome := .next (modifyVoice v.toNat oscAdvance s)

end Sys2Proof.Machine
end

