-- ==== Sys2Proof/Machine/Allocator.lean ====
section
/-! DEFINITION. The voice allocator (43_voice_allocator.md): VOICE_SELECT, GEN_REBASE, NOTE_ON, NOTE_OFF, and the reserved commands. -/

namespace Sys2Proof.Machine

/-! ### VOICE_SELECT (R281) -/

/-- The least index of an Idle voice, counting from `i`. -/
def firstIdle (i : Nat) : List Voice → Option Nat
  | [] => none
  | x :: xs => if x.env = .idle then some i else firstIdle (i + 1) xs

/-- The least index, counting from `i`, of the least generation below `g`, else `best`. -/
def oldestFrom (i best g : Nat) : List Voice → Nat
  | [] => best
  | x :: xs => if x.gen < g then oldestFrom (i + 1) i x.gen xs else oldestFrom (i + 1) best g xs

/-- The voice with the least generation, ties to the least index. -/
def oldest : List Voice → Nat
  | [] => 0
  | x :: xs => oldestFrom 1 0 x.gen xs

/-- VOICE_SELECT (R281). -/
def voiceSelect (vs : List Voice) : Nat :=
  match firstIdle 0 vs with
  | some v => v
  | none => oldest vs

/-! ### GEN_REBASE (R291, R292) -/

/-- A: the generations of the voices that are not Idle (R291), as a list without repeats. -/
def activeGens (vs : List Voice) : List Nat := ((vs.filter (fun x => decide (x.env ≠ .idle))).map Voice.gen).dedup

/-- `off` (R291): an empty A gives NEXT_GEN - 1, else the least generation less one. -/
def rebaseOffset (gens : List Nat) (nextGen : Nat) : Nat :=
  match gens with
  | [] => nextGen - 1
  | g :: gs => gs.foldl min g - 1

/-- Phase 1 (R291): every stored generation less the offset, 0 for one that does not exceed it. -/
def rebaseBy (off : Nat) (s : State) : State :=
  { s with
    voices := s.voices.map (fun x => { x with gen := x.gen - off })
    keyGen := s.keyGen.map (fun g => g - off)
    nextGen := s.nextGen - off }

/-- The rank of a generation among the elements of A (R292). -/
def genRank (gens : List Nat) (g : Nat) : Nat := (gens.filter (fun a => decide (a ≤ g))).length

/-- Phase 2 (R292): the generations of the active voices become their ranks, everything else 0. -/
def rebaseRanks (gens : List Nat) (s : State) : State :=
  { s with
    voices := s.voices.map (fun x => { x with gen := if x.env ≠ .idle then genRank gens x.gen else 0 })
    keyGen := s.keyGen.map (fun g => if g ∈ gens then genRank gens g else 0)
    nextGen := gens.length + 1 }

/-- GEN_REBASE (R291, R292). -/
def genRebase (s : State) : State :=
  let gens := activeGens s.voices
  let off := rebaseOffset gens s.nextGen
  if 0 < off then rebaseBy off s else rebaseRanks gens s

/-! ### NOTE_ON (R282, R283) -/

/-- A UI time in samples (R282). -/
def stageSamples (c : Params) (units : BitVec 8) : Word := BitVec.ofNat 32 (units.toNat * c.samplesPerUnit)

/-- A 0..100 control as a level: `RN(x / 100)` (R282, R369). -/
def percent (x : BitVec 8) : F32 := fdiv (fofNat x.toNat) fhundred

/-- The voice a NOTE_ON starts, from the parameters it reads at this point (R282, R283); its phase is kept (R247). -/
def startVoice (c : Params) (r : Regs) (note : BitVec 3) (gen : Nat) (x : Voice) : Voice :=
  let y := { x with
    atk := stageSamples c r.attack
    dec := stageSamples c r.decay
    rel := stageSamples c r.release
    sus := percent r.sustain }
  let z := oscTune c note r.octave y
  { beginStage fone z.atk { z with env := .attack, level := fzero } with gen := gen }

/-- The rebase that a NOTE_ON runs first, exactly when its generation would not fit (R283, R290). -/
def rebaseIfFull (s : State) : State := if s.nextGen = s.cfg.genMax + 1 then genRebase s else s

/-- NOTE_ON(k, n) (R283). -/
def noteOn (key : BitVec 4) (note : BitVec 3) (s : State) : State :=
  let t := rebaseIfFull s
  { modifyVoice (voiceSelect t.voices) (startVoice t.cfg t.regs note t.nextGen) t with
    nextGen := t.nextGen + 1
    keyGen := t.keyGen.set key.toNat t.nextGen }

/-! ### NOTE_OFF (R286) -/

/-- The least index of a voice of generation `g`, counting from `i` (one at most has it, R293, log 22). -/
def voiceOfGen (g i : Nat) : List Voice → Option Nat
  | [] => none
  | x :: xs => if x.gen = g then some i else voiceOfGen g (i + 1) xs

/-- The release of a voice that is not Idle (R286). -/
def releaseVoice (x : Voice) : Voice :=
  if x.env = .idle then x else beginStage x.level x.rel { x with env := .release }

/-- NOTE_OFF(k) (R286). -/
def noteOff (key : BitVec 4) (s : State) : State :=
  let g := s.keyGen.getD key.toNat 0
  if g = 0 then s
  else
    match voiceOfGen g 0 s.voices with
    | none => s
    | some v => modifyVoice v releaseVoice s

/-- The application of a CMDQ record (R280). -/
def applyCmd (s : State) (r : Cmd) : State :=
  match r.op with
  | .noteOn => noteOn r.key r.note s
  | .noteOff => noteOff r.key s

/-! ### The rows -/

/-- NOTE_ON applied, its NOTE field resolved as R142 says (R283, log 2). -/
def execNoteOn (key : BitVec 4) (field : BitVec 3) (s : State) : StepOutcome := .next (noteOn key (resolveNote field s) s)

def execNoteOff (key : BitVec 4) (s : State) : StepOutcome := .next (noteOff key s)

/-- A reserved OP pushes nothing and sets CMD_ERR (R146, R461). -/
def execCmdRsvd0 (s : State) : StepOutcome := .next (setSticky bitCmdErr s)

def execCmdRsvd3 (s : State) : StepOutcome := .next (setSticky bitCmdErr s)

def execCmdRsvd47 (s : State) : StepOutcome := .next (setSticky bitCmdErr s)

def execCmdRsvd8F (s : State) : StepOutcome := .next (setSticky bitCmdErr s)

/-- The voice goes to `answer`; nothing else is written (R281, log 6). -/
def execVoiceSelect (s : State) : StepOutcome := .next (answerWith (.voice (voiceSelect s.voices)) s)

def execGenRebase (s : State) : StepOutcome := .next (genRebase s)

end Sys2Proof.Machine
end

