-- ==== Sys2Proof/Machine/Trig.lean ====
section
/-! DEFINITION. Sine and cosine of a fraction of a full turn, in fixed point with 192 fractional bits: what the coefficient function of
R331 and the sine formula of R250 need before their one rounding (log 14, log 16). -/

namespace Sys2Proof.Machine

/-- The fixed-point unit. -/
def fixOne : Nat := 2 ^ 192

/-- π in that fixed point, rounded down. -/
def fixPi : Nat := 0x3243f6a8885a308d313198a2e03707344a4093822299f31d0

/-- An alternating series `t - t x²/((k+1)(k+2)) + ...`, `n` terms of it, `t` being the term of degree `k`. -/
def fixSeries : (n k t x2 : Nat) → Int
  | 0, _, _, _ => 0
  | n + 1, k, t, x2 => (t : Int) - fixSeries n (k + 2) (t * x2 / fixOne / ((k + 1) * (k + 2))) x2

/-- The angle of `num / den` turns. -/
def fixAngle (num den : Nat) : Nat := 2 * fixPi * num / den

/-- `sin(2π num / den)` for `num / den` between 0 and 1/2, exact where the sine is rational. -/
def sinTurn (num den : Nat) : Int :=
  if 4 * num = den then fixOne
  else if 12 * num = den ∨ 12 * num = 5 * den then (fixOne / 2 : Nat)
  else
    let x := fixAngle num den
    fixSeries 40 1 x (x * x / fixOne)

/-- `cos(2π num / den)` for `num / den` between 0 and 1/2, exact where the cosine is rational. -/
def cosTurn (num den : Nat) : Int :=
  if 4 * num = den then 0
  else if 6 * num = den then (fixOne / 2 : Nat)
  else if 3 * num = den then -(fixOne / 2 : Nat)
  else
    let x := fixAngle num den
    fixSeries 40 0 fixOne (x * x / fixOne)

/-- `floor(32767 sin(2π i / T) + 1/2)` for `2 i ≤ T`. -/
def sineHalf (t i : Nat) : Int := (2 * 32767 * sinTurn i t + fixOne) / (2 * fixOne)

/-- The formula of R250 for any T: the sampled sine of peak 32767, rounded half away from zero. -/
def sineSample (t i : Nat) : Int := if 2 * i ≤ t then sineHalf t i else -sineHalf t (t - i)

end Sys2Proof.Machine
end

