-- ==== Sys2Proof/Machine/Filter.lean ====
section
/-! DEFINITION. The biquad low-pass filter (44_filter.md): the parameter mapping, the coefficient function, FILT_UPDATE, FILT_PROCESS. -/

namespace Sys2Proof.Machine

/-! ### Parameter mapping (R330) -/

/-- `a ≤ b` of fractions with positive denominators. -/
def fracLe (a b : Frac) : Bool := decide (a.num * b.den ≤ b.num * a.den)

def fracMax (a b : Frac) : Frac := if fracLe a b then b else a

def fracMin (a b : Frac) : Frac := if fracLe a b then a else b

/-- `fc = clamp(CUTOFF × CUTOFF_HZ_PER_UNIT, FC_FLOOR, NYQ_FRAC × FS / 2)`, FC_FLOOR being 1 Hz (R330). -/
def filterFc (c : Params) (cutoff : Nat) : Frac :=
  fracMin (fracMax ⟨cutoff * c.cutoffHz.num, c.cutoffHz.den⟩ ⟨1, 1⟩) ⟨c.nyqFrac.num * c.fs, c.nyqFrac.den * 2⟩

/-- `Q = max(Q_BASE + RESONANCE × Q_STEP, Q_FLOOR)`, Q_FLOOR being 1/10 (R330). -/
def filterQ (c : Params) (resonance : Nat) : Frac :=
  fracMax ⟨c.qBase.num * c.qStep.den + resonance * c.qStep.num * c.qBase.den, c.qBase.den * c.qStep.den⟩ ⟨1, 10⟩

/-! ### Coefficients (R331) -/

/-- RN of `n / d`, an exact zero giving +0.0 (R331). -/
def froundFrac (n : Int) (d : Nat) : F32 := fround (decide (n < 0)) n.natAbs d

/-- The reference `BIQUAD_COEF(fc, Q, FS)`: the formulas of R331 over the sine and cosine of `w0 = 2π fc / FS`, multiplied through
by `2 Q` and the fixed-point unit, each quotient rounded once (log 14). -/
def biquadCoef (fc q : Frac) (fs : Nat) : Coefs :=
  let sn := sinTurn fc.num (fc.den * fs)
  let cs := cosTurn fc.num (fc.den * fs)
  let q2 : Int := 2 * q.num
  let alpha : Int := sn * q.den
  let a0 : Nat := (q2 * fixOne + alpha).toNat
  let oneMinusCos : Int := (fixOne - cs) * q2
  { b0 := froundFrac oneMinusCos (2 * a0)
    b1 := froundFrac oneMinusCos a0
    b2 := froundFrac oneMinusCos (2 * a0)
    a1 := froundFrac (-(2 * cs * q2)) a0
    a2 := froundFrac (q2 * fixOne - alpha) a0 }

/-- The coefficients of a setting: the ROM's own row if the configuration lists one, else the reference definition (R331, log 14). -/
def filterCoefs (c : Params) (cutoff resonance : Nat) : Coefs :=
  match c.coefRom.find? (fun r => decide (r.cutoff = cutoff) && decide (r.resonance = resonance)) with
  | some r => r.coefs
  | none => biquadCoef (filterFc c cutoff) (filterQ c resonance) c.fs

/-- New coefficients with the history kept (R332, R334). -/
def loadCoefs (k : Coefs) (f : Filter) : Filter := { f with b0 := k.b0, b1 := k.b1, b2 := k.b2, a1 := k.a1, a2 := k.a2 }

/-- FILT_UPDATE (R332). -/
def filtUpdate (s : State) : State :=
  if s.filt.dirty then
    { s with
      filt := loadCoefs (filterCoefs s.cfg s.regs.cutoff.toNat s.regs.resonance.toNat) { s.filt with dirty := false } }
  else s

/-! ### Processing (R333) -/

/-- The output of one Direct Form I step, each operation rounded, left to right (R333). -/
def filtOutput (x : F32) (f : Filter) : F32 :=
  fsub (fsub (fadd (fadd (fmul f.b0 x) (fmul f.b1 f.x1)) (fmul f.b2 f.x2)) (fmul f.a1 f.y1)) (fmul f.a2 f.y2)

/-- The history shifted by the input and the output (R333). -/
def filtShift (x y : F32) (f : Filter) : Filter := { f with x2 := f.x1, x1 := x, y2 := f.y1, y1 := y }

def execFiltUpdate (s : State) : StepOutcome := .next (filtUpdate s)

/-- FILT_PROCESS: the output goes to `answer` (R333, log 6). -/
def execFiltProcess (x : F32) (s : State) : StepOutcome :=
  .next (answerWith (.sample (filtOutput x s.filt)) { s with filt := filtShift x (filtOutput x s.filt) s.filt })

end Sys2Proof.Machine
end

