-- ==== Sys2Proof/Machine/Renderer.lean ====
section
/-! DEFINITION. The audio renderer (45_renderer.md): the DMA notifications, PASS_START and FRAME. -/

namespace Sys2Proof.Machine

/-! ### DMA notifications (R361) -/

/-- The three ways in which the DMA is about to read a half that has not been refilled (R361). -/
def deadlineMissed (h : BitVec 1) (q : Seq) : Bool :=
  notify h q || notify (~~~h) q || (q.busy && decide (q.cur = ~~~h))

/-- DMA_NOTIFY(h): a miss sets DEADLINE_MISS and raises the fault, and the machine goes on (R361, R503, log 12). -/
def dmaNotify (h : BitVec 1) (s : State) : State :=
  let t := if deadlineMissed h s.seq then raiseFault .deadlineMiss (setSticky bitDeadlineMiss s) else s
  { t with seq := setNotify h true t.seq }

def execDmaHt (s : State) : StepOutcome := .next (dmaNotify 0#1 s)

def execDmaTc (s : State) : StepOutcome := .next (dmaNotify 1#1 s)

/-! ### PASS_START (R362, R363) -/

/-- The sequencer at a pass start (R363). -/
def startPass (q : Seq) : Seq := { setNotify q.nextHalf false q with busy := true, cur := q.nextHalf, j := 0#16 }

/-- PASS_START where it is enabled; elsewhere the renderer waits and all state is kept (R362, R524, log 4). -/
def execPassStart (s : State) : StepOutcome :=
  if passStartEnabled s then .next (filtUpdate { s with seq := startPass s.seq }) else .next s

/-! ### FRAME (R364) -/

/-- (a): every command in CMDQ, oldest first (R365). -/
def applyCommands (s : State) : State := s.cmdq.foldl applyCmd { s with cmdq := [] }

/-- A voice's contribution added to the mix, unless its level is below the silence threshold (R246, R367). -/
def mixVoice (c : Params) (w : BitVec 2) (mix : F32) (x : Voice) : F32 :=
  if fle c.silence x.level then fadd mix (fmul (fofInt (oscLookup c w x)) x.level) else mix

/-- (c): the voices in ascending order, each its envelope, its contribution to the mix, its phase (R364, R367). -/
def renderVoices (c : Params) (w : BitVec 2) : List Voice → F32 → List Voice × F32
  | [], mix => ([], mix)
  | x :: xs, mix =>
    let y := envAdvance x
    let r := renderVoices c w xs (mixVoice c w mix y)
    (oscAdvance y :: r.1, r.2)

/-- The buffer's frame index of frame `R.j` of half `R.cur` (R368). -/
def frameIndex (s : State) : Nat := s.seq.cur.toNat * s.cfg.half + s.seq.j.toNat

/-- (f): the sequencer after a frame (R366). -/
def advanceSeq (c : Params) (q : Seq) : Seq :=
  let j := q.j + 1#16
  if j.toNat = c.half then { q with j := 0#16, busy := false, nextHalf := ~~~q.cur } else { q with j := j }

/-- (e): the same sample to the left and the right halfword of frame `i` (R368). -/
def writeFrame (i : Nat) (v : BitVec 16) (s : State) : Option State :=
  (memWrite16 (4 * i) v s).bind (memWrite16 (4 * i + 2) v)

/-- (b) to (d) and the scaling of (e): voices and filter advanced, and the 16-bit sample (R364, R367, R369). -/
def renderMix (s : State) : State × BitVec 16 :=
  let r := renderVoices s.cfg s.regs.wave s.voices fzero
  let y := filtOutput r.2 s.filt
  ({ s with voices := r.1, filt := filtShift r.2 y s.filt },
    BitVec.ofInt 16 (clip16 (fmul y (percent s.regs.volume))))

/-- One frame (R364). -/
def renderFrame (s : State) : StepOutcome :=
  let r := renderMix (applyCommands s)
  match writeFrame (frameIndex r.1) r.2 r.1 with
  | some t => .next { t with seq := advanceSeq t.cfg t.seq }
  | none => .fault (.pcmOutside (4 * frameIndex r.1))

/-- FRAME where it is enabled; elsewhere the renderer waits and all state is kept (R364, R524, log 4). -/
def execFrame (s : State) : StepOutcome := if frameEnabled s then renderFrame s else .next s

end Sys2Proof.Machine
end

