-- ==== Sys2Proof/Machine/Timer.lean ====
section
/-! DEFINITION. The TIMER and RESET agents' steps: TICK (R520) and RESET (R540-R542). -/

namespace Sys2Proof.Machine

/-- TICK advances the counter, modulo 2^32, and nothing else (R520). -/
def execTick (s : State) : StepOutcome := .next { s with tick := s.tick + 1#32 }

/-- RESET: every piece of core state at its reset value, the encoders' pins taken from `pins`; the PCM buffer and FAULTS are kept
(R540-R542), and so is what lies outside the core: its configuration and the schedule (log 23). -/
def resetCore (pins : Word) (s : State) : State :=
  { State.launch s.cfg pins with
    pcm := s.pcm
    faults := s.faults
    lines := s.lines
    eager := s.eager
    drawn := s.drawn }

def execReset (pins : Word) (s : State) : StepOutcome := .next (resetCore pins s)

end Sys2Proof.Machine
end

