-- ==== Sys2Proof/Machine/Dispatch.lean ====
section
/-! DEFINITION. One arm per instruction: the meaning each operation has. -/

namespace Sys2Proof.Machine

def exec (i : Instr) (s : State) : Host.Outcome State Fault Refusal :=
  match i with
  | .noteOn key note => Sys2Proof.Machine.execNoteOn key note s
  | .noteOff key => Sys2Proof.Machine.execNoteOff key s
  | .cmdRsvd0 => Sys2Proof.Machine.execCmdRsvd0 s
  | .cmdRsvd3 => Sys2Proof.Machine.execCmdRsvd3 s
  | .cmdRsvd47 _ => Sys2Proof.Machine.execCmdRsvd47 s
  | .cmdRsvd8F _ => Sys2Proof.Machine.execCmdRsvd8F s
  | .wrCmd data => Sys2Proof.Machine.execWrCmd data s
  | .rdCmd => Sys2Proof.Machine.execRdCmd s
  | .wrStatus data => Sys2Proof.Machine.execWrStatus data s
  | .rdStatus => Sys2Proof.Machine.execRdStatus s
  | .wrIrqEn data => Sys2Proof.Machine.execWrIrqEn data s
  | .rdIrqEn => Sys2Proof.Machine.execRdIrqEn s
  | .rdEvent => Sys2Proof.Machine.execRdEvent s
  | .wrRoEvent _ => Sys2Proof.Machine.execWrRoEvent s
  | .wrAttack data => Sys2Proof.Machine.execWrAttack data s
  | .wrDecay data => Sys2Proof.Machine.execWrDecay data s
  | .wrSustain data => Sys2Proof.Machine.execWrSustain data s
  | .wrRelease data => Sys2Proof.Machine.execWrRelease data s
  | .wrCutoff data => Sys2Proof.Machine.execWrCutoff data s
  | .wrResonance data => Sys2Proof.Machine.execWrResonance data s
  | .wrVolume data => Sys2Proof.Machine.execWrVolume data s
  | .wrWave data => Sys2Proof.Machine.execWrWave data s
  | .wrNote data => Sys2Proof.Machine.execWrNote data s
  | .wrOctave data => Sys2Proof.Machine.execWrOctave data s
  | .rdAttack => Sys2Proof.Machine.execRdAttack s
  | .rdDecay => Sys2Proof.Machine.execRdDecay s
  | .rdSustain => Sys2Proof.Machine.execRdSustain s
  | .rdRelease => Sys2Proof.Machine.execRdRelease s
  | .rdCutoff => Sys2Proof.Machine.execRdCutoff s
  | .rdResonance => Sys2Proof.Machine.execRdResonance s
  | .rdVolume => Sys2Proof.Machine.execRdVolume s
  | .rdWave => Sys2Proof.Machine.execRdWave s
  | .rdNote => Sys2Proof.Machine.execRdNote s
  | .rdOctave => Sys2Proof.Machine.execRdOctave s
  | .rdVoiceState => Sys2Proof.Machine.execRdVoiceState s
  | .wrRoVoiceState _ => Sys2Proof.Machine.execWrRoVoiceState s
  | .rdTick => Sys2Proof.Machine.execRdTick s
  | .wrRoTick _ => Sys2Proof.Machine.execWrRoTick s
  | .wrKeymap key data => Sys2Proof.Machine.execWrKeymap key data s
  | .rdKeymap key => Sys2Proof.Machine.execRdKeymap key s
  | .wrRsvd _ _ => Sys2Proof.Machine.execWrRsvd s
  | .rdRsvd _ => Sys2Proof.Machine.execRdRsvd s
  | .busErrSize8 _ _ _ => Sys2Proof.Machine.execBusErrSize8 s
  | .busErrSize16 _ _ _ => Sys2Proof.Machine.execBusErrSize16 s
  | .busErrSizeRsvd _ _ _ => Sys2Proof.Machine.execBusErrSizeRsvd s
  | .busErrAlignB0 _ _ _ => Sys2Proof.Machine.execBusErrAlignB0 s
  | .busErrAlignB1 _ _ _ => Sys2Proof.Machine.execBusErrAlignB1 s
  | .encAb stamp index ab => Sys2Proof.Machine.execEncAb stamp index ab s
  | .encBtn stamp index level => Sys2Proof.Machine.execEncBtn stamp index level s
  | .keyScan stamp mask => Sys2Proof.Machine.execKeyScan stamp mask s
  | .rawRsvd _ _ => Sys2Proof.Machine.execRawRsvd s
  | .host access => Sys2Proof.Machine.execHost access s
  | .capture record => Sys2Proof.Machine.execCapture record s
  | .dmaHt => Sys2Proof.Machine.execDmaHt s
  | .dmaTc => Sys2Proof.Machine.execDmaTc s
  | .tick => Sys2Proof.Machine.execTick s
  | .reset pins => Sys2Proof.Machine.execReset pins s
  | .decode => Sys2Proof.Machine.execDecode s
  | .passStart => Sys2Proof.Machine.execPassStart s
  | .frame => Sys2Proof.Machine.execFrame s
  | .envIdle v => Sys2Proof.Machine.execEnvIdle v s
  | .envAttack v => Sys2Proof.Machine.execEnvAttack v s
  | .envDecay v => Sys2Proof.Machine.execEnvDecay v s
  | .envSustain v => Sys2Proof.Machine.execEnvSustain v s
  | .envRelease v => Sys2Proof.Machine.execEnvRelease v s
  | .oscTune v note => Sys2Proof.Machine.execOscTune v note s
  | .oscLookup v => Sys2Proof.Machine.execOscLookup v s
  | .oscAdvance v => Sys2Proof.Machine.execOscAdvance v s
  | .voiceSelect => Sys2Proof.Machine.execVoiceSelect s
  | .genRebase => Sys2Proof.Machine.execGenRebase s
  | .filtUpdate => Sys2Proof.Machine.execFiltUpdate s
  | .filtProcess x => Sys2Proof.Machine.execFiltProcess x s
  | .detentCheck e stamp => Sys2Proof.Machine.execDetentCheck e stamp s
  | .keyAction key pressed => Sys2Proof.Machine.execKeyAction key pressed s

end Sys2Proof.Machine
end

