-- ==== Sys2Proof/WellFormed.lean ====
section
/-! DEFINITION. Which terms of Instr stand for an encoding of the spec: the operand ranges that the types do not already say. -/

namespace Sys2Proof

/-- A word offset in the reserved range 0x80..0xFC (R58, R485). -/
def isReservedOffset (o : BitVec 8) : Bool := o.getLsbD 7 && !o.getLsbD 1 && !o.getLsbD 0

/-- The operand checks: reserved offsets (R485), the misaligned offsets of the two alignment rows, bit 0 looked at first
(R468, log 25), and the note index of OSC_TUNE, 0..6 (R240). Every other operand takes every value of its type. -/
def Instr.wf : Instr → Bool
  | .wrRsvd o _ => isReservedOffset o
  | .rdRsvd o => isReservedOffset o
  | .busErrAlignB0 _ o _ => o.getLsbD 0
  | .busErrAlignB1 _ o _ => o.getLsbD 1 && !o.getLsbD 0
  | .oscTune _ n => n != 7#3
  | .noteOn _ _ | .noteOff _ | .cmdRsvd0 | .cmdRsvd3 | .cmdRsvd47 _ | .cmdRsvd8F _ => true
  | .wrCmd _ | .rdCmd | .wrStatus _ | .rdStatus | .wrIrqEn _ | .rdIrqEn | .rdEvent | .wrRoEvent _ => true
  | .wrAttack _ | .wrDecay _ | .wrSustain _ | .wrRelease _ | .wrCutoff _ | .wrResonance _ | .wrVolume _ => true
  | .wrWave _ | .wrNote _ | .wrOctave _ => true
  | .rdAttack | .rdDecay | .rdSustain | .rdRelease | .rdCutoff | .rdResonance | .rdVolume | .rdWave | .rdNote => true
  | .rdOctave | .rdVoiceState | .wrRoVoiceState _ | .rdTick | .wrRoTick _ | .wrKeymap _ _ | .rdKeymap _ => true
  | .busErrSize8 _ _ _ | .busErrSize16 _ _ _ | .busErrSizeRsvd _ _ _ => true
  | .encAb _ _ _ | .encBtn _ _ _ | .keyScan _ _ | .rawRsvd _ _ => true
  | .host _ | .capture _ | .dmaHt | .dmaTc | .tick | .reset _ | .decode | .passStart | .frame => true
  | .envIdle _ | .envAttack _ | .envDecay _ | .envSustain _ | .envRelease _ => true
  | .oscLookup _ | .oscAdvance _ | .voiceSelect | .genRebase | .filtUpdate | .filtProcess _ => true
  | .detentCheck _ _ | .keyAction _ _ => true

end Sys2Proof
end

