-- ==== Sys2Proof/Decode.lean ====
section
/-! DEFINITION. From the words of the formats CMD, BUS, RAW and STEP to Instr, total and rejecting by name, then the encoder,
written from the same tables of 30_encoding.md; and the words of the opcode table as the host numbers them. -/

namespace Sys2Proof

/-- Why a word names no operation. -/
inductive Reject where
  /-- A STEP label of 0x6, 0x7, 0xB..0xF: no step has it (R148, U12). -/
  | reservedLabel (label : BitVec 4)
  /-- A RAW record of KIND 00, 01 or 10 with a nonzero bit among 29:20: it matches no row and is discarded (R156). -/
  | rawNoRow
  deriving DecidableEq, Repr

/-! ### Decoding -/

/-- The CMD word (R141, R146): every OP has a row, and bits 31:11 are ignored. -/
def decodeCmd (w : Word) : Instr :=
  let op := w.extractLsb' 0 4
  if op = 0x1#4 then .noteOn (w.extractLsb' 4 4) (w.extractLsb' 8 3)
  else if op = 0x2#4 then .noteOff (w.extractLsb' 4 4)
  else if op = 0x0#4 then .cmdRsvd0
  else if op = 0x3#4 then .cmdRsvd3
  else if op.getLsbD 3 then .cmdRsvd8F (w.extractLsb' 0 3)
  else .cmdRsvd47 (w.extractLsb' 0 2)

/-- The write operation of a word offset (R40, R145). -/
def decodeWrite (o : BitVec 8) (d : Word) : Instr :=
  if o.getLsbD 7 then .wrRsvd o d
  else if o.getLsbD 6 then .wrKeymap (o.extractLsb' 2 4) d
  else if o = 0x00#8 then .wrCmd d
  else if o = 0x04#8 then .wrStatus d
  else if o = 0x08#8 then .wrIrqEn d
  else if o = 0x0C#8 then .wrRoEvent d
  else if o = 0x10#8 then .wrAttack d
  else if o = 0x14#8 then .wrDecay d
  else if o = 0x18#8 then .wrSustain d
  else if o = 0x1C#8 then .wrRelease d
  else if o = 0x20#8 then .wrCutoff d
  else if o = 0x24#8 then .wrResonance d
  else if o = 0x28#8 then .wrVolume d
  else if o = 0x2C#8 then .wrWave d
  else if o = 0x30#8 then .wrNote d
  else if o = 0x34#8 then .wrOctave d
  else if o = 0x38#8 then .wrRoVoiceState d
  else .wrRoTick d

/-- The read operation of a word offset (R40, R145). -/
def decodeRead (o : BitVec 8) : Instr :=
  if o.getLsbD 7 then .rdRsvd o
  else if o.getLsbD 6 then .rdKeymap (o.extractLsb' 2 4)
  else if o = 0x00#8 then .rdCmd
  else if o = 0x04#8 then .rdStatus
  else if o = 0x08#8 then .rdIrqEn
  else if o = 0x0C#8 then .rdEvent
  else if o = 0x10#8 then .rdAttack
  else if o = 0x14#8 then .rdDecay
  else if o = 0x18#8 then .rdSustain
  else if o = 0x1C#8 then .rdRelease
  else if o = 0x20#8 then .rdCutoff
  else if o = 0x24#8 then .rdResonance
  else if o = 0x28#8 then .rdVolume
  else if o = 0x2C#8 then .rdWave
  else if o = 0x30#8 then .rdNote
  else if o = 0x34#8 then .rdOctave
  else if o = 0x38#8 then .rdVoiceState
  else .rdTick

/-- The BUS word (R143): the bus-error rows first, SIZE before alignment (R504), then the register of OFFSET. -/
def decodeBus (w : BitVec 43) : Instr :=
  let we := w.extractLsb' 42 1
  let size := w.extractLsb' 40 2
  let o := w.extractLsb' 32 8
  let d := w.extractLsb' 0 32
  if size = 0b00#2 then .busErrSize8 we o d
  else if size = 0b01#2 then .busErrSize16 we o d
  else if size = 0b11#2 then .busErrSizeRsvd we o d
  else if o.getLsbD 0 then .busErrAlignB0 we o d
  else if o.getLsbD 1 then .busErrAlignB1 we o d
  else if we = 1#1 then decodeWrite o d
  else decodeRead o

/-- The RAW record (R155, R156): DATA bits an operation does not use are ignored. -/
def decodeRaw (w : BitVec 64) : Except Reject Instr :=
  let stamp := w.extractLsb' 32 32
  let kind := w.extractLsb' 30 2
  let index := w.extractLsb' 16 4
  if kind = 0b11#2 then .ok (.rawRsvd stamp (w.extractLsb' 0 30))
  else if w.extractLsb' 20 10 ≠ 0#10 then .error .rawNoRow
  else if kind = 0b00#2 then .ok (.encAb stamp index (w.extractLsb' 0 2))
  else if kind = 0b01#2 then .ok (.encBtn stamp index (w.extractLsb' 0 1))
  else .ok (.keyScan stamp (w.extractLsb' 0 16))

/-- The operation of an agent's label and the operand its environment supplies (R148, log 3). -/
def instrOfLabel (l : Label) (operand : BitVec 64) : Instr :=
  match l with
  | .host => .host (operand.extractLsb' 0 43)
  | .capture => .capture (operand.extractLsb' 0 32)
  | .dmaHt => .dmaHt
  | .dmaTc => .dmaTc
  | .tick => .tick
  | .reset => .reset (operand.extractLsb' 0 32)
  | .decode => .decode
  | .passStart => .passStart
  | .frame => .frame

/-- The label of a STEP word, none for a reserved one (R148). -/
def decodeLabel (label : BitVec 4) : Option Label :=
  if label = 0x0#4 then some .host
  else if label = 0x1#4 then some .capture
  else if label = 0x2#4 then some .dmaHt
  else if label = 0x3#4 then some .dmaTc
  else if label = 0x4#4 then some .tick
  else if label = 0x5#4 then some .reset
  else if label = 0x8#4 then some .decode
  else if label = 0x9#4 then some .passStart
  else if label = 0xA#4 then some .frame
  else none

/-- The operation a word of any format selects (R140, R145). -/
def decode : Line → Except Reject Instr
  | .cmd w => .ok (decodeCmd w)
  | .bus w => .ok (decodeBus w)
  | .raw w => decodeRaw w
  | .step label operand =>
    match decodeLabel label with
    | some l => .ok (instrOfLabel l operand)
    | none => .error (.reservedLabel label)

/-! ### Encoding -/

/-- A CMD word with bits 31:11 zero (R141). -/
def cmdWord (op key : BitVec 4) (note : BitVec 3) : Word := 0#21 ++ note ++ key ++ op

/-- A BUS word (R143). -/
def busWord (we : BitVec 1) (size : BitVec 2) (offset : BitVec 8) (data : Word) : BitVec 43 := we ++ size ++ offset ++ data

/-- A 32-bit write of `d` at `offset`. -/
def busWrite (offset : BitVec 8) (d : Word) : Line := .bus (busWord 1#1 0b10#2 offset d)

/-- A 32-bit read at `offset`, DATA being ignored by reads and written as 0 (R143). -/
def busRead (offset : BitVec 8) : Line := .bus (busWord 0#1 0b10#2 offset 0#32)

/-- A RAW record with bits 29:20 zero (R155). -/
def rawWord (stamp : Word) (kind : BitVec 2) (index : BitVec 4) (data : BitVec 16) : BitVec 64 :=
  stamp ++ kind ++ 0#10 ++ index ++ data

/-- The offset of KEYMAP[k], 0x40 + 4k (R57). -/
def keymapOffset (key : BitVec 4) : BitVec 8 := 0b01#2 ++ key ++ 0b00#2

/-- The word of an instruction, from the tables of 30_encoding.md and R40; none for the micro-operations, which no encoding
selects (R145). -/
def encode : Instr → Option Line
  | .noteOn key note => some (.cmd (cmdWord 0x1#4 key note))
  | .noteOff key => some (.cmd (cmdWord 0x2#4 key 0#3))
  | .cmdRsvd0 => some (.cmd (cmdWord 0x0#4 0#4 0#3))
  | .cmdRsvd3 => some (.cmd (cmdWord 0x3#4 0#4 0#3))
  | .cmdRsvd47 lo => some (.cmd (cmdWord (0b01#2 ++ lo) 0#4 0#3))
  | .cmdRsvd8F lo => some (.cmd (cmdWord (0b1#1 ++ lo) 0#4 0#3))
  | .wrCmd d => some (busWrite 0x00#8 d)
  | .rdCmd => some (busRead 0x00#8)
  | .wrStatus d => some (busWrite 0x04#8 d)
  | .rdStatus => some (busRead 0x04#8)
  | .wrIrqEn d => some (busWrite 0x08#8 d)
  | .rdIrqEn => some (busRead 0x08#8)
  | .rdEvent => some (busRead 0x0C#8)
  | .wrRoEvent d => some (busWrite 0x0C#8 d)
  | .wrAttack d => some (busWrite 0x10#8 d)
  | .wrDecay d => some (busWrite 0x14#8 d)
  | .wrSustain d => some (busWrite 0x18#8 d)
  | .wrRelease d => some (busWrite 0x1C#8 d)
  | .wrCutoff d => some (busWrite 0x20#8 d)
  | .wrResonance d => some (busWrite 0x24#8 d)
  | .wrVolume d => some (busWrite 0x28#8 d)
  | .wrWave d => some (busWrite 0x2C#8 d)
  | .wrNote d => some (busWrite 0x30#8 d)
  | .wrOctave d => some (busWrite 0x34#8 d)
  | .rdAttack => some (busRead 0x10#8)
  | .rdDecay => some (busRead 0x14#8)
  | .rdSustain => some (busRead 0x18#8)
  | .rdRelease => some (busRead 0x1C#8)
  | .rdCutoff => some (busRead 0x20#8)
  | .rdResonance => some (busRead 0x24#8)
  | .rdVolume => some (busRead 0x28#8)
  | .rdWave => some (busRead 0x2C#8)
  | .rdNote => some (busRead 0x30#8)
  | .rdOctave => some (busRead 0x34#8)
  | .rdVoiceState => some (busRead 0x38#8)
  | .wrRoVoiceState d => some (busWrite 0x38#8 d)
  | .rdTick => some (busRead 0x3C#8)
  | .wrRoTick d => some (busWrite 0x3C#8 d)
  | .wrKeymap key d => some (busWrite (keymapOffset key) d)
  | .rdKeymap key => some (busRead (keymapOffset key))
  | .wrRsvd o d => some (busWrite o d)
  | .rdRsvd o => some (busRead o)
  | .busErrSize8 we o d => some (.bus (busWord we 0b00#2 o d))
  | .busErrSize16 we o d => some (.bus (busWord we 0b01#2 o d))
  | .busErrSizeRsvd we o d => some (.bus (busWord we 0b11#2 o d))
  | .busErrAlignB0 we o d => some (.bus (busWord we 0b10#2 o d))
  | .busErrAlignB1 we o d => some (.bus (busWord we 0b10#2 o d))
  | .encAb stamp index ab => some (.raw (rawWord stamp 0b00#2 index (0#14 ++ ab)))
  | .encBtn stamp index level => some (.raw (rawWord stamp 0b01#2 index (0#15 ++ level)))
  | .keyScan stamp mask => some (.raw (rawWord stamp 0b10#2 0#4 mask))
  | .rawRsvd stamp low => some (.raw (stamp ++ 0b11#2 ++ low))
  | .host access => some (.step 0x0#4 (0#21 ++ access))
  | .capture record => some (.step 0x1#4 (0#32 ++ record))
  | .dmaHt => some (.step 0x2#4 0#64)
  | .dmaTc => some (.step 0x3#4 0#64)
  | .tick => some (.step 0x4#4 0#64)
  | .reset pins => some (.step 0x5#4 (0#32 ++ pins))
  | .decode => some (.step 0x8#4 0#64)
  | .passStart => some (.step 0x9#4 0#64)
  | .frame => some (.step 0xA#4 0#64)
  | .envIdle _ => none
  | .envAttack _ => none
  | .envDecay _ => none
  | .envSustain _ => none
  | .envRelease _ => none
  | .oscTune _ _ => none
  | .oscLookup _ => none
  | .oscAdvance _ => none
  | .voiceSelect => none
  | .genRebase => none
  | .filtUpdate => none
  | .filtProcess _ => none
  | .detentCheck _ _ => none
  | .keyAction _ _ => none

/-! ### The opcode table's numbering -/

/-- The line that `nbits` table bits of value `w` stand for, the format told from the width as R147 tells it: up to 8 bits a STEP
label; up to 32 a CMD word, or the low half of a RAW record where bits 31:30 hold a KIND other than 00 or bits 3:0 are zero; up to
48 a BUS word; up to 64 a RAW record; more a STEP label with its operand above it (log 19). -/
def tableLine (nbits w : Nat) : Line :=
  if nbits ≤ 8 then .step (BitVec.ofNat 4 w) (BitVec.ofNat 64 (w / 16))
  else if nbits ≤ 32 then if w < 2 ^ 30 ∧ w % 16 ≠ 0 then .cmd (BitVec.ofNat 32 w) else .raw (BitVec.ofNat 64 w)
  else if nbits ≤ 48 then .bus (BitVec.ofNat 43 w)
  else if nbits ≤ 64 then .raw (BitVec.ofNat 64 w)
  else .step (BitVec.ofNat 4 w) (BitVec.ofNat 64 (w / 16))

/-- The instruction the decoder reads from a table word (see `tableLine`). -/
def decodeTableWord (nbits w : Nat) : Option Instr :=
  match decode (tableLine nbits w) with
  | .ok i => some i
  | .error _ => none

end Sys2Proof
end

