-- ==== Sys2Proof/Machine/Fetch.lean ====
section
/-! DEFINITION. Which agent's step comes next. Agents interleave freely (R5, R522): the lines of the schedule say which steps come, in
any order the outside chose, and with none left a free draw does (log 1). In the eager mode the internal steps of R172 come first. -/

namespace Sys2Proof.Machine

/-- The internal step the eager schedule takes before the next line: DECODE until RAWQ is empty, then PASS_START and FRAME until
neither is enabled (R172). -/
def eagerChoice (s : State) : Option Instr :=
  if !s.eager then none
  else if decodeEnabled s then some .decode
  else if passStartEnabled s then some .passStart
  else if frameEnabled s then some .frame
  else none

/-- What a fetch finds. -/
inductive Fetched where
  /-- An instruction, and the state past its line. -/
  | run (i : Instr) (s : State)
  /-- A RAW record that matches no row, which the decoder discards (R156), and the state past its line. -/
  | discard (s : State)
  /-- A reserved STEP label (R148, U12). -/
  | reserved (label : BitVec 4)
  deriving DecidableEq, Repr

/-- The step a free draw supplies (R5, R6, log 1). A drawn CAPTURE may bring any low word, one that INPUT never produces among them: the
model's choice (R156, U9, log 26). -/
def drawnInstr (n : Nat) : Instr := instrOfLabel (Config.drawLabel n) (Config.drawOperand n)

/-- The line at the head of the schedule, taken off it and decoded. -/
def fetchLine (l : Line) (s : State) : Fetched :=
  match decode l with
  | .ok i => .run i s
  | .error .rawNoRow => .discard s
  | .error (.reservedLabel b) => .reserved b

/-- The next step. -/
def fetch (s : State) : Fetched :=
  match eagerChoice s with
  | some i => .run i s
  | none =>
    match s.lines with
    | l :: rest => fetchLine l { s with lines := rest }
    | [] => .run (drawnInstr s.drawn) { s with drawn := s.drawn + 1 }

/-- A line placed where the very next fetch takes it, ahead of every other line and of the eager schedule. -/
def placeLine (l : Line) (s : State) : State := { s with lines := l :: s.lines, eager := false }

end Sys2Proof.Machine
end

