-- ==== Sys2Proof/Machine/Step.lean ====
section
/-! DEFINITION. One step of the machine: one atomic step of one agent (R5, R148). -/

namespace Sys2Proof.Machine

/-- The next agent step. A configuration outside R7's ranges and a reserved STEP label are refused (U12, U26-U28); a RAW line
that matches no row is discarded (R156). -/
def step (s : State) : Host.Outcome State Fault Refusal :=
  if s.cfg.legal then
    match fetch s with
    | .run i t => exec i t
    | .discard t => .next t
    | .reserved b => .refused (.reservedLabel b)
  else .refused .illegalConfig

/-- `s` with the table word's line where the next step fetches it (log 1, log 19). -/
def State.withFetchWord (s : State) (nbits w : Nat) : State := placeLine (tableLine nbits w) s

end Sys2Proof.Machine
end

