-- ==== Sys2Proof/Machine/Stimulus.lean ====
section
/-! DEFINITION. The lines of stimulus programs (R170) and the pseudo-instructions (R171), as lines of the schedule. The internal steps
are not written; the eager mode runs them (R172). -/

namespace Sys2Proof.Machine.Stimulus

/-- `WR <offset>, <v>`. -/
def wr (offset : BitVec 8) (v : Word) : Line := busWrite offset v

/-- `RD <offset>`. -/
def rd (offset : BitVec 8) : Line := busRead offset

/-- `WR8 <off>, <v>`. -/
def wr8 (offset : BitVec 8) (v : Word) : Line := .bus (busWord 1#1 0b00#2 offset v)

/-- `WR16 <off>, <v>`. -/
def wr16 (offset : BitVec 8) (v : Word) : Line := .bus (busWord 1#1 0b01#2 offset v)

/-- `RD8 <off>`. -/
def rd8 (offset : BitVec 8) : Line := .bus (busWord 0#1 0b00#2 offset 0#32)

/-- `RD16 <off>`. -/
def rd16 (offset : BitVec 8) : Line := .bus (busWord 0#1 0b01#2 offset 0#32)

/-- A CAPTURE of a record given by its KIND, INDEX and DATA. -/
def captureOf (kind : BitVec 2) (index : BitVec 4) (data : BitVec 16) : Line :=
  .step 0x1#4 (rawWord 0#32 kind index data)

/-- `AB <e>, <ab>`. -/
def ab (e : BitVec 4) (x : BitVec 2) : Line := captureOf 0b00#2 e (0#14 ++ x)

/-- `BTN <e>, <l>`. -/
def btn (e : BitVec 4) (l : BitVec 1) : Line := captureOf 0b01#2 e (0#15 ++ l)

/-- `SCAN <mask>`. -/
def scan (mask : BitVec 16) : Line := captureOf 0b10#2 0#4 mask

/-- `TICK`. -/
def tick : Line := .step 0x4#4 0#64

/-- `HT`. -/
def ht : Line := .step 0x2#4 0#64

/-- `TC`. -/
def tc : Line := .step 0x3#4 0#64

/-- `RESET`, with the encoders' pins. -/
def reset (pins : Word) : Line := .step 0x5#4 (0#32 ++ pins)

/-- `NOTE_ON <k>, <n>`. -/
def noteOn (k : BitVec 4) (n : BitVec 3) : Line := wr 0x00#8 (cmdWord 0x1#4 k n)

/-- `NOTE_ON <k>`, the note taken from NOTE. -/
def noteOnReg (k : BitVec 4) : Line := wr 0x00#8 (cmdWord 0x1#4 k 7#3)

/-- `NOTE_OFF <k>`. -/
def noteOff (k : BitVec 4) : Line := wr 0x00#8 (cmdWord 0x2#4 k 0#3)

/-- `CLR <bit>`. -/
def clr (bit : Nat) : Line := wr 0x04#8 (1#32 <<< bit)

/-- `CW <e>`. -/
def cw (e : BitVec 4) : List Line := [ab e 2#2, ab e 3#2, ab e 1#2, ab e 0#2]

/-- `CCW <e>`. -/
def ccw (e : BitVec 4) : List Line := [ab e 1#2, ab e 3#2, ab e 2#2, ab e 0#2]

/-- `PASS`: HT if the last DMA notification written was TC or none, else TC. -/
def pass (lastWasHt : Bool) : Line := if lastWasHt then tc else ht

end Sys2Proof.Machine.Stimulus
end

