-- ==== Sys2Proof/Safety.lean ====
section
/-! DEFINITION. What counts as a safe run (R503), and the invariant of the core: what holds of every state that a run reaches from a
legal reset, part by part. -/

namespace Sys2Proof.Machine

/-- A faulted state: no claim of the spec is about a run that reaches one (R503). -/
def State.faulted (s : State) : Bool := s.faults.busError || s.faults.deadlineMiss

/-- The least magnitude, in units of 2^-149, that rounds to infinity: half a step above the largest finite binary32 (log 13). -/
def overflowUnits : ℚ := (2 ^ 25 - 1) * 2 ^ 252

/-- `r` is RN of the real that is `q` units of 2^-149 (R10): no finite binary32 lies nearer, of two at the same distance `r` is the
even one, and past the largest finite value it is the infinity of that sign (log 13). -/
structure IsNearest (r : F32) (q : ℚ) : Prop where
  finite  : |q| < overflowUnits → isFinite r = true
  nearest : |q| < overflowUnits → ∀ y : F32, isFinite y = true → |q - fval r| ≤ |q - fval y|
  even    : |q| < overflowUnits → ∀ y : F32, isFinite y = true → fval y ≠ fval r → |q - fval y| = |q - fval r| →
    r.getLsbD 0 = false
  above   : overflowUnits ≤ q → r = 0x7F800000#32
  below   : q ≤ -overflowUnits → r = 0xFF800000#32

/-- A binary32 from +0.0 to 1.0, read off the bit pattern, which orders the values without a sign. -/
abbrev inUnit (x : F32) : Prop := x.toNat ≤ 0x3F800000

/-- A binary32 from +0.0 up, infinity included, no NaN. -/
abbrev notNegative (x : F32) : Prop := x.toNat ≤ 0x7F800000

/-- One voice within the legal values of R32: the level in [0, 1] and +0.0 while Idle (R34, R209), a ramping stage with steps left
(R201), the frequency in [0, FS/2] and the tuning word in 0..2^31 (R242, R243). -/
structure VoiceOk (c : Params) (x : Voice) : Prop where
  level : inUnit x.level
  idle  : x.env = .idle → x.level = fzero
  step  : notNegative x.step
  sus   : inUnit x.sus
  ramp  : x.env = .attack ∨ x.env = .decay ∨ x.env = .release → x.left ≠ 0#32
  left  : x.left.toNat ≤ max 1 (max x.atk.toNat (max x.dec.toNat x.rel.toNat))
  atk   : x.atk.toNat ≤ 200 * c.samplesPerUnit
  dec   : x.dec.toNat ≤ 200 * c.samplesPerUnit
  rel   : x.rel.toNat ≤ 200 * c.samplesPerUnit
  freq  : notNegative x.freq ∧ x.freq.toNat ≤ (nyquist c).toNat
  tw    : x.tw.toNat ≤ 2 ^ 31

/-- The voice pool (R32, R34). -/
structure VoicesOk (s : State) : Prop where
  count : s.voices.length = s.cfg.nVoices
  each  : ∀ x ∈ s.voices, VoiceOk s.cfg x

/-- The generations: nonzero ones are pairwise distinct and below NEXT_GEN, no sounding voice lacks one, and NEXT_GEN fits
(R34, R35, R293). -/
structure GensOk (s : State) : Prop where
  next     : 1 ≤ s.nextGen ∧ s.nextGen ≤ s.cfg.genMax + 1
  slots    : s.keyGen.length = 16
  voices   : ∀ x ∈ s.voices, x.gen < s.nextGen
  keys     : ∀ g ∈ s.keyGen, g < s.nextGen
  sounding : ∀ x ∈ s.voices, x.env ≠ .idle → x.gen ≠ 0
  distinct : s.voices.Pairwise (fun x y => x.gen ≠ 0 → x.gen ≠ y.gen)

/-- The sequencer: `R.j` lies within the half, and is 0 between passes (R31, R366). -/
structure SeqOk (s : State) : Prop where
  inHalf : s.seq.j.toNat < s.cfg.half
  rest   : s.seq.busy = false → s.seq.j = 0#16

/-- A record a command FIFO may hold (R150). -/
abbrev CmdOk (r : Cmd) : Prop :=
  match r.op with
  | .noteOn => r.note.toNat ≤ 6
  | .noteOff => r.note = 0#3

/-- The FIFOs within their depths, CMDQ with legal records only (R39, R150). -/
structure QueuesOk (s : State) : Prop where
  cmdq : s.cmdq.length ≤ s.cfg.cmdqDepth
  evq  : s.evq.length ≤ s.cfg.evqDepth
  rawq : s.rawq.length ≤ s.cfg.rawqDepth
  cmds : ∀ r ∈ s.cmdq, CmdOk r

/-- The parameter registers within their ranges (R45-R54). -/
structure RegsOk (s : State) : Prop where
  attack    : 1 ≤ s.regs.attack.toNat ∧ s.regs.attack.toNat ≤ 200
  decay     : 1 ≤ s.regs.decay.toNat ∧ s.regs.decay.toNat ≤ 200
  sustain   : s.regs.sustain.toNat ≤ 100
  release   : 1 ≤ s.regs.release.toNat ∧ s.regs.release.toNat ≤ 200
  cutoff    : s.regs.cutoff.toNat ≤ 100
  resonance : s.regs.resonance.toNat ≤ 100
  volume    : s.regs.volume.toNat ≤ 100
  note      : s.regs.note.toNat ≤ 6
  octave    : s.cfg.octaveMin ≤ s.regs.octave ∧ s.regs.octave ≤ s.cfg.octaveMax

/-- A legal KEYMAP entry: NONE is 0, NOTE has INDEX 0..6, WAVE has INDEX 0..3, bits 5:3 are 0 (R57). -/
abbrev KeymapEntryOk (m : BitVec 8) : Prop :=
  m = 0#8 ∨ (0x40 ≤ m.toNat ∧ m.toNat ≤ 0x46) ∨ (0x80 ≤ m.toNat ∧ m.toNat ≤ 0x83)

/-- KEYMAP reads back legal in every entry (R57). -/
structure KeymapOk (s : State) : Prop where
  count : s.keymap.length = 16
  each  : ∀ m ∈ s.keymap, KeymapEntryOk m

/-- One key: the integrator within 0..MAX, the stable state pressed at MAX and released at 0 (R38, R431). -/
structure KeyOk (c : Params) (x : Key) : Prop where
  bound : x.integ ≤ c.debounceMax
  top   : x.integ = c.debounceMax → x.stable = true
  zero  : x.integ = 0 → x.stable = false

/-- The keypad (R38). -/
structure KeysOk (s : State) : Prop where
  count : s.keys.length = 16
  each  : ∀ x ∈ s.keys, KeyOk s.cfg x

/-- The encoders: each accumulator strictly between the detent thresholds (R37, R402). -/
structure EncsOk (s : State) : Prop where
  count : s.encs.length = s.cfg.numEnc
  each  : ∀ x ∈ s.encs, -(s.cfg.detentSubsteps : Int) < x.acc.toInt ∧ x.acc.toInt < s.cfg.detentSubsteps

/-- The PCM bytes in their canonical form, every one within the buffer (R62, R100). -/
structure PcmOk (s : State) : Prop where
  form   : Memory.wf s.pcm = true
  within : ∀ c ∈ s.pcm, c.1 < s.cfg.pcmBytes

/-! ### Runs of rows, and who performs a row -/

/-- Rows run one after another, up to the first that does not give a next state. -/
def runInstrs : List Instr → State → StepOutcome
  | [], s => .next s
  | i :: is, s =>
    match exec i s with
    | .next t => runInstrs is t
    | .fault f => .fault f
    | .refused r => .refused r

/-- The agents of R5 and R6 that perform rows. REGS performs the accesses of HOST. -/
inductive Agent where
  | host | input | dma | timer | reset | decoder | renderer
  deriving DecidableEq, Repr

/-- The agent that performs a row (R5, R6, R109, R148). A reserved OP acts in the host's write (R461); a voice command and a
voice's micro-operations act in the renderer (R280, R364). -/
def agentOf : Instr → Agent
  | .noteOn _ _ | .noteOff _ => .renderer
  | .cmdRsvd0 | .cmdRsvd3 | .cmdRsvd47 _ | .cmdRsvd8F _ => .host
  | .wrCmd _ | .rdCmd | .wrStatus _ | .rdStatus | .wrIrqEn _ | .rdIrqEn | .rdEvent | .wrRoEvent _ => .host
  | .wrAttack _ | .wrDecay _ | .wrSustain _ | .wrRelease _ | .wrCutoff _ | .wrResonance _ | .wrVolume _ => .host
  | .wrWave _ | .wrNote _ | .wrOctave _ => .host
  | .rdAttack | .rdDecay | .rdSustain | .rdRelease | .rdCutoff | .rdResonance | .rdVolume | .rdWave | .rdNote => .host
  | .rdOctave | .rdVoiceState | .wrRoVoiceState _ | .rdTick | .wrRoTick _ | .wrKeymap _ _ | .rdKeymap _ => .host
  | .wrRsvd _ _ | .rdRsvd _ => .host
  | .busErrSize8 _ _ _ | .busErrSize16 _ _ _ | .busErrSizeRsvd _ _ _ | .busErrAlignB0 _ _ _ | .busErrAlignB1 _ _ _ => .host
  | .encAb _ _ _ | .encBtn _ _ _ | .keyScan _ _ | .rawRsvd _ _ => .decoder
  | .host _ => .host
  | .capture _ => .input
  | .dmaHt | .dmaTc => .dma
  | .tick => .timer
  | .reset _ => .reset
  | .decode => .decoder
  | .passStart | .frame => .renderer
  | .envIdle _ | .envAttack _ | .envDecay _ | .envSustain _ | .envRelease _ => .renderer
  | .oscTune _ _ | .oscLookup _ | .oscAdvance _ | .voiceSelect | .genRebase | .filtUpdate | .filtProcess _ => .renderer
  | .detentCheck _ _ | .keyAction _ _ => .decoder

/-! ### What a step leaves alone -/

/-- `push(CMDQ, r)` between two states: appended where there is room, else dropped with CMDQ_OVF (R11, R39). -/
def PushedCmd (r : Cmd) (s t : State) : Prop :=
  (s.cmdq.length < s.cfg.cmdqDepth → t.cmdq = s.cmdq ++ [r] ∧ t.sticky = s.sticky) ∧
  (s.cfg.cmdqDepth ≤ s.cmdq.length → t.cmdq = s.cmdq ∧ t.sticky = s.sticky ||| 0b00001#5)

/-- `push(EVQ, r)` between two states: appended where there is room, else dropped with EVQ_OVF (R11, R39). -/
def PushedEvent (r : Event) (s t : State) : Prop :=
  (s.evq.length < s.cfg.evqDepth → t.evq = s.evq ++ [r] ∧ t.sticky = s.sticky) ∧
  (s.cfg.evqDepth ≤ s.evq.length → t.evq = s.evq ∧ t.sticky = s.sticky ||| 0b00100#5)

/-- `push(RAWQ, r)` between two states: appended where there is room, else dropped with RAWQ_OVF (R11, R39). -/
def PushedRaw (r : BitVec 64) (s t : State) : Prop :=
  (s.rawq.length < s.cfg.rawqDepth → t.rawq = s.rawq ++ [r] ∧ t.sticky = s.sticky) ∧
  (s.cfg.rawqDepth ≤ s.rawq.length → t.rawq = s.rawq ∧ t.sticky = s.sticky ||| 0b01000#5)

/-- `t` differs from `s` at most in what a DECODER step may write besides RAWQ: encoders, keypad, EVQ, CMDQ, the sticky bits, NOTE
and WAVE (R109). -/
structure OnlyDecoder (s t : State) : Prop where
  cfg     : t.cfg = s.cfg
  seq     : t.seq = s.seq
  voices  : t.voices = s.voices
  nextGen : t.nextGen = s.nextGen
  keyGen  : t.keyGen = s.keyGen
  filt    : t.filt = s.filt
  rawq    : t.rawq = s.rawq
  irqEn   : t.irqEn = s.irqEn
  regs    : t.regs = { s.regs with note := t.regs.note, wave := t.regs.wave }
  keymap  : t.keymap = s.keymap
  tick    : t.tick = s.tick
  faults  : t.faults = s.faults
  pcm     : t.pcm = s.pcm
  answer  : t.answer = s.answer
  lines   : t.lines = s.lines
  eager   : t.eager = s.eager
  drawn   : t.drawn = s.drawn

/-- `t` differs from `s` at most in the voices and their generations: what a voice command may write (R109, R283, R286). -/
structure OnlyVoices (s t : State) : Prop where
  cfg    : t.cfg = s.cfg
  seq    : t.seq = s.seq
  filt   : t.filt = s.filt
  encs   : t.encs = s.encs
  keys   : t.keys = s.keys
  cmdq   : t.cmdq = s.cmdq
  evq    : t.evq = s.evq
  rawq   : t.rawq = s.rawq
  sticky : t.sticky = s.sticky
  irqEn  : t.irqEn = s.irqEn
  regs   : t.regs = s.regs
  keymap : t.keymap = s.keymap
  tick   : t.tick = s.tick
  faults : t.faults = s.faults
  pcm    : t.pcm = s.pcm
  answer : t.answer = s.answer
  lines  : t.lines = s.lines
  eager  : t.eager = s.eager
  drawn  : t.drawn = s.drawn

/-- Every byte the bus can read is what it was (R100, R102). -/
def SameMemory (s t : State) : Prop := ∀ a : Nat, memRead t a = memRead s a

/-- The frame of an ENV row on voice `v`, whose voice becomes `y`: nothing but that voice, and in it nothing but its state, level, step
and stage counter (R202-R206). -/
def EnvWrites (v : Nat) (x y : Voice) (s t : State) : Prop :=
  t = { s with voices := s.voices.set v y } ∧
  y = { x with env := y.env, level := y.level, step := y.step, left := y.left } ∧ SameMemory s t

/-- The invariant of the core. -/
structure State.Inv (s : State) : Prop where
  cfg    : s.cfg.legal = true
  voices : VoicesOk s
  gens   : GensOk s
  seq    : SeqOk s
  queues : QueuesOk s
  regs   : RegsOk s
  keymap : KeymapOk s
  keys   : KeysOk s
  encs   : EncsOk s
  pcm    : PcmOk s

end Sys2Proof.Machine
end

