-- ==== Sys2Proof/Certificates/Slice0/Obligations.lean ====
section
/-! DEFINITION. The statements for the provers, from the numbered rules of spec/. Each says what a row or a step does in every state that
meets its hypotheses, that the row completes, and what it leaves alone; `answer` is the model's latch of what an access or a
micro-operation gave back (log 6), so that a read's `rdata` is what `answer` then holds. -/

open Sys2Proof Sys2Proof.Machine

/-! ### Encodings and fetching -/

/-- R140-R145, R155: the decoder gives back every well-formed instruction from its word, with every operand. -/
def Obligations.DecodeOfEncode : Prop :=
  ∀ (i : Instr) (l : Line), i.wf = true → encode i = some l → decode l = .ok i

/-- R143: no bit of a BUS word that has a meaning is dropped: the encoder gives the word back, DATA as zero for a read. -/
def Obligations.EncodeOfDecodeBus : Prop :=
  ∀ (we : BitVec 1) (size : BitVec 2) (offset : BitVec 8) (data : Word),
    encode (decodeBus (busWord we size offset data)) =
      some (.bus (busWord we size offset
        (if size = 0b10#2 ∧ offset.extractLsb' 0 2 = 0b00#2 ∧ we = 0#1 then 0#32 else data)))

/-- R145: no encoding selects a micro-operation, and what any word selects is well formed. -/
def Obligations.NoWordSelectsMicro : Prop :=
  (∀ (l : Line) (i : Instr), decode l = .ok i → i.wf = true ∧ ∃ l', encode i = some l') ∧
  (∀ (v n : BitVec 3) (e : BitVec 4) (st : Word) (x : F32) (p : Bool), ∀ i ∈ [Instr.envIdle v, .envAttack v, .envDecay v,
      .envSustain v, .envRelease v, .oscTune v n, .oscLookup v, .oscAdvance v, .voiceSelect, .genRebase, .filtUpdate,
      .filtProcess x, .detentCheck e st, .keyAction e p], encode i = none)

/-- Words written out from the encoding tables of R141, R143, R148 and R155 decode to the operations they stand for. -/
def Obligations.DecodesSpecWords : Prop :=
  decode (.cmd 0x00000551#32) = .ok (.noteOn 5#4 5#3) ∧
  decode (.cmd 0xFFFFF052#32) = .ok (.noteOff 5#4) ∧
  decode (.bus 0x62800000100#43) = .ok (.wrVolume 0x100#32) ∧
  decode (.bus 0x20C00000000#43) = .ok .rdEvent ∧
  decode (.bus 0x66400000047#43) = .ok (.wrKeymap 9#4 0x47#32) ∧
  decode (.bus 0x01000000005#43) = .ok (.busErrSize8 0#1 0x10#8 5#32) ∧
  decode (.raw 0x0000001200010002#64) = .ok (.encAb 0x12#32 1#4 2#2) ∧
  decode (.raw 0x0000000080000020#64) = .ok (.keyScan 0#32 0x20#16) ∧
  decode (.step 0x3#4 0#64) = .ok .dmaTc ∧
  decode (.step 0xA#4 0#64) = .ok .frame

/-- A step runs the instruction that the next line of the schedule decodes to, on the state without that line; a RAW line that matches
no row is discarded (R156); a STEP line with a label of 0x6, 0x7 or 0xB..0xF is refused (R148, U12); with no line, a free draw
supplies the instruction (log 1). What `withFetchWord` places is what the very next step runs. -/
def Obligations.StepRunsDecoded : Prop :=
  (∀ (s : State) (l : Line) (rest : List Line), s.cfg.legal = true → s.eager = false → s.lines = l :: rest →
    (∀ i : Instr, decode l = .ok i → step s = exec i { s with lines := rest }) ∧
    (decode l = .error .rawNoRow → step s = .next { s with lines := rest }) ∧
    (∀ (label : BitVec 4) (operand : BitVec 64), l = .step label operand →
      (label = 0x6#4 ∨ label = 0x7#4 ∨ 0xB ≤ label.toNat → step s = .refused (.reservedLabel label)) ∧
      (¬ (label = 0x6#4 ∨ label = 0x7#4 ∨ 0xB ≤ label.toNat) → ∃ i : Instr, decode l = .ok i))) ∧
  (∀ s : State, s.cfg.legal = true → s.eager = false → s.lines = [] →
    step s = exec (drawnInstr s.drawn) { s with drawn := s.drawn + 1 }) ∧
  (∀ (s : State) (nbits w : Nat) (i : Instr), s.cfg.legal = true → decodeTableWord nbits w = some i →
    step (s.withFetchWord nbits w) = exec i { s with eager := false })

/-- R172: in the eager schedule DECODE runs until RAWQ is empty, then PASS_START and FRAME until neither is enabled; only then the
next line. -/
def Obligations.EagerSchedule : Prop :=
  ∀ s : State, s.cfg.legal = true → s.eager = true →
    (s.rawq ≠ [] → step s = exec .decode s) ∧
    (s.rawq = [] → s.seq.busy = false → notify s.seq.nextHalf s.seq = true → step s = exec .passStart s) ∧
    (s.rawq = [] → s.seq.busy = true → step s = exec .frame s) ∧
    (∀ l rest i, s.rawq = [] → s.seq.busy = false → notify s.seq.nextHalf s.seq = false → s.lines = l :: rest →
      decode l = .ok i → step s = exec i { s with lines := rest })

/-! ### Host accesses -/

/-- R460: a HOST step completes, and does what the row its BUS word selects does: a bus error for a wrong SIZE or a misaligned
OFFSET, else the write or read rule of the register at OFFSET. -/
def Obligations.HostRunsItsRow : Prop :=
  ∀ (w : BitVec 43) (s : State), exec (.host w) s = exec (decodeBus w) s ∧ ∃ t, exec (.host w) s = .next t

/-- R40, R145: what each offset selects, for writes and for reads. -/
def Obligations.RegisterMap : Prop :=
  ∀ (d : Word) (k : BitVec 4),
    decodeBus (busWord 1#1 0b10#2 0x00#8 d) = .wrCmd d ∧ decodeBus (busWord 0#1 0b10#2 0x00#8 d) = .rdCmd ∧
    decodeBus (busWord 1#1 0b10#2 0x04#8 d) = .wrStatus d ∧ decodeBus (busWord 0#1 0b10#2 0x04#8 d) = .rdStatus ∧
    decodeBus (busWord 1#1 0b10#2 0x08#8 d) = .wrIrqEn d ∧ decodeBus (busWord 0#1 0b10#2 0x08#8 d) = .rdIrqEn ∧
    decodeBus (busWord 1#1 0b10#2 0x0C#8 d) = .wrRoEvent d ∧ decodeBus (busWord 0#1 0b10#2 0x0C#8 d) = .rdEvent ∧
    decodeBus (busWord 1#1 0b10#2 0x10#8 d) = .wrAttack d ∧ decodeBus (busWord 0#1 0b10#2 0x10#8 d) = .rdAttack ∧
    decodeBus (busWord 1#1 0b10#2 0x14#8 d) = .wrDecay d ∧ decodeBus (busWord 0#1 0b10#2 0x14#8 d) = .rdDecay ∧
    decodeBus (busWord 1#1 0b10#2 0x18#8 d) = .wrSustain d ∧ decodeBus (busWord 0#1 0b10#2 0x18#8 d) = .rdSustain ∧
    decodeBus (busWord 1#1 0b10#2 0x1C#8 d) = .wrRelease d ∧ decodeBus (busWord 0#1 0b10#2 0x1C#8 d) = .rdRelease ∧
    decodeBus (busWord 1#1 0b10#2 0x20#8 d) = .wrCutoff d ∧ decodeBus (busWord 0#1 0b10#2 0x20#8 d) = .rdCutoff ∧
    decodeBus (busWord 1#1 0b10#2 0x24#8 d) = .wrResonance d ∧ decodeBus (busWord 0#1 0b10#2 0x24#8 d) = .rdResonance ∧
    decodeBus (busWord 1#1 0b10#2 0x28#8 d) = .wrVolume d ∧ decodeBus (busWord 0#1 0b10#2 0x28#8 d) = .rdVolume ∧
    decodeBus (busWord 1#1 0b10#2 0x2C#8 d) = .wrWave d ∧ decodeBus (busWord 0#1 0b10#2 0x2C#8 d) = .rdWave ∧
    decodeBus (busWord 1#1 0b10#2 0x30#8 d) = .wrNote d ∧ decodeBus (busWord 0#1 0b10#2 0x30#8 d) = .rdNote ∧
    decodeBus (busWord 1#1 0b10#2 0x34#8 d) = .wrOctave d ∧ decodeBus (busWord 0#1 0b10#2 0x34#8 d) = .rdOctave ∧
    decodeBus (busWord 1#1 0b10#2 0x38#8 d) = .wrRoVoiceState d ∧ decodeBus (busWord 0#1 0b10#2 0x38#8 d) = .rdVoiceState ∧
    decodeBus (busWord 1#1 0b10#2 0x3C#8 d) = .wrRoTick d ∧ decodeBus (busWord 0#1 0b10#2 0x3C#8 d) = .rdTick ∧
    decodeBus (busWord 1#1 0b10#2 (BitVec.ofNat 8 (0x40 + 4 * k.toNat)) d) = .wrKeymap k d ∧
    decodeBus (busWord 0#1 0b10#2 (BitVec.ofNat 8 (0x40 + 4 * k.toNat)) d) = .rdKeymap k ∧
    (∀ o : BitVec 8, 0x80 ≤ o.toNat → o.toNat % 4 = 0 →
      decodeBus (busWord 1#1 0b10#2 o d) = .wrRsvd o d ∧ decodeBus (busWord 0#1 0b10#2 o d) = .rdRsvd o)

/-- R464, R470-R473, R476-R479: a parameter write takes the whole word, clamps it to the register's range and stores it; nothing else
changes. OCTAVE takes the word as an i32. -/
def Obligations.WriteParameter : Prop :=
  ∀ (d : Word) (s : State),
    (∃ t, exec (.wrAttack d) s = .next t ∧ t.regs.attack.toNat = min (max d.toNat 1) 200 ∧
      t = { s with regs := { s.regs with attack := t.regs.attack }, answer := t.answer } ∧ SameMemory s t) ∧
    (∃ t, exec (.wrDecay d) s = .next t ∧ t.regs.decay.toNat = min (max d.toNat 1) 200 ∧
      t = { s with regs := { s.regs with decay := t.regs.decay }, answer := t.answer } ∧ SameMemory s t) ∧
    (∃ t, exec (.wrSustain d) s = .next t ∧ t.regs.sustain.toNat = min d.toNat 100 ∧
      t = { s with regs := { s.regs with sustain := t.regs.sustain }, answer := t.answer } ∧ SameMemory s t) ∧
    (∃ t, exec (.wrRelease d) s = .next t ∧ t.regs.release.toNat = min (max d.toNat 1) 200 ∧
      t = { s with regs := { s.regs with release := t.regs.release }, answer := t.answer } ∧ SameMemory s t) ∧
    (∃ t, exec (.wrVolume d) s = .next t ∧ t.regs.volume.toNat = min d.toNat 100 ∧
      t = { s with regs := { s.regs with volume := t.regs.volume }, answer := t.answer } ∧ SameMemory s t) ∧
    (∃ t, exec (.wrWave d) s = .next t ∧ t.regs.wave.toNat = min d.toNat 3 ∧
      t = { s with regs := { s.regs with wave := t.regs.wave }, answer := t.answer } ∧ SameMemory s t) ∧
    (∃ t, exec (.wrNote d) s = .next t ∧ t.regs.note.toNat = min d.toNat 6 ∧
      t = { s with regs := { s.regs with note := t.regs.note }, answer := t.answer } ∧ SameMemory s t) ∧
    (∃ t, exec (.wrOctave d) s = .next t ∧ t.regs.octave = min (max d.toInt s.cfg.octaveMin) s.cfg.octaveMax ∧
      t = { s with regs := { s.regs with octave := t.regs.octave }, answer := t.answer } ∧ SameMemory s t)

/-- R474, R475: CUTOFF and RESONANCE set `F.dirty` too, whatever the value. -/
def Obligations.WriteFilterParameter : Prop :=
  ∀ (d : Word) (s : State),
    (∃ t, exec (.wrCutoff d) s = .next t ∧ t.regs.cutoff.toNat = min (max d.toNat 0) 100 ∧
      t = { s with regs := { s.regs with cutoff := t.regs.cutoff }, filt := { s.filt with dirty := true }, answer := t.answer } ∧
      SameMemory s t) ∧
    (∃ t, exec (.wrResonance d) s = .next t ∧ t.regs.resonance.toNat = min (max d.toNat 0) 100 ∧
      t = { s with regs := { s.regs with resonance := t.regs.resonance }, filt := { s.filt with dirty := true },
                   answer := t.answer } ∧
      SameMemory s t)

/-- R462, R465: a write of STATUS clears exactly the sticky bits written as 1, and leaves FAULTS; a read gives the sticky bits and the
live views at their places, zeros elsewhere, and changes nothing. -/
def Obligations.StatusRegister : Prop :=
  (∀ (d : Word) (s : State), ∃ t, exec (.wrStatus d) s = .next t ∧
    (∀ n < 5, t.sticky.getLsbD n = (s.sticky.getLsbD n && !d.getLsbD n)) ∧
    t = { s with sticky := t.sticky, answer := t.answer } ∧ SameMemory s t) ∧
  (∀ s : State, ∃ w : Word, exec .rdStatus s = .next { s with answer := .rdata w } ∧
    w.getLsbD 11 = s.filt.dirty ∧ w.getLsbD 10 = s.seq.busy ∧ w.getLsbD 9 = decide (s.evq ≠ []) ∧
    w.getLsbD 8 = decide (s.cmdq = []) ∧ (∀ n < 5, w.getLsbD n = s.sticky.getLsbD n) ∧
    (∀ n, (5 ≤ n ∧ n < 8) ∨ 12 ≤ n → w.getLsbD n = false))

/-- R469, R510: IRQ_EN takes and gives its two bits; the interrupt line is a function of the state: EV_IE with a waiting event, or
ERR_IE with a sticky bit. -/
def Obligations.Interrupts : Prop :=
  (∀ (d : Word) (s : State), ∃ t, exec (.wrIrqEn d) s = .next t ∧ (∀ n < 2, t.irqEn.getLsbD n = d.getLsbD n) ∧
    t = { s with irqEn := t.irqEn, answer := t.answer } ∧ SameMemory s t) ∧
  (∀ s : State, ∃ w : Word, exec .rdIrqEn s = .next { s with answer := .rdata w } ∧ w.toNat = s.irqEn.toNat) ∧
  (∀ s : State, irq s = true ↔ (s.irqEn.getLsbD 0 = true ∧ s.evq ≠ []) ∨ (s.irqEn.getLsbD 1 = true ∧ s.sticky ≠ 0#5))

/-- R463 and the word of R160: a read of EVENT pops the oldest record and gives it with VALID set; an empty EVQ reads 0. -/
def Obligations.ReadEvent : Prop :=
  (∀ s : State, s.evq = [] → exec .rdEvent s = .next { s with answer := .rdata 0#32 }) ∧
  (∀ (s : State) (e : Event) (rest : List Event), s.evq = e :: rest →
    ∃ w : Word, exec .rdEvent s = .next { s with evq := rest, answer := .rdata w } ∧
      w.getLsbD 31 = true ∧ w.extractLsb' 23 8 = 0#8 ∧ w.getLsbD 22 = e.value ∧
      w.extractLsb' 20 2 = (match e.type with | .detent => 0b00#2 | .encButton => 0b01#2 | .key => 0b10#2) ∧
      w.extractLsb' 16 4 = e.index ∧ w.extractLsb' 0 16 = e.stamp)

/-- R480, R481: each parameter register reads as it stands, zero-extended, OCTAVE sign-extended; VOICE_STATE shows the code of voice v
(R33) in bits 3v+2:3v and zeros above the pool; a read changes nothing. -/
def Obligations.ReadParameter : Prop :=
  ∀ s : State,
    (∃ w : Word, exec .rdAttack s = .next { s with answer := .rdata w } ∧ w.toNat = s.regs.attack.toNat) ∧
    (∃ w : Word, exec .rdDecay s = .next { s with answer := .rdata w } ∧ w.toNat = s.regs.decay.toNat) ∧
    (∃ w : Word, exec .rdSustain s = .next { s with answer := .rdata w } ∧ w.toNat = s.regs.sustain.toNat) ∧
    (∃ w : Word, exec .rdRelease s = .next { s with answer := .rdata w } ∧ w.toNat = s.regs.release.toNat) ∧
    (∃ w : Word, exec .rdCutoff s = .next { s with answer := .rdata w } ∧ w.toNat = s.regs.cutoff.toNat) ∧
    (∃ w : Word, exec .rdResonance s = .next { s with answer := .rdata w } ∧ w.toNat = s.regs.resonance.toNat) ∧
    (∃ w : Word, exec .rdVolume s = .next { s with answer := .rdata w } ∧ w.toNat = s.regs.volume.toNat) ∧
    (∃ w : Word, exec .rdWave s = .next { s with answer := .rdata w } ∧ w.toNat = s.regs.wave.toNat) ∧
    (∃ w : Word, exec .rdNote s = .next { s with answer := .rdata w } ∧ w.toNat = s.regs.note.toNat) ∧
    (-2 ^ 31 ≤ s.regs.octave → s.regs.octave < 2 ^ 31 →
      ∃ w : Word, exec .rdOctave s = .next { s with answer := .rdata w } ∧ w.toInt = s.regs.octave) ∧
    (s.voices.length ≤ 8 → ∃ w : Word, exec .rdVoiceState s = .next { s with answer := .rdata w } ∧
      (∀ (v : Nat) (x : Voice), s.voices[v]? = some x → (w.extractLsb' (3 * v) 3).toNat =
        match x.env with | .idle => 0 | .attack => 1 | .decay => 2 | .sustain => 3 | .release => 4) ∧
      (∀ n, 3 * s.voices.length ≤ n → w.getLsbD n = false))

/-- R520, R482: TICK counts modulo 2^32 and nothing else changes; a read gives it. -/
def Obligations.TickCounts : Prop :=
  ∀ s : State,
    (∃ t, exec .tick s = .next t ∧ t.tick.toNat = (s.tick.toNat + 1) % 2 ^ 32 ∧ t = { s with tick := t.tick } ∧ SameMemory s t) ∧
    exec .rdTick s = .next { s with answer := .rdata s.tick }

/-- R466, R467: what a KEYMAP write stores, entry by entry of the rule, and the read. -/
def Obligations.KeymapAccess : Prop :=
  ∀ (k : BitVec 4) (d : Word) (s : State),
    (∃ m : BitVec 8, exec (.wrKeymap k d) s = .next { s with keymap := s.keymap.set k.toNat m, answer := .written } ∧
      (d.extractLsb' 6 2 = 0b01#2 → m.toNat = 0x40 + min (d.extractLsb' 0 3).toNat 6) ∧
      (d.extractLsb' 6 2 = 0b10#2 → m.toNat = 0x80 + min (d.extractLsb' 0 3).toNat 3) ∧
      (d.extractLsb' 6 2 = 0b00#2 ∨ d.extractLsb' 6 2 = 0b11#2 → m.toNat = 0)) ∧
    (∀ m : BitVec 8, s.keymap[k.toNat]? = some m →
      ∃ w : Word, exec (.rdKeymap k) s = .next { s with answer := .rdata w } ∧ w.toNat = m.toNat)

/-- R483-R485: CMD and the reserved offsets read 0, writes of EVENT, VOICE_STATE, TICK and of reserved offsets change nothing. -/
def Obligations.IgnoredAccesses : Prop :=
  ∀ (d : Word) (o : BitVec 8) (s : State),
    exec .rdCmd s = .next { s with answer := .rdata 0#32 } ∧
    exec (.rdRsvd o) s = .next { s with answer := .rdata 0#32 } ∧
    ∀ i ∈ [Instr.wrRoEvent d, .wrRoVoiceState d, .wrRoTick d, .wrRsvd o d],
      ∃ t, exec i s = .next t ∧ t = { s with answer := t.answer } ∧ SameMemory s t

/-- R468: each bus-error row, and each BUS word with SIZE other than 10 or OFFSET[1:0] other than 00: the error response with
`rdata` 0, the fault BusError, and no core state. -/
def Obligations.BusErrors : Prop :=
  ∀ (we : BitVec 1) (size : BitVec 2) (o : BitVec 8) (d : Word) (s : State),
    (∀ i ∈ [Instr.busErrSize8 we o d, .busErrSize16 we o d, .busErrSizeRsvd we o d, .busErrAlignB0 we o d,
        .busErrAlignB1 we o d],
      ∃ t, exec i s = .next t ∧ t = { s with faults := { s.faults with busError := true }, answer := .busError 0x00000000#32 } ∧
        SameMemory s t) ∧
    (size ≠ 0b10#2 ∨ o.extractLsb' 0 2 ≠ 0b00#2 →
      exec (.host (busWord we size o d)) s =
        .next { s with faults := { s.faults with busError := true }, answer := .busError 0x00000000#32 })

/-- R461: a write of CMD pushes the command its word names, the NOTE register standing in for field 7, or sets CMD_ERR. -/
def Obligations.WriteCmd : Prop :=
  ∀ (d : Word) (s : State), ∃ t, exec (.wrCmd d) s = .next t ∧
    (d.extractLsb' 0 4 = 0x1#4 →
      PushedCmd ⟨.noteOn, d.extractLsb' 4 4, if (d.extractLsb' 8 3).toNat ≤ 6 then d.extractLsb' 8 3 else s.regs.note⟩ s t) ∧
    (d.extractLsb' 0 4 = 0x2#4 → PushedCmd ⟨.noteOff, d.extractLsb' 4 4, 0#3⟩ s t) ∧
    (d.extractLsb' 0 4 ≠ 0x1#4 → d.extractLsb' 0 4 ≠ 0x2#4 → t.cmdq = s.cmdq ∧ t.sticky = s.sticky ||| 0b00010#5) ∧
    t = { s with cmdq := t.cmdq, sticky := t.sticky, answer := t.answer } ∧ SameMemory s t

/-- R146: the rows of the reserved OPs, which the decoder gives for exactly those OPs, set CMD_ERR and nothing else changes. -/
def Obligations.ReservedCommands : Prop :=
  (∀ (lo2 : BitVec 2) (lo3 : BitVec 3) (s : State),
    ∀ i ∈ [Instr.cmdRsvd0, .cmdRsvd3, .cmdRsvd47 lo2, .cmdRsvd8F lo3],
      ∃ t, exec i s = .next t ∧ t = { s with sticky := s.sticky ||| 0b00010#5 } ∧ SameMemory s t) ∧
  (∀ w : Word, w.extractLsb' 0 4 ≠ 0x1#4 → w.extractLsb' 0 4 ≠ 0x2#4 →
    ∃ (lo2 : BitVec 2) (lo3 : BitVec 3), decodeCmd w ∈ [Instr.cmdRsvd0, .cmdRsvd3, .cmdRsvd47 lo2, .cmdRsvd8F lo3])

/-! ### Input -/

/-- R400, CAPTURE: the record, stamped with TICK, is pushed, or dropped with RAWQ_OVF. That this holds too of a low word which INPUT never
forms (KIND 11, nonzero bits 29:20 or unused DATA), so that such a record takes a slot or sets RAWQ_OVF, is the model's choice
(log 26). -/
def Obligations.CaptureRecord : Prop :=
  ∀ (record : Word) (s : State), ∃ t r, exec (.capture record) s = .next t ∧
    r.extractLsb' 32 32 = s.tick ∧ r.extractLsb' 0 32 = record ∧ PushedRaw r s t ∧
    t = { s with rawq := t.rawq, sticky := t.sticky } ∧ SameMemory s t

/-- R400, DECODE, and R156: the oldest record leaves RAWQ and its row runs; a record of KIND 11, or with a nonzero bit among 29:20, is
discarded. -/
def Obligations.DecodeRunsRecord : Prop :=
  ∀ (r : BitVec 64) (rest : List (BitVec 64)) (s : State), s.rawq = r :: rest →
    (∃ t, exec .decode s = .next t) ∧
    (r.extractLsb' 30 2 = 0b11#2 ∨ r.extractLsb' 20 10 ≠ 0#10 → exec .decode s = .next { s with rawq := rest }) ∧
    (r.extractLsb' 20 10 = 0#10 →
      (r.extractLsb' 30 2 = 0b00#2 → exec .decode s =
        exec (.encAb (r.extractLsb' 32 32) (r.extractLsb' 16 4) (r.extractLsb' 0 2)) { s with rawq := rest }) ∧
      (r.extractLsb' 30 2 = 0b01#2 → exec .decode s =
        exec (.encBtn (r.extractLsb' 32 32) (r.extractLsb' 16 4) (r.extractLsb' 0 1)) { s with rawq := rest }) ∧
      (r.extractLsb' 30 2 = 0b10#2 → exec .decode s =
        exec (.keyScan (r.extractLsb' 32 32) (r.extractLsb' 0 16)) { s with rawq := rest })) ∧
    (∀ (st : Word) (low : BitVec 30) (u : State), exec (.rawRsvd st low) u = .next u)

/-- R401 with R402: one sample of an encoder, from an accumulator within its invariant (R37): `prev` takes the sample, the sub-step is
added, and a threshold reached pushes a detent and restarts the accumulator from 0; no such encoder, no effect. -/
def Obligations.EncoderSample : Prop :=
  (∀ p : BitVec 2, qtab p p = 0 ∧ qtab p (~~~p) = 0) ∧
  (qtab 0b00#2 0b10#2 = 1 ∧ qtab 0b10#2 0b11#2 = 1 ∧ qtab 0b11#2 0b01#2 = 1 ∧ qtab 0b01#2 0b00#2 = 1 ∧
    qtab 0b00#2 0b01#2 = -1 ∧ qtab 0b01#2 0b11#2 = -1 ∧ qtab 0b11#2 0b10#2 = -1 ∧ qtab 0b10#2 0b00#2 = -1) ∧
  (∀ (st : Word) (e : BitVec 4) (ab : BitVec 2) (s : State), s.encs.length ≤ e.toNat → exec (.encAb st e ab) s = .next s) ∧
  (∀ (st : Word) (e : BitVec 4) (ab : BitVec 2) (s : State) (x : Encoder) (a : Int), s.cfg.legal = true →
    s.encs[e.toNat]? = some x → -(s.cfg.detentSubsteps : Int) < x.acc.toInt → x.acc.toInt < s.cfg.detentSubsteps →
    a = x.acc.toInt + qtab x.prev ab →
    ∃ t y, exec (.encAb st e ab) s = .next t ∧ t.encs = s.encs.set e.toNat y ∧ y.prev = ab ∧ y.blvl = x.blvl ∧
      y.btick = x.btick ∧
      ((s.cfg.detentSubsteps : Int) ≤ a → y.acc = 0#8 ∧ PushedEvent ⟨.detent, e, true, st.extractLsb' 0 16⟩ s t) ∧
      (a ≤ -(s.cfg.detentSubsteps : Int) → y.acc = 0#8 ∧ PushedEvent ⟨.detent, e, false, st.extractLsb' 0 16⟩ s t) ∧
      (-(s.cfg.detentSubsteps : Int) < a → a < s.cfg.detentSubsteps →
        y.acc.toInt = a ∧ t.evq = s.evq ∧ t.sticky = s.sticky) ∧
      t = { s with encs := t.encs, evq := t.evq, sticky := t.sticky } ∧ SameMemory s t)

/-- R402: DETENT_CHECK alone. That it changes nothing for an encoder which the core does not have, a case R402 does not give, is the
model's choice (log 5). -/
def Obligations.DetentCheck : Prop :=
  (∀ (e : BitVec 4) (st : Word) (s : State), s.encs.length ≤ e.toNat → exec (.detentCheck e st) s = .next s) ∧
  (∀ (e : BitVec 4) (st : Word) (s : State) (x : Encoder), s.cfg.legal = true → s.encs[e.toNat]? = some x →
    ∃ t, exec (.detentCheck e st) s = .next t ∧
      ((s.cfg.detentSubsteps : Int) ≤ x.acc.toInt →
        t.encs = s.encs.set e.toNat { x with acc := 0#8 } ∧ PushedEvent ⟨.detent, e, true, st.extractLsb' 0 16⟩ s t) ∧
      (x.acc.toInt ≤ -(s.cfg.detentSubsteps : Int) →
        t.encs = s.encs.set e.toNat { x with acc := 0#8 } ∧ PushedEvent ⟨.detent, e, false, st.extractLsb' 0 16⟩ s t) ∧
      (-(s.cfg.detentSubsteps : Int) < x.acc.toInt → x.acc.toInt < s.cfg.detentSubsteps → t = s) ∧
      t = { s with encs := t.encs, evq := t.evq, sticky := t.sticky } ∧ SameMemory s t)

/-- R404, property 2: from prev = 00 and acc = 0 with T = 4, the clean clockwise cycle pushes one DETENT +1, at its last record, and
leaves prev = 00 and acc = 0. -/
def Obligations.CleanCycle : Prop :=
  ∀ (s : State) (e : BitVec 4) (x : Encoder) (st1 st2 st3 st4 : Word), s.cfg.detentSubsteps = 4 →
    s.encs[e.toNat]? = some x → x.prev = 0b00#2 → x.acc = 0#8 → s.evq.length < s.cfg.evqDepth →
    runInstrs [.encAb st1 e 0b10#2, .encAb st2 e 0b11#2, .encAb st3 e 0b01#2] s =
        .next { s with encs := s.encs.set e.toNat { x with prev := 0b01#2, acc := 3#8 } } ∧
    runInstrs [.encAb st1 e 0b10#2, .encAb st2 e 0b11#2, .encAb st3 e 0b01#2, .encAb st4 e 0b00#2] s =
        .next { s with evq := s.evq ++ [⟨.detent, e, true, st4.extractLsb' 0 16⟩] }

/-- R410: a button change is taken only after the lockout, stamps compared modulo 2^32; any other record is ignored. -/
def Obligations.EncoderButton : Prop :=
  ∀ (st : Word) (e : BitVec 4) (l : BitVec 1) (s : State),
    (s.encs.length ≤ e.toNat → exec (.encBtn st e l) s = .next s) ∧
    (∀ x, s.encs[e.toNat]? = some x →
      (decide (l = 1#1) ≠ x.blvl →
        s.cfg.btnDebounceTicks ≤ ((st.toNat : Int) - x.btick.toNat) % 2 ^ 32 →
        ∃ t, exec (.encBtn st e l) s = .next t ∧
          t.encs = s.encs.set e.toNat { x with blvl := decide (l = 1#1), btick := st } ∧
          PushedEvent ⟨.encButton, e, decide (l = 1#1), st.extractLsb' 0 16⟩ s t ∧
          t = { s with encs := t.encs, evq := t.evq, sticky := t.sticky } ∧ SameMemory s t) ∧
      (decide (l = 1#1) = x.blvl ∨ ((st.toNat : Int) - x.btick.toNat) % 2 ^ 32 < s.cfg.btnDebounceTicks →
        exec (.encBtn st e l) s = .next s))

/-- R431: what a scan leaves in each key: the integrator up by one to MAX where the mask bit is set, down by one to 0 where it is
not; the stable bit set at MAX while pressed, cleared at 0 while not, else kept; and what a scan leaves alone. -/
def Obligations.ScanIntegrates : Prop :=
  ∀ (st : Word) (mask : BitVec 16) (s : State),
    ∃ t, exec (.keyScan st mask) s = .next t ∧ t.keys.length = s.keys.length ∧
      (∀ k x, k < 16 → s.keys[k]? = some x → ∃ y, t.keys[k]? = some y ∧
        (mask.getLsbD k = true →
          y.integ = (if x.integ < s.cfg.debounceMax then x.integ + 1 else x.integ) ∧
          y.stable = (x.stable || decide (y.integ = s.cfg.debounceMax))) ∧
        (mask.getLsbD k = false →
          y.integ = x.integ - 1 ∧ y.stable = (x.stable && decide (y.integ ≠ 0)))) ∧
      OnlyDecoder s t ∧ t.encs = s.encs ∧ SameMemory s t

/-- R432, R433: a scan is its integrators, then one KEY_EDGE for each key whose stable bit changed, in ascending key order; KEY_EDGE
pushes the event, then performs KEY_ACTION, whether or not the event found room. Where EVQ has room for them all, the host gets
every edge. -/
def Obligations.ScanReportsEdges : Prop :=
  (∀ (k : BitVec 4) (p : Bool) (st : Word) (s : State),
    ∃ u, PushedEvent ⟨.key, k, p, st.extractLsb' 0 16⟩ s u ∧ u = { s with evq := u.evq, sticky := u.sticky } ∧
      exec (.keyAction k p) u = .next (keyEdge k p st s)) ∧
  (∀ (st : Word) (mask : BitVec 16) (s t : State), s.cfg.legal = true → exec (.keyScan st mask) s = .next t →
    t = (List.range 16).foldl (fun u k =>
      match s.keys[k]?, t.keys[k]? with
      | some x, some y => if x.stable = y.stable then u else keyEdge (BitVec.ofNat 4 k) y.stable st u
      | _, _ => u) { s with keys := t.keys } ∧
    (s.evq.length + 16 ≤ s.cfg.evqDepth → t.evq = s.evq ++ (List.range 16).flatMap (fun k =>
      match s.keys[k]?, t.keys[k]? with
      | some x, some y =>
        if x.stable = y.stable then [] else [⟨.key, BitVec.ofNat 4 k, y.stable, st.extractLsb' 0 16⟩]
      | _, _ => [])))

/-- R441, properties 1 and 2: from 0 and released, the key turns pressed at exactly the MAX-th pressed scan; from MAX and pressed, it
turns released at exactly the MAX-th released one. -/
def Obligations.DebounceExact : Prop :=
  ∀ (s : State) (k : Nat) (scans : List (Word × BitVec 16)), s.cfg.legal = true → k < 16 →
    (s.keys[k]? = some ⟨0, false⟩ → (∀ p ∈ scans, p.2.getLsbD k = true) →
      ∃ t, runInstrs (scans.map (fun p => .keyScan p.1 p.2)) s = .next t ∧
        t.keys[k]? = some ⟨min scans.length s.cfg.debounceMax, decide (s.cfg.debounceMax ≤ scans.length)⟩) ∧
    (s.keys[k]? = some ⟨s.cfg.debounceMax, true⟩ → (∀ p ∈ scans, p.2.getLsbD k = false) →
      ∃ t, runInstrs (scans.map (fun p => .keyScan p.1 p.2)) s = .next t ∧
        t.keys[k]? = some ⟨s.cfg.debounceMax - scans.length, decide (scans.length < s.cfg.debounceMax)⟩)

/-- R440: the action of a key, by the KIND of its KEYMAP entry. -/
def Obligations.KeyActions : Prop :=
  ∀ (k : BitVec 4) (s : State) (m : BitVec 8), s.keymap[k.toNat]? = some m →
    (m.extractLsb' 6 2 = 0b01#2 →
      (∃ t, exec (.keyAction k true) s = .next t ∧ PushedCmd ⟨.noteOn, k, m.extractLsb' 0 3⟩ s t ∧
        t = { s with regs := { s.regs with note := m.extractLsb' 0 3 }, cmdq := t.cmdq, sticky := t.sticky } ∧
        SameMemory s t) ∧
      (∃ t, exec (.keyAction k false) s = .next t ∧ PushedCmd ⟨.noteOff, k, 0#3⟩ s t ∧
        t = { s with cmdq := t.cmdq, sticky := t.sticky } ∧ SameMemory s t)) ∧
    (m.extractLsb' 6 2 = 0b10#2 →
      exec (.keyAction k true) s = .next { s with regs := { s.regs with wave := m.extractLsb' 0 2 } } ∧
      exec (.keyAction k false) s = .next s) ∧
    (m.extractLsb' 6 2 = 0b00#2 → ∀ p, exec (.keyAction k p) s = .next s)

/-! ### The renderer -/

/-- R361: a notification sets its bit, and on any of the three miss conditions DEADLINE_MISS and the fault too. -/
def Obligations.DmaNotify : Prop :=
  ∀ (s : State) (h : BitVec 1), ∃ t, exec (if h = 0#1 then .dmaHt else .dmaTc) s = .next t ∧
    notify h t.seq = true ∧ notify (~~~h) t.seq = notify (~~~h) s.seq ∧
    t.seq = { s.seq with notify0 := t.seq.notify0, notify1 := t.seq.notify1 } ∧
    (notify h s.seq = true ∨ notify (~~~h) s.seq = true ∨ (s.seq.busy = true ∧ s.seq.cur = ~~~h) →
      t.sticky = s.sticky ||| 0b10000#5 ∧ t.faults = { s.faults with deadlineMiss := true }) ∧
    (¬ (notify h s.seq = true ∨ notify (~~~h) s.seq = true ∨ (s.seq.busy = true ∧ s.seq.cur = ~~~h)) →
      t.sticky = s.sticky ∧ t.faults = s.faults) ∧
    t = { s with seq := t.seq, sticky := t.sticky, faults := t.faults } ∧ SameMemory s t

/-- R332: FILT_UPDATE loads the coefficients of the settings held now, where `F.dirty` is set, and keeps the history. R330
maps every setting to its cutoff and Q in exact rationals. That the coefficients are the row which the configuration's ROM lists for
the setting, and without one those of the model's `biquadCoef` at that cutoff and Q, is the model's reading of R331 (log 14). -/
def Obligations.FiltUpdate : Prop :=
  (∀ (c : Params) (cutoff resonance : Nat) (fc q : Frac), c.legal = true → fc = filterFc c cutoff → q = filterQ c resonance →
    0 < fc.den ∧ (fc.num : ℚ) / fc.den = min (max ((cutoff : ℚ) * ((c.cutoffHz.num : ℚ) / c.cutoffHz.den)) 1)
      ((c.nyqFrac.num : ℚ) / c.nyqFrac.den * c.fs / 2) ∧
    0 < q.den ∧ (q.num : ℚ) / q.den =
      max ((c.qBase.num : ℚ) / c.qBase.den + (resonance : ℚ) * ((c.qStep.num : ℚ) / c.qStep.den)) (1 / 10) ∧
    ((∀ r ∈ c.coefRom, r.cutoff ≠ cutoff ∨ r.resonance ≠ resonance) →
      filterCoefs c cutoff resonance = biquadCoef fc q c.fs) ∧
    ((∃ r ∈ c.coefRom, r.cutoff = cutoff ∧ r.resonance = resonance) →
      ∃ r ∈ c.coefRom, r.cutoff = cutoff ∧ r.resonance = resonance ∧ filterCoefs c cutoff resonance = r.coefs)) ∧
  ∀ s : State,
    (s.filt.dirty = true → ∃ k : Coefs, k = filterCoefs s.cfg s.regs.cutoff.toNat s.regs.resonance.toNat ∧
      exec .filtUpdate s = .next { s with filt := { s.filt with dirty := false, b0 := k.b0, b1 := k.b1, b2 := k.b2, a1 := k.a1,
                                                                 a2 := k.a2 } }) ∧
    (s.filt.dirty = false → exec .filtUpdate s = .next s)

/-- R362, R363: where it is enabled, PASS_START takes the notification of the next half, starts its pass and runs FILT_UPDATE. -/
def Obligations.PassStart : Prop :=
  ∀ s : State, s.seq.busy = false → notify s.seq.nextHalf s.seq = true →
    ∃ t q, exec .passStart s = .next t ∧ q.busy = true ∧ q.cur = s.seq.nextHalf ∧ q.j = 0#16 ∧ q.nextHalf = s.seq.nextHalf ∧
      notify s.seq.nextHalf q = false ∧ notify (~~~s.seq.nextHalf) q = notify (~~~s.seq.nextHalf) s.seq ∧
      exec .filtUpdate { s with seq := q } = .next t ∧ t = { s with seq := q, filt := t.filt } ∧ SameMemory s t

/-- Where an agent's step or a micro-operation finds nothing to act on, all state is kept: DECODE with RAWQ empty, PASS_START and FRAME
not enabled (R400, R362, R364, R524; that such a step may be asked for at all is the model's, log 4), and an envelope row on a
voice in another state or a row on a voice that the pool does not have (log 5). -/
def Obligations.WaitingAgents : Prop :=
  ∀ (v n : BitVec 3) (s : State),
    (s.rawq = [] → exec .decode s = .next s) ∧
    (s.seq.busy = true ∨ notify s.seq.nextHalf s.seq = false → exec .passStart s = .next s) ∧
    (s.seq.busy = false → exec .frame s = .next s) ∧
    (∀ x : Voice, s.voices[v.toNat]? = some x →
      (x.env ≠ .idle → exec (.envIdle v) s = .next s) ∧ (x.env ≠ .attack → exec (.envAttack v) s = .next s) ∧
      (x.env ≠ .decay → exec (.envDecay v) s = .next s) ∧ (x.env ≠ .sustain → exec (.envSustain v) s = .next s) ∧
      (x.env ≠ .release → exec (.envRelease v) s = .next s)) ∧
    (s.voices.length ≤ v.toNat → ∀ i ∈ [Instr.envIdle v, .envAttack v, .envDecay v, .envSustain v, .envRelease v, .oscTune v n,
      .oscLookup v, .oscAdvance v], exec i s = .next s)

/-- R364 to R367: the ENV row of a voice's state, OSC_LOOKUP, OSC_ADVANCE and FILT_PROCESS do alone what they do within a FRAME. A
FRAME completes; the commands are applied first, oldest first, as the rows NOTE_ON and NOTE_OFF apply them; then the voices advance,
and those at or above the threshold are mixed in ascending order from +0.0; then the filter; then the sequencer. -/
def Obligations.FrameRenders : Prop :=
  (∀ (v : BitVec 3) (s : State) (x : Voice), s.voices[v.toNat]? = some x →
    exec (match x.env with
      | .idle => .envIdle v | .attack => .envAttack v | .decay => .envDecay v | .sustain => .envSustain v
      | .release => .envRelease v) s = .next { s with voices := s.voices.set v.toNat (envAdvance x) } ∧
    exec (.oscLookup v) s = .next { s with answer := .raw (oscLookup s.cfg s.regs.wave x) } ∧
    exec (.oscAdvance v) s = .next { s with voices := s.voices.set v.toNat (oscAdvance x) }) ∧
  (∀ (x : F32) (s : State), exec (.filtProcess x) s = .next { s with
    filt := { s.filt with x1 := x, x2 := s.filt.x1, y1 := filtOutput x s.filt, y2 := s.filt.y1 }
    answer := .sample (filtOutput x s.filt) }) ∧
  ∀ s : State, s.cfg.legal = true → SeqOk s → (∀ r ∈ s.cmdq, CmdOk r) → s.seq.busy = true →
    ∃ (u t : State) (vs : List Voice) (mix : F32),
      runInstrs (s.cmdq.map fun r => match r.op with | .noteOn => .noteOn r.key r.note | .noteOff => .noteOff r.key)
        { s with cmdq := [] } = .next u ∧
      vs = u.voices.map envAdvance ∧
      mix = vs.foldl (fun (m : F32) (x : Voice) => if fle s.cfg.silence x.level then
        fadd m (fmul (fofInt (oscLookup s.cfg s.regs.wave x)) x.level) else m) 0x00000000#32 ∧
      exec .frame s = .next t ∧ t.voices = vs.map oscAdvance ∧
      t.filt = { s.filt with x1 := mix, x2 := s.filt.x1, y1 := filtOutput mix s.filt, y2 := s.filt.y1 } ∧
      (s.seq.j.toNat + 1 < s.cfg.half → t.seq = { s.seq with j := s.seq.j + 1#16 }) ∧
      (s.seq.j.toNat + 1 = s.cfg.half → t.seq = { s.seq with j := 0#16, busy := false, nextHalf := ~~~s.seq.cur }) ∧
      t = { s with cmdq := [], voices := t.voices, nextGen := u.nextGen, keyGen := u.keyGen, filt := t.filt, seq := t.seq,
                   pcm := t.pcm }

/-- R368, R369, R101, R102: a FRAME writes the clipped sample, little-endian, to the left and the right halfword of frame i, and every
other byte reads as before.That no address of the buffer wraps is the model's choice (log 28). -/
def Obligations.FrameWritesSample : Prop :=
  ∀ (s t : State) (i : Nat) (v : BitVec 16), s.cfg.legal = true → SeqOk s → s.seq.busy = true → exec .frame s = .next t →
    i = s.seq.cur.toNat * s.cfg.half + s.seq.j.toNat →
    v = BitVec.ofInt 16 (clip16 (fmul t.filt.y1 (fdiv (fofNat s.regs.volume.toNat) (fofNat 100)))) →
    (∀ a, a = s.cfg.pcmBase + 4 * i ∨ a = s.cfg.pcmBase + 4 * i + 2 → memRead t a = some (v.extractLsb' 0 8)) ∧
    (∀ a, a = s.cfg.pcmBase + 4 * i + 1 ∨ a = s.cfg.pcmBase + 4 * i + 3 → memRead t a = some (v.extractLsb' 8 8)) ∧
    (∀ a, a < s.cfg.pcmBase + 4 * i ∨ s.cfg.pcmBase + 4 * i + 3 < a → memRead t a = memRead s a) ∧
    dmaReadFrame t i = some (v ++ v)

/-- R369: CLIP16, with reals in units of 2^-149. -/
def Obligations.ClipRule : Prop :=
  ∀ o : F32,
    (isNan o = true → clip16 o = 0) ∧
    (isNan o = false → 32767 * 2 ^ 149 ≤ fval o → clip16 o = 32767) ∧
    (isNan o = false → fval o ≤ -(32768 * 2 ^ 149) → clip16 o = -32768) ∧
    (isNan o = false → -(32768 * 2 ^ 149) < fval o → fval o < 32767 * 2 ^ 149 →
      clip16 o = Int.tdiv (fval o) (2 ^ 149)) ∧
    -32768 ≤ clip16 o ∧ clip16 o ≤ 32767

/-- R333: one Direct Form I step, each operation rounded, left to right, then the history shifted. -/
def Obligations.FiltProcess : Prop :=
  ∀ (x : F32) (s : State), ∃ t1 t2 t3 t4 y : F32,
    t1 = fmul s.filt.b0 x ∧ t2 = fadd t1 (fmul s.filt.b1 s.filt.x1) ∧ t3 = fadd t2 (fmul s.filt.b2 s.filt.x2) ∧
    t4 = fsub t3 (fmul s.filt.a1 s.filt.y1) ∧ y = fsub t4 (fmul s.filt.a2 s.filt.y2) ∧
    exec (.filtProcess x) s =
      .next { s with filt := { s.filt with x2 := s.filt.x1, x1 := x, y2 := s.filt.y1, y1 := y }, answer := .sample y }

/-- R335: the coefficient sets of the reference parameters. -/
def Obligations.ReferenceCoefficients : Prop :=
  filterCoefs Config.reference 100 0 = ⟨0x3E95F3B3#32, 0x3F15F3B3#32, 0x3E95F3B3#32, 0x00000000#32, 0x3E2F9D96#32⟩ ∧
  filterCoefs Config.reference 100 100 = ⟨0x3EF4941D#32, 0x3F74941D#32, 0x3EF4941D#32, 0x00000000#32, 0x3F69283A#32⟩ ∧
  filterCoefs Config.reference 50 0 = ⟨0x3DC7F039#32, 0x3E47F039#32, 0x3DC7F039#32, 0xBF7158D3#32, 0x3EAAA1DE#32⟩ ∧
  filterCoefs Config.reference 25 50 = ⟨0x3D16D667#32, 0x3D96D667#32, 0x3D16D667#32, 0xBFE4D738#32, 0x3F6F6409#32⟩ ∧
  filterCoefs Config.reference 10 10 = ⟨0x3BC0E059#32, 0x3C40E059#32, 0x3BC0E059#32, 0xBFF1C51C#32, 0x3F69913B#32⟩ ∧
  filterCoefs Config.reference 1 0 = ⟨0x387FE0C7#32, 0x38FFE0C7#32, 0x387FE0C7#32, 0xBFFD2800#32, 0x3F7A5FFE#32⟩ ∧
  filterCoefs Config.reference 0 0 = ⟨0x31AE5A4A#32, 0x322E5A4A#32, 0x31AE5A4A#32, 0xBFFFF966#32, 0x3F7FF2CB#32⟩

/-! ### Envelopes -/

/-- R202, R205: ENV_IDLE forces the level to +0.0 and nothing else, ENV_SUSTAIN changes nothing. -/
def Obligations.EnvIdleSustain : Prop :=
  ∀ (v : BitVec 3) (s : State) (x : Voice), s.voices[v.toNat]? = some x →
    (x.env = .idle → exec (.envIdle v) s = .next { s with voices := s.voices.set v.toNat { x with level := 0x00000000#32 } }) ∧
    (x.env = .sustain → exec (.envSustain v) s = .next s)

/-- R203: ENV_ATTACK. -/
def Obligations.EnvAttack : Prop :=
  ∀ (v : BitVec 3) (s : State) (x : Voice) (sum : F32) (n : Nat), s.voices[v.toNat]? = some x → x.env = .attack →
    x.left ≠ 0#32 → sum = fadd x.level x.step → n = max x.dec.toNat 1 →
    ∃ t y, exec (.envAttack v) s = .next t ∧ EnvWrites v.toNat x y s t ∧
      (fle 0x3F800000#32 sum = true ∨ x.left = 1#32 →
        y.level = 0x3F800000#32 ∧ y.env = .decay ∧ y.step = fdiv (fsub 0x3F800000#32 x.sus) (fofNat n) ∧ y.left.toNat = n) ∧
      (fle 0x3F800000#32 sum = false → x.left ≠ 1#32 →
        y.level = sum ∧ y.env = .attack ∧ y.step = x.step ∧ y.left.toNat = x.left.toNat - 1)

/-- R204, R206: ENV_DECAY and ENV_RELEASE. -/
def Obligations.EnvFalling : Prop :=
  ∀ (v : BitVec 3) (s : State) (x : Voice) (diff : F32), s.voices[v.toNat]? = some x → x.left ≠ 0#32 →
    diff = fsub x.level x.step →
    (x.env = .decay → ∃ t y, exec (.envDecay v) s = .next t ∧ EnvWrites v.toNat x y s t ∧
      (fle diff x.sus = true ∨ x.left = 1#32 →
        y.level = x.sus ∧ y.env = .sustain ∧ y.step = 0x00000000#32 ∧ y.left = 0#32) ∧
      (fle diff x.sus = false → x.left ≠ 1#32 →
        y.level = diff ∧ y.env = .decay ∧ y.step = x.step ∧ y.left.toNat = x.left.toNat - 1)) ∧
    (x.env = .release → ∃ t y, exec (.envRelease v) s = .next t ∧ EnvWrites v.toNat x y s t ∧
      (fle diff 0x00000000#32 = true ∨ x.left = 1#32 →
        y.level = 0x00000000#32 ∧ y.env = .idle ∧ y.step = 0x00000000#32 ∧ y.left = 0#32) ∧
      (fle diff 0x00000000#32 = false → x.left ≠ 1#32 →
        y.level = diff ∧ y.env = .release ∧ y.step = x.step ∧ y.left.toNat = x.left.toNat - 1))

/-- R209: from voices within the legal values of R32, every ENV row and every FRAME leaves every level in [0, 1], as reals. -/
def Obligations.LevelBounds : Prop :=
  (∀ (v : BitVec 3) (s : State), VoicesOk s →
    ∀ i ∈ [Instr.envIdle v, .envAttack v, .envDecay v, .envSustain v, .envRelease v],
      ∃ t, exec i s = .next t ∧ ∀ x ∈ t.voices, fle 0x00000000#32 x.level = true ∧ fle x.level 0x3F800000#32 = true) ∧
  (∀ s : State, s.Inv → ∃ t, exec .frame s = .next t ∧
    ∀ x ∈ t.voices, fle 0x00000000#32 x.level = true ∧ fle x.level 0x3F800000#32 = true)

/-- R207: a ramping stage never lasts more advances than its counter held at its start: Attack ends in Decay at level 1.0, Decay in
Sustain at the sustain level, Release in Idle at +0.0. -/
def Obligations.StageLength : Prop :=
  ∀ x : Voice, x.left ≠ 0#32 →
    (x.env = .attack → ∃ k, 1 ≤ k ∧ k ≤ x.left.toNat ∧ (∀ j < k, (envAdvance^[j] x).env = .attack) ∧
      (envAdvance^[k] x).env = .decay ∧ (envAdvance^[k] x).level = 0x3F800000#32) ∧
    (x.env = .decay → ∃ k, 1 ≤ k ∧ k ≤ x.left.toNat ∧ (∀ j < k, (envAdvance^[j] x).env = .decay) ∧
      (envAdvance^[k] x).env = .sustain ∧ (envAdvance^[k] x).level = x.sus) ∧
    (x.env = .release → ∃ k, 1 ≤ k ∧ k ≤ x.left.toNat ∧ (∀ j < k, (envAdvance^[j] x).env = .release) ∧
      (envAdvance^[k] x).env = .idle ∧ (envAdvance^[k] x).level = 0x00000000#32)

/-! ### Oscillators -/

/-- R240, R242, R243: OSC_TUNE: the frequency of the note, clamped to [0, FS/2], and the tuning word `floor(f 2^32 / FS + 1/2)` in exact
arithmetic, in 0..2^31. The octave's factor is 2^o exactly, and the clamp is R9's min and max of the values. -/
def Obligations.OscTune : Prop :=
  (∀ o : ℤ, -8 ≤ o → o ≤ 8 → (fval (fpow2 o) : ℚ) = 2 ^ o * 2 ^ 149) ∧
  (∀ x lo hi : F32, isFinite x = true → isFinite lo = true → isFinite hi = true → fval lo ≤ fval hi →
    isFinite (fclamp x lo hi) = true ∧ fval (fclamp x lo hi) = min (max (fval x) (fval lo)) (fval hi)) ∧
  ∀ (v n : BitVec 3) (s : State) (x : Voice) (f : F32), s.cfg.legal = true → n.toNat ≤ 6 →
    s.cfg.octaveMin ≤ s.regs.octave → s.regs.octave ≤ s.cfg.octaveMax → s.voices[v.toNat]? = some x →
    f = fclamp (fmul (s.cfg.noteFreq.getD n.toNat 0#32) (fpow2 s.regs.octave)) 0x00000000#32
      (fdiv (fofNat s.cfg.fs) 0x40000000#32) →
    ∃ w : Word, exec (.oscTune v n) s = .next { s with voices := s.voices.set v.toNat { x with freq := f, tw := w } } ∧
      ((w.toNat : Int) = ⌊(fval f : ℚ) / 2 ^ 149 * 2 ^ 32 / s.cfg.fs + 1 / 2⌋) ∧ w.toNat ≤ 2 ^ 31 ∧
      0 ≤ fval f ∧ 2 * fval f ≤ (s.cfg.fs : Int) * 2 ^ 149

/-- R245, R249: OSC_LOOKUP gives the entry of the wave at the high TABLE_LOG2 bits of the phase, and changes no core state. -/
def Obligations.OscLookup : Prop :=
  ∀ (v : BitVec 3) (s : State) (x : Voice) (i : Nat) (T : Int), s.cfg.legal = true → s.voices[v.toNat]? = some x →
    i = x.phase.toNat / 2 ^ (32 - s.cfg.tableLog2) → T = 2 ^ s.cfg.tableLog2 →
    ∃ raw : Int, exec (.oscLookup v) s = .next { s with answer := .raw raw } ∧ (i : Int) < T ∧
      (s.regs.wave = 0#2 → s.cfg.sine[i]? = some raw) ∧
      (s.regs.wave = 1#2 → raw = ⌊((2 * i - T) * 32767 : ℚ) / T⌋) ∧
      (s.regs.wave = 2#2 → raw = if 2 * (i : Int) < T then 32767 else -32767) ∧
      (s.regs.wave = 3#2 → raw = if 2 * (i : Int) < T then -32767 + ⌊(4 * 32767 * i : ℚ) / T⌋
        else 32767 - ⌊(4 * 32767 * (i - T / 2) : ℚ) / T⌋) ∧
      -32767 ≤ raw ∧ raw ≤ 32767

/-- R244, R248: OSC_ADVANCE adds the tuning word to the phase modulo 2^32; after k advances the phase is `(p0 + k tw) mod 2^32`, and
for tw ≠ 0 it is back at p0 exactly at the multiples of `2^32 / gcd(tw, 2^32)`. -/
def Obligations.OscPeriod : Prop :=
  (∀ (v : BitVec 3) (s : State) (x : Voice), s.voices[v.toNat]? = some x →
    ∃ p : Word, exec (.oscAdvance v) s = .next { s with voices := s.voices.set v.toNat { x with phase := p } } ∧
      p.toNat = (x.phase.toNat + x.tw.toNat) % 2 ^ 32) ∧
  (∀ (v : BitVec 3) (s : State) (x : Voice) (k : Nat), s.voices[v.toNat]? = some x →
    ∃ p : Word, runInstrs (List.replicate k (.oscAdvance v)) s =
        .next { s with voices := s.voices.set v.toNat { x with phase := p } } ∧
      p.toNat = (x.phase.toNat + k * x.tw.toNat) % 2 ^ 32 ∧
      (x.tw ≠ 0#32 → (p = x.phase ↔ 2 ^ 32 / Nat.gcd x.tw.toNat (2 ^ 32) ∣ k)))

/-! ### The allocator -/

/-- R281: VOICE_SELECT: the least Idle voice; with none, the least generation, ties to the least index. -/
def Obligations.VoiceSelect : Prop :=
  ∀ s : State, s.voices ≠ [] → ∃ v x, exec .voiceSelect s = .next { s with answer := .voice v } ∧ s.voices[v]? = some x ∧
    ((∃ y ∈ s.voices, y.env = .idle) → x.env = .idle ∧ ∀ u y, s.voices[u]? = some y → y.env = .idle → v ≤ u) ∧
    ((∀ y ∈ s.voices, y.env ≠ .idle) →
      ∀ u y, s.voices[u]? = some y → x.gen ≤ y.gen ∧ (y.gen = x.gen → v ≤ u))

/-- R282, R283, R247, R290: NOTE_ON, in the state `u` that GEN_REBASE leaves where it runs first: the voice VOICE_SELECT gives starts
Attack at level +0.0 with the parameters held now, OSC_TUNE's frequency, a new generation, and the phase it had. R283 has notes 0..6
only; that field 7, which no queued record holds, takes the NOTE register when the row itself runs is the model's choice (log 2). -/
def Obligations.NoteOn : Prop :=
  ∀ (k : BitVec 4) (field : BitVec 3) (s : State), s.cfg.legal = true → RegsOk s → s.voices ≠ [] → s.voices.length ≤ 8 →
    ∃ (u t : State) (v : Nat) (x y : Voice),
      (if s.nextGen = s.cfg.genMax + 1 then exec .genRebase s = .next u else u = s) ∧
      exec .voiceSelect u = .next { u with answer := .voice v } ∧ u.voices[v]? = some x ∧
      exec (.noteOn k field) s = .next t ∧ t.voices = u.voices.set v y ∧
      y.env = .attack ∧ y.level = 0x00000000#32 ∧
      y.atk.toNat = s.regs.attack.toNat * s.cfg.samplesPerUnit ∧ y.dec.toNat = s.regs.decay.toNat * s.cfg.samplesPerUnit ∧
      y.rel.toNat = s.regs.release.toNat * s.cfg.samplesPerUnit ∧ y.sus = fdiv (fofNat s.regs.sustain.toNat) (fofNat 100) ∧
      exec (.oscTune (BitVec.ofNat 3 v) (if field.toNat ≤ 6 then field else s.regs.note)) u =
        .next { u with voices := u.voices.set v { x with freq := y.freq, tw := y.tw } } ∧
      y.left.toNat = max y.atk.toNat 1 ∧ y.step = fdiv 0x3F800000#32 (fofNat y.left.toNat) ∧ y.gen = u.nextGen ∧
      y.phase = x.phase ∧
      t = { s with voices := t.voices, nextGen := u.nextGen + 1, keyGen := u.keyGen.set k.toNat u.nextGen } ∧ SameMemory s t

/-- R286: NOTE_OFF: no generation, no voice with it, or an Idle one: nothing; else the voice with it enters Release from its level. -/
def Obligations.NoteOff : Prop :=
  ∀ (k : BitVec 4) (s : State) (g : Nat), s.keyGen[k.toNat]? = some g →
    (g = 0 ∨ (∀ x ∈ s.voices, x.gen ≠ g) → exec (.noteOff k) s = .next s) ∧
    (∀ v x, GensOk s → g ≠ 0 → s.voices[v]? = some x → x.gen = g →
      (x.env = .idle → exec (.noteOff k) s = .next s) ∧
      (x.env ≠ .idle → ∃ y, exec (.noteOff k) s = .next { s with voices := s.voices.set v y } ∧
        y.step = fdiv x.level (fofNat (max x.rel.toNat 1)) ∧ y.left.toNat = max x.rel.toNat 1 ∧
        y = { x with env := .release, step := y.step, left := y.left }))

/-- R291, R292: GEN_REBASE: the common offset where there is one, else the ranks. -/
def Obligations.GenRebase : Prop :=
  ∀ (s : State) (A : Finset Nat) (off : Nat),
    A = ((s.voices.filter (fun x => decide (x.env ≠ .idle))).map Voice.gen).toFinset →
    (A = ∅ → off = s.nextGen - 1) → (∀ h : A.Nonempty, off = A.min' h - 1) →
    (0 < off → exec .genRebase s = .next { s with
      voices := s.voices.map (fun x => { x with gen := if off < x.gen then x.gen - off else 0 })
      keyGen := s.keyGen.map (fun g => if off < g then g - off else 0)
      nextGen := s.nextGen - off }) ∧
    (off = 0 → exec .genRebase s = .next { s with
      voices := s.voices.map (fun x => { x with gen := if x.env ≠ .idle then (A.filter (· ≤ x.gen)).card else 0 })
      keyGen := s.keyGen.map (fun g => if g ∈ A then (A.filter (· ≤ g)).card else 0)
      nextGen := A.card + 1 })

/-- R290, R293: where the invariant holds, GEN_REBASE makes room for the next generation, keeps the order of the sounding voices'
generations, and keeps which sounding voice a key slot names. -/
def Obligations.RebaseKeepsOrder : Prop :=
  ∀ s t : State, s.Inv → exec .genRebase s = .next t →
    (s.nextGen = s.cfg.genMax + 1 → t.nextGen ≤ t.cfg.genMax) ∧
    (∀ (v w : Nat) (x y x' y' : Voice), s.voices[v]? = some x → s.voices[w]? = some y → t.voices[v]? = some x' →
      t.voices[w]? = some y' → x.env ≠ .idle → y.env ≠ .idle → (x.gen < y.gen ↔ x'.gen < y'.gen)) ∧
    (∀ (k v g g' : Nat) (x x' : Voice), s.keyGen[k]? = some g → t.keyGen[k]? = some g' → s.voices[v]? = some x →
      t.voices[v]? = some x' → x.env ≠ .idle → (g = x.gen ↔ g' = x'.gen))

/-- R285: from all voices Idle, N+1 NOTE_ONs with nothing between: voice i takes generation g+i, and the last steals voice 0, which
restarts Attack at +0.0 with generation g+N. -/
def Obligations.StealsOldest : Prop :=
  ∀ (s : State) (notes : List (BitVec 4 × BitVec 3)), s.voices ≠ [] → (∀ x ∈ s.voices, x.env = .idle) →
    s.nextGen + s.voices.length ≤ s.cfg.genMax → notes.length = s.voices.length + 1 →
    ∃ t, runInstrs (notes.map (fun p => .noteOn p.1 p.2)) s = .next t ∧ t.voices.length = s.voices.length ∧
      t.nextGen = s.nextGen + s.voices.length + 1 ∧
      ∀ v x, t.voices[v]? = some x → x.env = .attack ∧ x.level = 0x00000000#32 ∧
        x.gen = if v = 0 then s.nextGen + s.voices.length else s.nextGen + v

/-! ### Reset, the invariant, and the whole machine -/

/-- R540, R541: RESET puts every piece of core state at its reset value, what the host then reads is as R541 says, the PCM buffer and
FAULTS are kept; and the encoders' pins may be any (R542). -/
def Obligations.ResetStep : Prop :=
  (∀ (s : State) (f : Nat → BitVec 2), s.cfg.numEnc ≤ 16 → ∃ (pins : Word) (t : State), exec (.reset pins) s = .next t ∧
    ∀ e x, t.encs[e]? = some x → x.prev = f e) ∧
  ∀ (pins : Word) (s : State), ∃ t, exec (.reset pins) s = .next t ∧
    exec .rdStatus t = .next { t with answer := .rdata 0x00000900#32 } ∧
    exec .rdVoiceState t = .next { t with answer := .rdata 0x00000000#32 } ∧ irq t = false ∧
    t.seq = ⟨false, 0#1, 0#16, 0#1, false, false⟩ ∧
    t.voices = List.replicate s.cfg.nVoices ⟨.idle, 0#32, 0#32, 0#32, 0#32, 0#32, 0#32, 0#32, 0#32, 0#32, 0#32, 0⟩ ∧
    t.nextGen = 1 ∧ t.keyGen = List.replicate 16 0 ∧
    t.filt = ⟨0#32, 0#32, 0#32, 0#32, 0#32, 0#32, 0#32, 0#32, 0#32, true⟩ ∧
    t.encs.length = s.cfg.numEnc ∧
    (∀ x ∈ t.encs, x.acc = 0#8 ∧ x.blvl = false ∧
      (s.cfg.btnDebounceTicks < 2 ^ 32 → x.btick.toNat = (2 ^ 32 - s.cfg.btnDebounceTicks) % 2 ^ 32)) ∧
    t.keys = List.replicate 16 ⟨0, false⟩ ∧ t.cmdq = [] ∧ t.evq = [] ∧ t.rawq = [] ∧ t.sticky = 0#5 ∧ t.irqEn = 0#2 ∧
    t.regs = ⟨10#8, 10#8, 70#8, 20#8, 100#8, 0#8, 50#8, 0#2, 0#3, 0⟩ ∧ t.tick = 0#32 ∧ t.keymap.length = 16 ∧
    (∀ k m, t.keymap[k]? = some m →
      m.toNat = if k ≤ 6 then 0x40 + k else if 8 ≤ k ∧ k ≤ 11 then 0x80 + (k - 8) else 0) ∧
    t.cfg = s.cfg ∧ t.pcm = s.pcm ∧ t.faults = s.faults ∧ SameMemory s t

/-- Right after reset the invariant holds, whatever the free values are, and the host reads R541's values: STATUS 0x900, VOICE_STATE,
TICK and EVENT 0, SUSTAIN 70, KEYMAP[9] WAVE 1; no interrupt, FAULTS empty. In every launch state the DMA reads the power-up draw,
which may be any byte string (R542, log 10), in every frame of the buffer, and nothing past it. -/
def Obligations.ResetInv : Prop :=
  State.reset.Inv ∧
  exec .rdStatus State.reset = .next { State.reset with answer := .rdata 0x00000900#32 } ∧
  exec .rdVoiceState State.reset = .next { State.reset with answer := .rdata 0x00000000#32 } ∧
  exec .rdTick State.reset = .next { State.reset with answer := .rdata 0x00000000#32 } ∧
  exec .rdEvent State.reset = .next { State.reset with answer := .rdata 0x00000000#32 } ∧
  exec .rdSustain State.reset = .next { State.reset with answer := .rdata 70#32 } ∧
  exec (.rdKeymap 9#4) State.reset = .next { State.reset with answer := .rdata 0x00000081#32 } ∧
  irq State.reset = false ∧ State.reset.faulted = false ∧
  (∀ (c : Params) (pins : Word) (i : Nat),
    (i < c.bufFrames → dmaReadFrame (State.launch c pins) i = some (Config.pcmPowerUp (4 * i + 3) ++
      Config.pcmPowerUp (4 * i + 2) ++ Config.pcmPowerUp (4 * i + 1) ++ Config.pcmPowerUp (4 * i))) ∧
    (c.bufFrames ≤ i → dmaReadFrame (State.launch c pins) i = none))

/-- Every row and every step keeps the invariant, from every state that meets it and with every operand, and where it holds no step
ends in a fault (R34, R37, R38, R57, R107, R209, R293). -/
def Obligations.StepKeepsInv : Prop :=
  (∀ s t : State, s.Inv → step s = .next t → t.Inv) ∧ (∀ (s : State) (f : Fault), s.Inv → step s ≠ .fault f) ∧
  (∀ (i : Instr) (s t : State), s.Inv → exec i s = .next t → t.Inv)

/-- R109: single writers. Voices, their generations and the filter state other than `F.dirty` change in RENDERER steps alone, encoder
and keypad state in DECODER steps alone, parameter registers in HOST accesses alone but for WAVE and NOTE in DECODER steps;
RESET apart. -/
def Obligations.SingleWriters : Prop :=
  ∀ (i : Instr) (s t : State), exec i s = .next t → agentOf i ≠ .reset →
    (agentOf i ≠ .renderer → t.voices = s.voices ∧ t.keyGen = s.keyGen ∧ t.nextGen = s.nextGen ∧
      t.filt = { s.filt with dirty := t.filt.dirty }) ∧
    (agentOf i ≠ .decoder → t.encs = s.encs ∧ t.keys = s.keys) ∧
    (agentOf i ≠ .host → t.regs = { s.regs with wave := t.regs.wave, note := t.regs.note }) ∧
    (agentOf i ≠ .host → agentOf i ≠ .decoder → t.regs = s.regs)

/-- R39: the FIFOs' producers and consumers. CMDQ grows at its end by host and decoder and is emptied by the renderer; EVQ grows at its
end by the decoder and loses its oldest by the host; RAWQ grows at its end by INPUT and loses its oldest by the decoder. -/
def Obligations.FifoEnds : Prop :=
  ∀ (i : Instr) (s t : State), exec i s = .next t → agentOf i ≠ .reset →
    ((∃ new, t.cmdq = s.cmdq ++ new ∧ (new ≠ [] → agentOf i = .host ∨ agentOf i = .decoder)) ∨
      (t.cmdq = [] ∧ agentOf i = .renderer)) ∧
    ((∃ new, t.evq = s.evq ++ new ∧ (new ≠ [] → agentOf i = .decoder)) ∨ (t.evq = s.evq.tail ∧ agentOf i = .host)) ∧
    ((∃ new, t.rawq = s.rawq ++ new ∧ (new ≠ [] → agentOf i = .input)) ∨ (t.rawq = s.rawq.tail ∧ agentOf i = .decoder))

/-- R63, R503: FAULTS is empty at launch, no step removes an element, and only a bus access or a DMA notification adds one. -/
def Obligations.FaultsForGood : Prop :=
  (∀ (c : Params) (pins : Word), (State.launch c pins).faulted = false) ∧
  (∀ s t : State, step s = .next t →
    (s.faults.busError = true → t.faults.busError = true) ∧
    (s.faults.deadlineMiss = true → t.faults.deadlineMiss = true)) ∧
  (∀ (i : Instr) (s t : State), exec i s = .next t →
    (t.faults.busError = true → s.faults.busError = true ∨ agentOf i = .host) ∧
    (t.faults.deadlineMiss = true → s.faults.deadlineMiss = true ∨ agentOf i = .dma))

/-! ### Arithmetic -/

/-- R10, with reals in units of 2^-149: the value a bit pattern names; sum, difference, product and quotient of finite values are the
binary32 nearest the exact one, ties to even (past the largest finite value the infinity, log 13); `f32(n)` is the nearest to n,
exact up to 2^24; `≤` compares finite values as reals and is false with a NaN. -/
def Obligations.Binary32 : Prop :=
  (∀ x : F32, fval x = (if x.getLsbD 31 then -1 else 1) *
    (if x.extractLsb' 23 8 = 0#8 then ((x.extractLsb' 0 23).toNat : ℤ)
      else ((x.extractLsb' 0 23).toNat + 2 ^ 23) * 2 ^ ((x.extractLsb' 23 8).toNat - 1))) ∧
  (∀ x : F32, (isFinite x = true ↔ x.extractLsb' 23 8 ≠ 0xFF#8) ∧
    (isNan x = true ↔ x.extractLsb' 23 8 = 0xFF#8 ∧ x.extractLsb' 0 23 ≠ 0#23)) ∧
  (∀ a b : F32, isFinite a = true → isFinite b = true →
    IsNearest (fadd a b) ((fval a : ℚ) + fval b) ∧ IsNearest (fsub a b) ((fval a : ℚ) - fval b) ∧
    IsNearest (fmul a b) ((fval a : ℚ) * fval b / 2 ^ 149) ∧
    (fval b ≠ 0 → IsNearest (fdiv a b) ((fval a : ℚ) * 2 ^ 149 / fval b)) ∧
    (fle a b = true ↔ fval a ≤ fval b)) ∧
  (∀ a b : F32, isNan a = true ∨ isNan b = true → fle a b = false) ∧
  (∀ n : ℤ, IsNearest (fofInt n) ((n : ℚ) * 2 ^ 149) ∧
    (n.natAbs ≤ 2 ^ 24 → isFinite (fofInt n) = true ∧ fval (fofInt n) = n * 2 ^ 149)) ∧
  (∀ n : ℕ, fofNat n = fofInt n)
end

