-- ==== Sys2Proof/Laws/State.lean ====
section
/-! SUPPORT. What each named operation leaves in each field of the state, one lemma a field, so that no proof unfolds a record
update. -/

namespace Sys2Proof.Machine

/-! ### `setSticky` -/

@[simp] theorem setSticky_cfg (b : Nat) (s : State) : (setSticky b s).cfg = s.cfg := rfl
@[simp] theorem setSticky_seq (b : Nat) (s : State) : (setSticky b s).seq = s.seq := rfl
@[simp] theorem setSticky_voices (b : Nat) (s : State) : (setSticky b s).voices = s.voices := rfl
@[simp] theorem setSticky_nextGen (b : Nat) (s : State) : (setSticky b s).nextGen = s.nextGen := rfl
@[simp] theorem setSticky_keyGen (b : Nat) (s : State) : (setSticky b s).keyGen = s.keyGen := rfl
@[simp] theorem setSticky_filt (b : Nat) (s : State) : (setSticky b s).filt = s.filt := rfl
@[simp] theorem setSticky_encs (b : Nat) (s : State) : (setSticky b s).encs = s.encs := rfl
@[simp] theorem setSticky_keys (b : Nat) (s : State) : (setSticky b s).keys = s.keys := rfl
@[simp] theorem setSticky_cmdq (b : Nat) (s : State) : (setSticky b s).cmdq = s.cmdq := rfl
@[simp] theorem setSticky_evq (b : Nat) (s : State) : (setSticky b s).evq = s.evq := rfl
@[simp] theorem setSticky_rawq (b : Nat) (s : State) : (setSticky b s).rawq = s.rawq := rfl
@[simp] theorem setSticky_sticky (b : Nat) (s : State) : (setSticky b s).sticky = s.sticky ||| (1#5 <<< b) := rfl
@[simp] theorem setSticky_irqEn (b : Nat) (s : State) : (setSticky b s).irqEn = s.irqEn := rfl
@[simp] theorem setSticky_regs (b : Nat) (s : State) : (setSticky b s).regs = s.regs := rfl
@[simp] theorem setSticky_keymap (b : Nat) (s : State) : (setSticky b s).keymap = s.keymap := rfl
@[simp] theorem setSticky_tick (b : Nat) (s : State) : (setSticky b s).tick = s.tick := rfl
@[simp] theorem setSticky_faults (b : Nat) (s : State) : (setSticky b s).faults = s.faults := rfl
@[simp] theorem setSticky_pcm (b : Nat) (s : State) : (setSticky b s).pcm = s.pcm := rfl
@[simp] theorem setSticky_answer (b : Nat) (s : State) : (setSticky b s).answer = s.answer := rfl
@[simp] theorem setSticky_lines (b : Nat) (s : State) : (setSticky b s).lines = s.lines := rfl
@[simp] theorem setSticky_eager (b : Nat) (s : State) : (setSticky b s).eager = s.eager := rfl
@[simp] theorem setSticky_drawn (b : Nat) (s : State) : (setSticky b s).drawn = s.drawn := rfl

/-! ### `answerWith` -/

@[simp] theorem answerWith_cfg (a : Answer) (s : State) : (answerWith a s).cfg = s.cfg := rfl
@[simp] theorem answerWith_seq (a : Answer) (s : State) : (answerWith a s).seq = s.seq := rfl
@[simp] theorem answerWith_voices (a : Answer) (s : State) : (answerWith a s).voices = s.voices := rfl
@[simp] theorem answerWith_nextGen (a : Answer) (s : State) : (answerWith a s).nextGen = s.nextGen := rfl
@[simp] theorem answerWith_keyGen (a : Answer) (s : State) : (answerWith a s).keyGen = s.keyGen := rfl
@[simp] theorem answerWith_filt (a : Answer) (s : State) : (answerWith a s).filt = s.filt := rfl
@[simp] theorem answerWith_encs (a : Answer) (s : State) : (answerWith a s).encs = s.encs := rfl
@[simp] theorem answerWith_keys (a : Answer) (s : State) : (answerWith a s).keys = s.keys := rfl
@[simp] theorem answerWith_cmdq (a : Answer) (s : State) : (answerWith a s).cmdq = s.cmdq := rfl
@[simp] theorem answerWith_evq (a : Answer) (s : State) : (answerWith a s).evq = s.evq := rfl
@[simp] theorem answerWith_rawq (a : Answer) (s : State) : (answerWith a s).rawq = s.rawq := rfl
@[simp] theorem answerWith_sticky (a : Answer) (s : State) : (answerWith a s).sticky = s.sticky := rfl
@[simp] theorem answerWith_irqEn (a : Answer) (s : State) : (answerWith a s).irqEn = s.irqEn := rfl
@[simp] theorem answerWith_regs (a : Answer) (s : State) : (answerWith a s).regs = s.regs := rfl
@[simp] theorem answerWith_keymap (a : Answer) (s : State) : (answerWith a s).keymap = s.keymap := rfl
@[simp] theorem answerWith_tick (a : Answer) (s : State) : (answerWith a s).tick = s.tick := rfl
@[simp] theorem answerWith_faults (a : Answer) (s : State) : (answerWith a s).faults = s.faults := rfl
@[simp] theorem answerWith_pcm (a : Answer) (s : State) : (answerWith a s).pcm = s.pcm := rfl
@[simp] theorem answerWith_answer (a : Answer) (s : State) : (answerWith a s).answer = a := rfl
@[simp] theorem answerWith_lines (a : Answer) (s : State) : (answerWith a s).lines = s.lines := rfl
@[simp] theorem answerWith_eager (a : Answer) (s : State) : (answerWith a s).eager = s.eager := rfl
@[simp] theorem answerWith_drawn (a : Answer) (s : State) : (answerWith a s).drawn = s.drawn := rfl

/-! ### `modifyVoice` -/

@[simp] theorem modifyVoice_cfg (v : Nat) (f : Voice → Voice) (s : State) : (modifyVoice v f s).cfg = s.cfg := rfl
@[simp] theorem modifyVoice_seq (v : Nat) (f : Voice → Voice) (s : State) : (modifyVoice v f s).seq = s.seq := rfl
@[simp] theorem modifyVoice_voices (v : Nat) (f : Voice → Voice) (s : State) : (modifyVoice v f s).voices = s.voices.modify v f := rfl
@[simp] theorem modifyVoice_nextGen (v : Nat) (f : Voice → Voice) (s : State) : (modifyVoice v f s).nextGen = s.nextGen := rfl
@[simp] theorem modifyVoice_keyGen (v : Nat) (f : Voice → Voice) (s : State) : (modifyVoice v f s).keyGen = s.keyGen := rfl
@[simp] theorem modifyVoice_filt (v : Nat) (f : Voice → Voice) (s : State) : (modifyVoice v f s).filt = s.filt := rfl
@[simp] theorem modifyVoice_encs (v : Nat) (f : Voice → Voice) (s : State) : (modifyVoice v f s).encs = s.encs := rfl
@[simp] theorem modifyVoice_keys (v : Nat) (f : Voice → Voice) (s : State) : (modifyVoice v f s).keys = s.keys := rfl
@[simp] theorem modifyVoice_cmdq (v : Nat) (f : Voice → Voice) (s : State) : (modifyVoice v f s).cmdq = s.cmdq := rfl
@[simp] theorem modifyVoice_evq (v : Nat) (f : Voice → Voice) (s : State) : (modifyVoice v f s).evq = s.evq := rfl
@[simp] theorem modifyVoice_rawq (v : Nat) (f : Voice → Voice) (s : State) : (modifyVoice v f s).rawq = s.rawq := rfl
@[simp] theorem modifyVoice_sticky (v : Nat) (f : Voice → Voice) (s : State) : (modifyVoice v f s).sticky = s.sticky := rfl
@[simp] theorem modifyVoice_irqEn (v : Nat) (f : Voice → Voice) (s : State) : (modifyVoice v f s).irqEn = s.irqEn := rfl
@[simp] theorem modifyVoice_regs (v : Nat) (f : Voice → Voice) (s : State) : (modifyVoice v f s).regs = s.regs := rfl
@[simp] theorem modifyVoice_keymap (v : Nat) (f : Voice → Voice) (s : State) : (modifyVoice v f s).keymap = s.keymap := rfl
@[simp] theorem modifyVoice_tick (v : Nat) (f : Voice → Voice) (s : State) : (modifyVoice v f s).tick = s.tick := rfl
@[simp] theorem modifyVoice_faults (v : Nat) (f : Voice → Voice) (s : State) : (modifyVoice v f s).faults = s.faults := rfl
@[simp] theorem modifyVoice_pcm (v : Nat) (f : Voice → Voice) (s : State) : (modifyVoice v f s).pcm = s.pcm := rfl
@[simp] theorem modifyVoice_answer (v : Nat) (f : Voice → Voice) (s : State) : (modifyVoice v f s).answer = s.answer := rfl
@[simp] theorem modifyVoice_lines (v : Nat) (f : Voice → Voice) (s : State) : (modifyVoice v f s).lines = s.lines := rfl
@[simp] theorem modifyVoice_eager (v : Nat) (f : Voice → Voice) (s : State) : (modifyVoice v f s).eager = s.eager := rfl
@[simp] theorem modifyVoice_drawn (v : Nat) (f : Voice → Voice) (s : State) : (modifyVoice v f s).drawn = s.drawn := rfl

/-! ### `modifyEnc` -/

@[simp] theorem modifyEnc_cfg (e : Nat) (f : Encoder → Encoder) (s : State) : (modifyEnc e f s).cfg = s.cfg := rfl
@[simp] theorem modifyEnc_seq (e : Nat) (f : Encoder → Encoder) (s : State) : (modifyEnc e f s).seq = s.seq := rfl
@[simp] theorem modifyEnc_voices (e : Nat) (f : Encoder → Encoder) (s : State) : (modifyEnc e f s).voices = s.voices := rfl
@[simp] theorem modifyEnc_nextGen (e : Nat) (f : Encoder → Encoder) (s : State) : (modifyEnc e f s).nextGen = s.nextGen := rfl
@[simp] theorem modifyEnc_keyGen (e : Nat) (f : Encoder → Encoder) (s : State) : (modifyEnc e f s).keyGen = s.keyGen := rfl
@[simp] theorem modifyEnc_filt (e : Nat) (f : Encoder → Encoder) (s : State) : (modifyEnc e f s).filt = s.filt := rfl
@[simp] theorem modifyEnc_encs (e : Nat) (f : Encoder → Encoder) (s : State) : (modifyEnc e f s).encs = s.encs.modify e f := rfl
@[simp] theorem modifyEnc_keys (e : Nat) (f : Encoder → Encoder) (s : State) : (modifyEnc e f s).keys = s.keys := rfl
@[simp] theorem modifyEnc_cmdq (e : Nat) (f : Encoder → Encoder) (s : State) : (modifyEnc e f s).cmdq = s.cmdq := rfl
@[simp] theorem modifyEnc_evq (e : Nat) (f : Encoder → Encoder) (s : State) : (modifyEnc e f s).evq = s.evq := rfl
@[simp] theorem modifyEnc_rawq (e : Nat) (f : Encoder → Encoder) (s : State) : (modifyEnc e f s).rawq = s.rawq := rfl
@[simp] theorem modifyEnc_sticky (e : Nat) (f : Encoder → Encoder) (s : State) : (modifyEnc e f s).sticky = s.sticky := rfl
@[simp] theorem modifyEnc_irqEn (e : Nat) (f : Encoder → Encoder) (s : State) : (modifyEnc e f s).irqEn = s.irqEn := rfl
@[simp] theorem modifyEnc_regs (e : Nat) (f : Encoder → Encoder) (s : State) : (modifyEnc e f s).regs = s.regs := rfl
@[simp] theorem modifyEnc_keymap (e : Nat) (f : Encoder → Encoder) (s : State) : (modifyEnc e f s).keymap = s.keymap := rfl
@[simp] theorem modifyEnc_tick (e : Nat) (f : Encoder → Encoder) (s : State) : (modifyEnc e f s).tick = s.tick := rfl
@[simp] theorem modifyEnc_faults (e : Nat) (f : Encoder → Encoder) (s : State) : (modifyEnc e f s).faults = s.faults := rfl
@[simp] theorem modifyEnc_pcm (e : Nat) (f : Encoder → Encoder) (s : State) : (modifyEnc e f s).pcm = s.pcm := rfl
@[simp] theorem modifyEnc_answer (e : Nat) (f : Encoder → Encoder) (s : State) : (modifyEnc e f s).answer = s.answer := rfl
@[simp] theorem modifyEnc_lines (e : Nat) (f : Encoder → Encoder) (s : State) : (modifyEnc e f s).lines = s.lines := rfl
@[simp] theorem modifyEnc_eager (e : Nat) (f : Encoder → Encoder) (s : State) : (modifyEnc e f s).eager = s.eager := rfl
@[simp] theorem modifyEnc_drawn (e : Nat) (f : Encoder → Encoder) (s : State) : (modifyEnc e f s).drawn = s.drawn := rfl

/-! ### `setKey` -/

@[simp] theorem setKey_cfg (k : Nat) (x : Key) (s : State) : (setKey k x s).cfg = s.cfg := rfl
@[simp] theorem setKey_seq (k : Nat) (x : Key) (s : State) : (setKey k x s).seq = s.seq := rfl
@[simp] theorem setKey_voices (k : Nat) (x : Key) (s : State) : (setKey k x s).voices = s.voices := rfl
@[simp] theorem setKey_nextGen (k : Nat) (x : Key) (s : State) : (setKey k x s).nextGen = s.nextGen := rfl
@[simp] theorem setKey_keyGen (k : Nat) (x : Key) (s : State) : (setKey k x s).keyGen = s.keyGen := rfl
@[simp] theorem setKey_filt (k : Nat) (x : Key) (s : State) : (setKey k x s).filt = s.filt := rfl
@[simp] theorem setKey_encs (k : Nat) (x : Key) (s : State) : (setKey k x s).encs = s.encs := rfl
@[simp] theorem setKey_keys (k : Nat) (x : Key) (s : State) : (setKey k x s).keys = s.keys.set k x := rfl
@[simp] theorem setKey_cmdq (k : Nat) (x : Key) (s : State) : (setKey k x s).cmdq = s.cmdq := rfl
@[simp] theorem setKey_evq (k : Nat) (x : Key) (s : State) : (setKey k x s).evq = s.evq := rfl
@[simp] theorem setKey_rawq (k : Nat) (x : Key) (s : State) : (setKey k x s).rawq = s.rawq := rfl
@[simp] theorem setKey_sticky (k : Nat) (x : Key) (s : State) : (setKey k x s).sticky = s.sticky := rfl
@[simp] theorem setKey_irqEn (k : Nat) (x : Key) (s : State) : (setKey k x s).irqEn = s.irqEn := rfl
@[simp] theorem setKey_regs (k : Nat) (x : Key) (s : State) : (setKey k x s).regs = s.regs := rfl
@[simp] theorem setKey_keymap (k : Nat) (x : Key) (s : State) : (setKey k x s).keymap = s.keymap := rfl
@[simp] theorem setKey_tick (k : Nat) (x : Key) (s : State) : (setKey k x s).tick = s.tick := rfl
@[simp] theorem setKey_faults (k : Nat) (x : Key) (s : State) : (setKey k x s).faults = s.faults := rfl
@[simp] theorem setKey_pcm (k : Nat) (x : Key) (s : State) : (setKey k x s).pcm = s.pcm := rfl
@[simp] theorem setKey_answer (k : Nat) (x : Key) (s : State) : (setKey k x s).answer = s.answer := rfl
@[simp] theorem setKey_lines (k : Nat) (x : Key) (s : State) : (setKey k x s).lines = s.lines := rfl
@[simp] theorem setKey_eager (k : Nat) (x : Key) (s : State) : (setKey k x s).eager = s.eager := rfl
@[simp] theorem setKey_drawn (k : Nat) (x : Key) (s : State) : (setKey k x s).drawn = s.drawn := rfl

/-! ### `writeRegs` -/

@[simp] theorem writeRegs_cfg (f : Regs → Regs) (s : State) : (writeRegs f s).cfg = s.cfg := rfl
@[simp] theorem writeRegs_seq (f : Regs → Regs) (s : State) : (writeRegs f s).seq = s.seq := rfl
@[simp] theorem writeRegs_voices (f : Regs → Regs) (s : State) : (writeRegs f s).voices = s.voices := rfl
@[simp] theorem writeRegs_nextGen (f : Regs → Regs) (s : State) : (writeRegs f s).nextGen = s.nextGen := rfl
@[simp] theorem writeRegs_keyGen (f : Regs → Regs) (s : State) : (writeRegs f s).keyGen = s.keyGen := rfl
@[simp] theorem writeRegs_filt (f : Regs → Regs) (s : State) : (writeRegs f s).filt = s.filt := rfl
@[simp] theorem writeRegs_encs (f : Regs → Regs) (s : State) : (writeRegs f s).encs = s.encs := rfl
@[simp] theorem writeRegs_keys (f : Regs → Regs) (s : State) : (writeRegs f s).keys = s.keys := rfl
@[simp] theorem writeRegs_cmdq (f : Regs → Regs) (s : State) : (writeRegs f s).cmdq = s.cmdq := rfl
@[simp] theorem writeRegs_evq (f : Regs → Regs) (s : State) : (writeRegs f s).evq = s.evq := rfl
@[simp] theorem writeRegs_rawq (f : Regs → Regs) (s : State) : (writeRegs f s).rawq = s.rawq := rfl
@[simp] theorem writeRegs_sticky (f : Regs → Regs) (s : State) : (writeRegs f s).sticky = s.sticky := rfl
@[simp] theorem writeRegs_irqEn (f : Regs → Regs) (s : State) : (writeRegs f s).irqEn = s.irqEn := rfl
@[simp] theorem writeRegs_regs (f : Regs → Regs) (s : State) : (writeRegs f s).regs = f s.regs := rfl
@[simp] theorem writeRegs_keymap (f : Regs → Regs) (s : State) : (writeRegs f s).keymap = s.keymap := rfl
@[simp] theorem writeRegs_tick (f : Regs → Regs) (s : State) : (writeRegs f s).tick = s.tick := rfl
@[simp] theorem writeRegs_faults (f : Regs → Regs) (s : State) : (writeRegs f s).faults = s.faults := rfl
@[simp] theorem writeRegs_pcm (f : Regs → Regs) (s : State) : (writeRegs f s).pcm = s.pcm := rfl
@[simp] theorem writeRegs_answer (f : Regs → Regs) (s : State) : (writeRegs f s).answer = .written := rfl
@[simp] theorem writeRegs_lines (f : Regs → Regs) (s : State) : (writeRegs f s).lines = s.lines := rfl
@[simp] theorem writeRegs_eager (f : Regs → Regs) (s : State) : (writeRegs f s).eager = s.eager := rfl
@[simp] theorem writeRegs_drawn (f : Regs → Regs) (s : State) : (writeRegs f s).drawn = s.drawn := rfl

/-! ### `writeFilterRegs` -/

@[simp] theorem writeFilterRegs_cfg (f : Regs → Regs) (s : State) : (writeFilterRegs f s).cfg = s.cfg := rfl
@[simp] theorem writeFilterRegs_seq (f : Regs → Regs) (s : State) : (writeFilterRegs f s).seq = s.seq := rfl
@[simp] theorem writeFilterRegs_voices (f : Regs → Regs) (s : State) : (writeFilterRegs f s).voices = s.voices := rfl
@[simp] theorem writeFilterRegs_nextGen (f : Regs → Regs) (s : State) : (writeFilterRegs f s).nextGen = s.nextGen := rfl
@[simp] theorem writeFilterRegs_keyGen (f : Regs → Regs) (s : State) : (writeFilterRegs f s).keyGen = s.keyGen := rfl
@[simp] theorem writeFilterRegs_filt (f : Regs → Regs) (s : State) : (writeFilterRegs f s).filt = { s.filt with dirty := true } := rfl
@[simp] theorem writeFilterRegs_encs (f : Regs → Regs) (s : State) : (writeFilterRegs f s).encs = s.encs := rfl
@[simp] theorem writeFilterRegs_keys (f : Regs → Regs) (s : State) : (writeFilterRegs f s).keys = s.keys := rfl
@[simp] theorem writeFilterRegs_cmdq (f : Regs → Regs) (s : State) : (writeFilterRegs f s).cmdq = s.cmdq := rfl
@[simp] theorem writeFilterRegs_evq (f : Regs → Regs) (s : State) : (writeFilterRegs f s).evq = s.evq := rfl
@[simp] theorem writeFilterRegs_rawq (f : Regs → Regs) (s : State) : (writeFilterRegs f s).rawq = s.rawq := rfl
@[simp] theorem writeFilterRegs_sticky (f : Regs → Regs) (s : State) : (writeFilterRegs f s).sticky = s.sticky := rfl
@[simp] theorem writeFilterRegs_irqEn (f : Regs → Regs) (s : State) : (writeFilterRegs f s).irqEn = s.irqEn := rfl
@[simp] theorem writeFilterRegs_regs (f : Regs → Regs) (s : State) : (writeFilterRegs f s).regs = f s.regs := rfl
@[simp] theorem writeFilterRegs_keymap (f : Regs → Regs) (s : State) : (writeFilterRegs f s).keymap = s.keymap := rfl
@[simp] theorem writeFilterRegs_tick (f : Regs → Regs) (s : State) : (writeFilterRegs f s).tick = s.tick := rfl
@[simp] theorem writeFilterRegs_faults (f : Regs → Regs) (s : State) : (writeFilterRegs f s).faults = s.faults := rfl
@[simp] theorem writeFilterRegs_pcm (f : Regs → Regs) (s : State) : (writeFilterRegs f s).pcm = s.pcm := rfl
@[simp] theorem writeFilterRegs_answer (f : Regs → Regs) (s : State) : (writeFilterRegs f s).answer = .written := rfl
@[simp] theorem writeFilterRegs_lines (f : Regs → Regs) (s : State) : (writeFilterRegs f s).lines = s.lines := rfl
@[simp] theorem writeFilterRegs_eager (f : Regs → Regs) (s : State) : (writeFilterRegs f s).eager = s.eager := rfl
@[simp] theorem writeFilterRegs_drawn (f : Regs → Regs) (s : State) : (writeFilterRegs f s).drawn = s.drawn := rfl

/-! ### `readWord` -/

@[simp] theorem readWord_cfg (w : Word) (s : State) : (readWord w s).cfg = s.cfg := rfl
@[simp] theorem readWord_seq (w : Word) (s : State) : (readWord w s).seq = s.seq := rfl
@[simp] theorem readWord_voices (w : Word) (s : State) : (readWord w s).voices = s.voices := rfl
@[simp] theorem readWord_nextGen (w : Word) (s : State) : (readWord w s).nextGen = s.nextGen := rfl
@[simp] theorem readWord_keyGen (w : Word) (s : State) : (readWord w s).keyGen = s.keyGen := rfl
@[simp] theorem readWord_filt (w : Word) (s : State) : (readWord w s).filt = s.filt := rfl
@[simp] theorem readWord_encs (w : Word) (s : State) : (readWord w s).encs = s.encs := rfl
@[simp] theorem readWord_keys (w : Word) (s : State) : (readWord w s).keys = s.keys := rfl
@[simp] theorem readWord_cmdq (w : Word) (s : State) : (readWord w s).cmdq = s.cmdq := rfl
@[simp] theorem readWord_evq (w : Word) (s : State) : (readWord w s).evq = s.evq := rfl
@[simp] theorem readWord_rawq (w : Word) (s : State) : (readWord w s).rawq = s.rawq := rfl
@[simp] theorem readWord_sticky (w : Word) (s : State) : (readWord w s).sticky = s.sticky := rfl
@[simp] theorem readWord_irqEn (w : Word) (s : State) : (readWord w s).irqEn = s.irqEn := rfl
@[simp] theorem readWord_regs (w : Word) (s : State) : (readWord w s).regs = s.regs := rfl
@[simp] theorem readWord_keymap (w : Word) (s : State) : (readWord w s).keymap = s.keymap := rfl
@[simp] theorem readWord_tick (w : Word) (s : State) : (readWord w s).tick = s.tick := rfl
@[simp] theorem readWord_faults (w : Word) (s : State) : (readWord w s).faults = s.faults := rfl
@[simp] theorem readWord_pcm (w : Word) (s : State) : (readWord w s).pcm = s.pcm := rfl
@[simp] theorem readWord_answer (w : Word) (s : State) : (readWord w s).answer = .rdata w := rfl
@[simp] theorem readWord_lines (w : Word) (s : State) : (readWord w s).lines = s.lines := rfl
@[simp] theorem readWord_eager (w : Word) (s : State) : (readWord w s).eager = s.eager := rfl
@[simp] theorem readWord_drawn (w : Word) (s : State) : (readWord w s).drawn = s.drawn := rfl

/-! ### `raiseFault` -/

@[simp] theorem raiseFault_cfg (k : FaultKind) (s : State) : (raiseFault k s).cfg = s.cfg := by cases k <;> rfl
@[simp] theorem raiseFault_seq (k : FaultKind) (s : State) : (raiseFault k s).seq = s.seq := by cases k <;> rfl
@[simp] theorem raiseFault_voices (k : FaultKind) (s : State) : (raiseFault k s).voices = s.voices := by cases k <;> rfl
@[simp] theorem raiseFault_nextGen (k : FaultKind) (s : State) : (raiseFault k s).nextGen = s.nextGen := by cases k <;> rfl
@[simp] theorem raiseFault_keyGen (k : FaultKind) (s : State) : (raiseFault k s).keyGen = s.keyGen := by cases k <;> rfl
@[simp] theorem raiseFault_filt (k : FaultKind) (s : State) : (raiseFault k s).filt = s.filt := by cases k <;> rfl
@[simp] theorem raiseFault_encs (k : FaultKind) (s : State) : (raiseFault k s).encs = s.encs := by cases k <;> rfl
@[simp] theorem raiseFault_keys (k : FaultKind) (s : State) : (raiseFault k s).keys = s.keys := by cases k <;> rfl
@[simp] theorem raiseFault_cmdq (k : FaultKind) (s : State) : (raiseFault k s).cmdq = s.cmdq := by cases k <;> rfl
@[simp] theorem raiseFault_evq (k : FaultKind) (s : State) : (raiseFault k s).evq = s.evq := by cases k <;> rfl
@[simp] theorem raiseFault_rawq (k : FaultKind) (s : State) : (raiseFault k s).rawq = s.rawq := by cases k <;> rfl
@[simp] theorem raiseFault_sticky (k : FaultKind) (s : State) : (raiseFault k s).sticky = s.sticky := by cases k <;> rfl
@[simp] theorem raiseFault_irqEn (k : FaultKind) (s : State) : (raiseFault k s).irqEn = s.irqEn := by cases k <;> rfl
@[simp] theorem raiseFault_regs (k : FaultKind) (s : State) : (raiseFault k s).regs = s.regs := by cases k <;> rfl
@[simp] theorem raiseFault_keymap (k : FaultKind) (s : State) : (raiseFault k s).keymap = s.keymap := by cases k <;> rfl
@[simp] theorem raiseFault_tick (k : FaultKind) (s : State) : (raiseFault k s).tick = s.tick := by cases k <;> rfl
@[simp] theorem raiseFault_pcm (k : FaultKind) (s : State) : (raiseFault k s).pcm = s.pcm := by cases k <;> rfl
@[simp] theorem raiseFault_answer (k : FaultKind) (s : State) : (raiseFault k s).answer = s.answer := by cases k <;> rfl
@[simp] theorem raiseFault_lines (k : FaultKind) (s : State) : (raiseFault k s).lines = s.lines := by cases k <;> rfl
@[simp] theorem raiseFault_eager (k : FaultKind) (s : State) : (raiseFault k s).eager = s.eager := by cases k <;> rfl
@[simp] theorem raiseFault_drawn (k : FaultKind) (s : State) : (raiseFault k s).drawn = s.drawn := by cases k <;> rfl
@[simp] theorem raiseFault_busError_faults (s : State) :
    (raiseFault .busError s).faults = { s.faults with busError := true } := rfl
@[simp] theorem raiseFault_deadlineMiss_faults (s : State) :
    (raiseFault .deadlineMiss s).faults = { s.faults with deadlineMiss := true } := rfl

/-! ### `pushCmd` -/

@[simp] theorem pushCmd_cfg (r : Cmd) (s : State) : (pushCmd r s).cfg = s.cfg := by unfold pushCmd; split <;> rfl
@[simp] theorem pushCmd_seq (r : Cmd) (s : State) : (pushCmd r s).seq = s.seq := by unfold pushCmd; split <;> rfl
@[simp] theorem pushCmd_voices (r : Cmd) (s : State) : (pushCmd r s).voices = s.voices := by unfold pushCmd; split <;> rfl
@[simp] theorem pushCmd_nextGen (r : Cmd) (s : State) : (pushCmd r s).nextGen = s.nextGen := by unfold pushCmd; split <;> rfl
@[simp] theorem pushCmd_keyGen (r : Cmd) (s : State) : (pushCmd r s).keyGen = s.keyGen := by unfold pushCmd; split <;> rfl
@[simp] theorem pushCmd_filt (r : Cmd) (s : State) : (pushCmd r s).filt = s.filt := by unfold pushCmd; split <;> rfl
@[simp] theorem pushCmd_encs (r : Cmd) (s : State) : (pushCmd r s).encs = s.encs := by unfold pushCmd; split <;> rfl
@[simp] theorem pushCmd_keys (r : Cmd) (s : State) : (pushCmd r s).keys = s.keys := by unfold pushCmd; split <;> rfl
@[simp] theorem pushCmd_cmdq (r : Cmd) (s : State) : (pushCmd r s).cmdq = if s.cmdq.length < s.cfg.cmdqDepth then s.cmdq ++ [r] else s.cmdq := by unfold pushCmd; split <;> rfl
@[simp] theorem pushCmd_evq (r : Cmd) (s : State) : (pushCmd r s).evq = s.evq := by unfold pushCmd; split <;> rfl
@[simp] theorem pushCmd_rawq (r : Cmd) (s : State) : (pushCmd r s).rawq = s.rawq := by unfold pushCmd; split <;> rfl
@[simp] theorem pushCmd_sticky (r : Cmd) (s : State) : (pushCmd r s).sticky = if s.cmdq.length < s.cfg.cmdqDepth then s.sticky else s.sticky ||| 1#5 := by unfold pushCmd; split <;> rfl
@[simp] theorem pushCmd_irqEn (r : Cmd) (s : State) : (pushCmd r s).irqEn = s.irqEn := by unfold pushCmd; split <;> rfl
@[simp] theorem pushCmd_regs (r : Cmd) (s : State) : (pushCmd r s).regs = s.regs := by unfold pushCmd; split <;> rfl
@[simp] theorem pushCmd_keymap (r : Cmd) (s : State) : (pushCmd r s).keymap = s.keymap := by unfold pushCmd; split <;> rfl
@[simp] theorem pushCmd_tick (r : Cmd) (s : State) : (pushCmd r s).tick = s.tick := by unfold pushCmd; split <;> rfl
@[simp] theorem pushCmd_faults (r : Cmd) (s : State) : (pushCmd r s).faults = s.faults := by unfold pushCmd; split <;> rfl
@[simp] theorem pushCmd_pcm (r : Cmd) (s : State) : (pushCmd r s).pcm = s.pcm := by unfold pushCmd; split <;> rfl
@[simp] theorem pushCmd_answer (r : Cmd) (s : State) : (pushCmd r s).answer = s.answer := by unfold pushCmd; split <;> rfl
@[simp] theorem pushCmd_lines (r : Cmd) (s : State) : (pushCmd r s).lines = s.lines := by unfold pushCmd; split <;> rfl
@[simp] theorem pushCmd_eager (r : Cmd) (s : State) : (pushCmd r s).eager = s.eager := by unfold pushCmd; split <;> rfl
@[simp] theorem pushCmd_drawn (r : Cmd) (s : State) : (pushCmd r s).drawn = s.drawn := by unfold pushCmd; split <;> rfl

/-! ### `pushEvent` -/

@[simp] theorem pushEvent_cfg (r : Event) (s : State) : (pushEvent r s).cfg = s.cfg := by unfold pushEvent; split <;> rfl
@[simp] theorem pushEvent_seq (r : Event) (s : State) : (pushEvent r s).seq = s.seq := by unfold pushEvent; split <;> rfl
@[simp] theorem pushEvent_voices (r : Event) (s : State) : (pushEvent r s).voices = s.voices := by unfold pushEvent; split <;> rfl
@[simp] theorem pushEvent_nextGen (r : Event) (s : State) : (pushEvent r s).nextGen = s.nextGen := by unfold pushEvent; split <;> rfl
@[simp] theorem pushEvent_keyGen (r : Event) (s : State) : (pushEvent r s).keyGen = s.keyGen := by unfold pushEvent; split <;> rfl
@[simp] theorem pushEvent_filt (r : Event) (s : State) : (pushEvent r s).filt = s.filt := by unfold pushEvent; split <;> rfl
@[simp] theorem pushEvent_encs (r : Event) (s : State) : (pushEvent r s).encs = s.encs := by unfold pushEvent; split <;> rfl
@[simp] theorem pushEvent_keys (r : Event) (s : State) : (pushEvent r s).keys = s.keys := by unfold pushEvent; split <;> rfl
@[simp] theorem pushEvent_cmdq (r : Event) (s : State) : (pushEvent r s).cmdq = s.cmdq := by unfold pushEvent; split <;> rfl
@[simp] theorem pushEvent_evq (r : Event) (s : State) : (pushEvent r s).evq = if s.evq.length < s.cfg.evqDepth then s.evq ++ [r] else s.evq := by unfold pushEvent; split <;> rfl
@[simp] theorem pushEvent_rawq (r : Event) (s : State) : (pushEvent r s).rawq = s.rawq := by unfold pushEvent; split <;> rfl
@[simp] theorem pushEvent_sticky (r : Event) (s : State) : (pushEvent r s).sticky = if s.evq.length < s.cfg.evqDepth then s.sticky else s.sticky ||| 4#5 := by unfold pushEvent; split <;> rfl
@[simp] theorem pushEvent_irqEn (r : Event) (s : State) : (pushEvent r s).irqEn = s.irqEn := by unfold pushEvent; split <;> rfl
@[simp] theorem pushEvent_regs (r : Event) (s : State) : (pushEvent r s).regs = s.regs := by unfold pushEvent; split <;> rfl
@[simp] theorem pushEvent_keymap (r : Event) (s : State) : (pushEvent r s).keymap = s.keymap := by unfold pushEvent; split <;> rfl
@[simp] theorem pushEvent_tick (r : Event) (s : State) : (pushEvent r s).tick = s.tick := by unfold pushEvent; split <;> rfl
@[simp] theorem pushEvent_faults (r : Event) (s : State) : (pushEvent r s).faults = s.faults := by unfold pushEvent; split <;> rfl
@[simp] theorem pushEvent_pcm (r : Event) (s : State) : (pushEvent r s).pcm = s.pcm := by unfold pushEvent; split <;> rfl
@[simp] theorem pushEvent_answer (r : Event) (s : State) : (pushEvent r s).answer = s.answer := by unfold pushEvent; split <;> rfl
@[simp] theorem pushEvent_lines (r : Event) (s : State) : (pushEvent r s).lines = s.lines := by unfold pushEvent; split <;> rfl
@[simp] theorem pushEvent_eager (r : Event) (s : State) : (pushEvent r s).eager = s.eager := by unfold pushEvent; split <;> rfl
@[simp] theorem pushEvent_drawn (r : Event) (s : State) : (pushEvent r s).drawn = s.drawn := by unfold pushEvent; split <;> rfl

/-! ### `pushRaw` -/

@[simp] theorem pushRaw_cfg (r : BitVec 64) (s : State) : (pushRaw r s).cfg = s.cfg := by unfold pushRaw; split <;> rfl
@[simp] theorem pushRaw_seq (r : BitVec 64) (s : State) : (pushRaw r s).seq = s.seq := by unfold pushRaw; split <;> rfl
@[simp] theorem pushRaw_voices (r : BitVec 64) (s : State) : (pushRaw r s).voices = s.voices := by unfold pushRaw; split <;> rfl
@[simp] theorem pushRaw_nextGen (r : BitVec 64) (s : State) : (pushRaw r s).nextGen = s.nextGen := by unfold pushRaw; split <;> rfl
@[simp] theorem pushRaw_keyGen (r : BitVec 64) (s : State) : (pushRaw r s).keyGen = s.keyGen := by unfold pushRaw; split <;> rfl
@[simp] theorem pushRaw_filt (r : BitVec 64) (s : State) : (pushRaw r s).filt = s.filt := by unfold pushRaw; split <;> rfl
@[simp] theorem pushRaw_encs (r : BitVec 64) (s : State) : (pushRaw r s).encs = s.encs := by unfold pushRaw; split <;> rfl
@[simp] theorem pushRaw_keys (r : BitVec 64) (s : State) : (pushRaw r s).keys = s.keys := by unfold pushRaw; split <;> rfl
@[simp] theorem pushRaw_cmdq (r : BitVec 64) (s : State) : (pushRaw r s).cmdq = s.cmdq := by unfold pushRaw; split <;> rfl
@[simp] theorem pushRaw_evq (r : BitVec 64) (s : State) : (pushRaw r s).evq = s.evq := by unfold pushRaw; split <;> rfl
@[simp] theorem pushRaw_rawq (r : BitVec 64) (s : State) : (pushRaw r s).rawq = if s.rawq.length < s.cfg.rawqDepth then s.rawq ++ [r] else s.rawq := by unfold pushRaw; split <;> rfl
@[simp] theorem pushRaw_sticky (r : BitVec 64) (s : State) : (pushRaw r s).sticky = if s.rawq.length < s.cfg.rawqDepth then s.sticky else s.sticky ||| 8#5 := by unfold pushRaw; split <;> rfl
@[simp] theorem pushRaw_irqEn (r : BitVec 64) (s : State) : (pushRaw r s).irqEn = s.irqEn := by unfold pushRaw; split <;> rfl
@[simp] theorem pushRaw_regs (r : BitVec 64) (s : State) : (pushRaw r s).regs = s.regs := by unfold pushRaw; split <;> rfl
@[simp] theorem pushRaw_keymap (r : BitVec 64) (s : State) : (pushRaw r s).keymap = s.keymap := by unfold pushRaw; split <;> rfl
@[simp] theorem pushRaw_tick (r : BitVec 64) (s : State) : (pushRaw r s).tick = s.tick := by unfold pushRaw; split <;> rfl
@[simp] theorem pushRaw_faults (r : BitVec 64) (s : State) : (pushRaw r s).faults = s.faults := by unfold pushRaw; split <;> rfl
@[simp] theorem pushRaw_pcm (r : BitVec 64) (s : State) : (pushRaw r s).pcm = s.pcm := by unfold pushRaw; split <;> rfl
@[simp] theorem pushRaw_answer (r : BitVec 64) (s : State) : (pushRaw r s).answer = s.answer := by unfold pushRaw; split <;> rfl
@[simp] theorem pushRaw_lines (r : BitVec 64) (s : State) : (pushRaw r s).lines = s.lines := by unfold pushRaw; split <;> rfl
@[simp] theorem pushRaw_eager (r : BitVec 64) (s : State) : (pushRaw r s).eager = s.eager := by unfold pushRaw; split <;> rfl
@[simp] theorem pushRaw_drawn (r : BitVec 64) (s : State) : (pushRaw r s).drawn = s.drawn := by unfold pushRaw; split <;> rfl

/-! ### `setNotify` -/

@[simp] theorem setNotify_busy (h : BitVec 1) (b : Bool) (q : Seq) : (setNotify h b q).busy = q.busy := by
  unfold setNotify; split <;> rfl
@[simp] theorem setNotify_cur (h : BitVec 1) (b : Bool) (q : Seq) : (setNotify h b q).cur = q.cur := by
  unfold setNotify; split <;> rfl
@[simp] theorem setNotify_j (h : BitVec 1) (b : Bool) (q : Seq) : (setNotify h b q).j = q.j := by
  unfold setNotify; split <;> rfl
@[simp] theorem setNotify_nextHalf (h : BitVec 1) (b : Bool) (q : Seq) : (setNotify h b q).nextHalf = q.nextHalf := by
  unfold setNotify; split <;> rfl
@[simp] theorem notify_setNotify_same (h : BitVec 1) (b : Bool) (q : Seq) : notify h (setNotify h b q) = b := by
  unfold notify setNotify; split <;> simp_all

theorem bit_cases (h : BitVec 1) : h = 0#1 ∨ h = 1#1 := by
  revert h; decide

theorem notify_setNotify_other {h g : BitVec 1} (hg : g ≠ h) (b : Bool) (q : Seq) :
    notify g (setNotify h b q) = notify g q := by
  rcases bit_cases h with rfl | rfl <;> rcases bit_cases g with rfl | rfl <;> first | rfl | exact absurd rfl hg

end Sys2Proof.Machine
end

