-- ==== Sys2Proof/Laws/Memory.lean ====
section
/-! SUPPORT. The laws of the PCM buffer: the canonical form is kept, a byte read after a write is the byte written, and every other
byte stays. -/

namespace Sys2Proof.Machine

theorem memory_wf_iff (m : List Host.Cell) :
    Memory.wf m = true ↔ m.Pairwise (fun c d => c.1 < d.1) ∧ ∀ c ∈ m, c.2 ≠ Config.pcmPowerUp c.1 := by
  simp only [Memory.wf, decide_eq_true_eq]

/-! ### The two halves of a store -/

theorem mem_memErase {a : Nat} {m : List Host.Cell} {c : Host.Cell} : c ∈ memErase a m ↔ c ∈ m ∧ c.1 ≠ a := by
  simp [memErase]

theorem mem_memInsert {a : Nat} {x : Byte} {m : List Host.Cell} {c : Host.Cell} :
    c ∈ memInsert a x m ↔ c = (a, x) ∨ c ∈ m := by
  induction m with
  | nil => simp [memInsert]
  | cons d m ih =>
    simp only [memInsert]
    split
    · simp
    · simp only [List.mem_cons, ih]; tauto

theorem memErase_wf (a : Nat) {m : List Host.Cell} (h : Memory.wf m = true) : Memory.wf (memErase a m) = true := by
  rw [memory_wf_iff] at *
  exact ⟨h.1.filter _, fun c hc => h.2 c (mem_memErase.1 hc).1⟩

theorem memInsert_wf {a : Nat} {x : Byte} {m : List Host.Cell} (h : Memory.wf m = true) (hm : ∀ c ∈ m, c.1 ≠ a)
    (hx : x ≠ Config.pcmPowerUp a) : Memory.wf (memInsert a x m) = true := by
  rw [memory_wf_iff] at *
  refine ⟨?_, fun c hc => ?_⟩
  · replace h := h.1
    induction m with
    | nil => simp [memInsert]
    | cons d m ih =>
      obtain ⟨hd, hs⟩ := List.pairwise_cons.1 h
      simp only [memInsert]
      split
      · next hlt =>
        refine List.pairwise_cons.2 ⟨fun c hc => ?_, h⟩
        rcases List.mem_cons.1 hc with rfl | hc
        · exact hlt
        · exact Nat.lt_trans hlt (hd c hc)
      · next hge =>
        refine List.pairwise_cons.2 ⟨fun c hc => ?_, ih (fun c hc => hm c (by simp [hc])) hs⟩
        rcases mem_memInsert.1 hc with rfl | hc
        · have := hm d (by simp)
          omega
        · exact hd c hc
  · rcases mem_memInsert.1 hc with rfl | hc
    · exact hx
    · exact h.2 c hc

theorem memLookup_unlisted {a : Nat} {m : List Host.Cell} (h : ∀ c ∈ m, c.1 ≠ a) : memLookup a m = Config.pcmPowerUp a := by
  induction m with
  | nil => rfl
  | cons d m ih =>
    rw [memLookup, if_neg (fun e => h d (by simp) e.symm), ih (fun c hc => h c (by simp [hc]))]

theorem memLookup_memErase_other {a x : Nat} (h : a ≠ x) (m : List Host.Cell) : memLookup a (memErase x m) = memLookup a m := by
  induction m with
  | nil => rfl
  | cons d m ih =>
    by_cases hd : d.1 = x
    · have : memErase x (d :: m) = memErase x m := by simp [memErase, hd]
      rw [this, ih, memLookup, if_neg (by omega)]
    · have : memErase x (d :: m) = d :: memErase x m := by simp [memErase, hd]
      rw [this, memLookup, memLookup, ih]

theorem memLookup_memInsert {a x : Nat} (v : Byte) {m : List Host.Cell} (hm : ∀ c ∈ m, c.1 ≠ x) :
    memLookup a (memInsert x v m) = if a = x then v else memLookup a m := by
  induction m with
  | nil => rfl
  | cons d m ih =>
    have hd := hm d (by simp)
    simp only [memInsert]
    split
    · rfl
    · simp only [memLookup, ih (fun c hc => hm c (by simp [hc]))]
      by_cases h : a = d.1
      · rw [if_pos h, if_pos h, if_neg (by omega)]
      · rw [if_neg h, if_neg h]

/-! ### A store of one byte -/

/-- A store keeps the canonical form. -/
theorem memStore_wf (x : Nat) (v : Byte) {m : List Host.Cell} (h : Memory.wf m = true) :
    Memory.wf (memStore x v m) = true := by
  unfold memStore
  split
  · exact memErase_wf x h
  · next hv => exact memInsert_wf (memErase_wf x h) (fun c hc => (mem_memErase.1 hc).2) hv

/-- What a byte reads as after a store, in any list, canonical or not. -/
theorem memLookup_memStore (a x : Nat) (v : Byte) (m : List Host.Cell) :
    memLookup a (memStore x v m) = if a = x then v else memLookup a m := by
  have hm : ∀ c ∈ memErase x m, c.1 ≠ x := fun c hc => (mem_memErase.1 hc).2
  by_cases h : a = x
  · subst h
    unfold memStore
    split
    · next hv => rw [memLookup_unlisted hm, if_pos rfl, hv]
    · rw [memLookup_memInsert v hm, if_pos rfl, if_pos rfl]
  · unfold memStore
    rw [if_neg h, ← memLookup_memErase_other h m]
    split
    · rfl
    · rw [memLookup_memInsert v hm, if_neg h]

theorem memStore_within {n x : Nat} {v : Byte} {m : List Host.Cell} (hx : x < n) (h : ∀ c ∈ m, c.1 < n) :
    ∀ c ∈ memStore x v m, c.1 < n := by
  intro c hc
  unfold memStore at hc
  split at hc
  · exact h c (mem_memErase.1 hc).1
  · rcases mem_memInsert.1 hc with rfl | hc
    · exact hx
    · exact h c (mem_memErase.1 hc).1

/-- The buffer after a halfword store. -/
def pcmAfter16 (off : Nat) (v : BitVec 16) (m : List Host.Cell) : List Host.Cell :=
  memStore (off + 1) (v.extractLsb' 8 8) (memStore off (v.extractLsb' 0 8) m)

/-- Everything a halfword store can do: inside the buffer it changes `pcm` alone, outside it is refused. -/
theorem memWrite16_eq (off : Nat) (v : BitVec 16) (s : State) :
    memWrite16 off v s = if off + 1 < s.cfg.pcmBytes then some { s with pcm := pcmAfter16 off v s.pcm } else none := rfl

theorem pcmAfter16_lookup (off : Nat) (v : BitVec 16) (m : List Host.Cell) (a : Nat) :
    memLookup a (pcmAfter16 off v m) =
      if a = off then v.extractLsb' 0 8 else if a = off + 1 then v.extractLsb' 8 8 else memLookup a m := by
  unfold pcmAfter16
  rw [memLookup_memStore, memLookup_memStore]
  split_ifs <;> first | rfl | omega

theorem pcmAfter16_wf (off : Nat) (v : BitVec 16) {m : List Host.Cell} (h : Memory.wf m = true) :
    Memory.wf (pcmAfter16 off v m) = true := memStore_wf _ _ (memStore_wf _ _ h)

theorem pcmAfter16_within {n off : Nat} {v : BitVec 16} {m : List Host.Cell} (ho : off + 1 < n) (h : ∀ c ∈ m, c.1 < n) :
    ∀ c ∈ pcmAfter16 off v m, c.1 < n := memStore_within ho (memStore_within (by omega) h)

/-- The same buffer behind the same base reads the same everywhere. -/
theorem memRead_congr {s t : State} (hc : t.cfg = s.cfg) (hp : t.pcm = s.pcm) (a : Nat) : memRead t a = memRead s a := by
  unfold memRead; rw [hc, hp]

theorem launch_pcm_wf (c : Params) (pins : Word) : Memory.wf (State.launch c pins).pcm = true := rfl

theorem reset_pcm_wf : Memory.wf State.reset.pcm = true := rfl

/-- What the DMA reads: of a frame of the buffer its four bytes, of any other nothing (R102). -/
theorem dmaReadFrame_eq (s : State) (i : Nat) :
    dmaReadFrame s i =
      if i < s.cfg.bufFrames then
        some (memLookup (4 * i + 3) s.pcm ++ memLookup (4 * i + 2) s.pcm ++ memLookup (4 * i + 1) s.pcm ++
          memLookup (4 * i) s.pcm)
      else none := by
  have key : ∀ n < 4, memRead s (s.cfg.pcmBase + 4 * i + n) =
      if i < s.cfg.bufFrames then some (memLookup (4 * i + n) s.pcm) else none := by
    intro n hn
    unfold memRead
    rw [show s.cfg.pcmBase + 4 * i + n - s.cfg.pcmBase = 4 * i + n by omega]
    unfold Params.pcmBytes
    exact if_congr (by omega) rfl rfl
  unfold dmaReadFrame
  simp only [key 0 (by omega), key 1 (by omega), key 2 (by omega), key 3 (by omega)]
  split_ifs <;> rfl

/-! ### One frame's four bytes -/

/-- The buffer after both samples of frame `i`. -/
def pcmAfterFrame (i : Nat) (v : BitVec 16) (m : List Host.Cell) : List Host.Cell :=
  pcmAfter16 (4 * i + 2) v (pcmAfter16 (4 * i) v m)

/-- Everything a frame's two stores can do: for a frame of the buffer, `pcm` alone changes; for another they are refused. -/
theorem writeFrame_eq (i : Nat) (v : BitVec 16) (s : State) :
    writeFrame i v s = if i < s.cfg.bufFrames then some { s with pcm := pcmAfterFrame i v s.pcm } else none := by
  unfold writeFrame
  rw [memWrite16_eq]
  by_cases h : i < s.cfg.bufFrames
  · have h1 : 4 * i + 1 < s.cfg.pcmBytes := by unfold Params.pcmBytes; omega
    have h2 : 4 * i + 2 + 1 < s.cfg.pcmBytes := by unfold Params.pcmBytes; omega
    rw [if_pos h1, if_pos h, Option.bind_some, memWrite16_eq, if_pos h2]
    rfl
  · have h1 : ¬ 4 * i + 1 < s.cfg.pcmBytes := by unfold Params.pcmBytes; omega
    rw [if_neg h1, if_neg h]
    rfl

theorem pcmAfterFrame_lookup (i : Nat) (v : BitVec 16) (m : List Host.Cell) (a : Nat) :
    memLookup a (pcmAfterFrame i v m) =
      if a = 4 * i ∨ a = 4 * i + 2 then v.extractLsb' 0 8
      else if a = 4 * i + 1 ∨ a = 4 * i + 3 then v.extractLsb' 8 8
      else memLookup a m := by
  unfold pcmAfterFrame
  rw [pcmAfter16_lookup, pcmAfter16_lookup]
  split_ifs <;> first | rfl | omega

theorem pcmAfterFrame_wf (i : Nat) (v : BitVec 16) {m : List Host.Cell} (h : Memory.wf m = true) :
    Memory.wf (pcmAfterFrame i v m) = true := pcmAfter16_wf _ _ (pcmAfter16_wf _ _ h)

theorem pcmAfterFrame_within {n i : Nat} {v : BitVec 16} {m : List Host.Cell} (hi : 4 * i + 3 < n)
    (h : ∀ c ∈ m, c.1 < n) : ∀ c ∈ pcmAfterFrame i v m, c.1 < n :=
  pcmAfter16_within (by omega) (pcmAfter16_within (by omega) h)

end Sys2Proof.Machine
end

