-- ==== Sys2Proof/Laws/Float.lean ====
section
/-! SUPPORT. What the binary32 operations give: codes order the magnitudes, RN is monotone and keeps what binary32 can hold, sums and
quotients of values without a sign have none. -/

namespace Sys2Proof.Machine

/-! ### Bit patterns -/

theorem fcode_of_lt {x : F32} (h : x.toNat < 2 ^ 31) : fcode x = x.toNat := Nat.mod_eq_of_lt h

theorem fneg?_of_lt {x : F32} (h : x.toNat < 2 ^ 31) : fneg? x = false := by
  unfold fneg?
  rw [BitVec.getLsbD, Nat.testBit_lt_two_pow h]

theorem fcode_fnegate (x : F32) : fcode (fnegate x) = fcode x := by
  unfold fcode fnegate
  rw [BitVec.toNat_xor]
  have : (0x80000000#32).toNat = 2 ^ 31 := rfl
  rw [this, Nat.xor_mod_two_pow]
  simp

theorem fneg?_fnegate (x : F32) : fneg? (fnegate x) = !fneg? x := by
  unfold fneg? fnegate
  rw [BitVec.getLsbD_xor]
  have : (0x80000000#32).getLsbD 31 = true := by decide
  rw [this, Bool.xor_true]

theorem toNat_fpack {c : Nat} (n : Bool) (h : c < 2 ^ 31) : (fpack n c).toNat = (if n then 2 ^ 31 else 0) + c := by
  unfold fpack
  rw [BitVec.toNat_ofNat]
  apply Nat.mod_eq_of_lt
  split <;> omega

theorem fcode_fpack {c : Nat} (n : Bool) (h : c < 2 ^ 31) : fcode (fpack n c) = c := by
  unfold fcode
  rw [toNat_fpack n h]
  cases n <;> simp <;> omega

theorem fneg?_fpack {c : Nat} (n : Bool) (h : c < 2 ^ 31) : fneg? (fpack n c) = n := by
  unfold fneg?
  rw [BitVec.getLsbD, toNat_fpack n h]
  cases n
  · simpa using Nat.testBit_lt_two_pow h
  · simp only [if_true]
    rw [Nat.testBit_two_pow_add_eq, Nat.testBit_lt_two_pow h]; rfl

theorem infCode_lt : infCode < 2 ^ 31 := by decide

/-! ### Units -/

/-- The units of a code. -/
def codeUnits (c : Nat) : Nat := if c / 2 ^ 23 = 0 then c % 2 ^ 23 else (c % 2 ^ 23 + 2 ^ 23) * 2 ^ (c / 2 ^ 23 - 1)

theorem funits_eq (x : F32) : funits x = codeUnits (fcode x) := rfl

theorem codeUnits_small {c : Nat} (h : c < 2 ^ 23) : codeUnits c = c := by
  unfold codeUnits
  rw [if_pos (by omega)]; omega

theorem codeUnits_pack {k m : Nat} (h1 : 2 ^ 23 ≤ m) (h2 : m < 2 ^ 24) : codeUnits (k * 2 ^ 23 + m) = m * 2 ^ k := by
  unfold codeUnits
  have hd : (k * 2 ^ 23 + m) / 2 ^ 23 = k + 1 := by omega
  have hm : (k * 2 ^ 23 + m) % 2 ^ 23 = m - 2 ^ 23 := by omega
  rw [hd, hm, if_neg (by omega), Nat.sub_add_cancel h1, Nat.add_sub_cancel]

/-- A code from 2^23 up is an exponent and a 24-bit fraction. -/
theorem code_split {c : Nat} (h : 2 ^ 23 ≤ c) : ∃ k m, c = k * 2 ^ 23 + m ∧ 2 ^ 23 ≤ m ∧ m < 2 ^ 24 :=
  ⟨c / 2 ^ 23 - 1, c % 2 ^ 23 + 2 ^ 23, by omega, by omega, by omega⟩

theorem codeUnits_lt_succ (c : Nat) : codeUnits c < codeUnits (c + 1) := by
  rcases Nat.lt_or_ge (c + 1) (2 ^ 23) with h | h
  · rw [codeUnits_small h, codeUnits_small (by omega)]; omega
  · rcases Nat.lt_or_ge c (2 ^ 23) with h' | h'
    · have hc : c + 1 = 0 * 2 ^ 23 + 2 ^ 23 := by omega
      rw [codeUnits_small h', hc, codeUnits_pack (by omega) (by omega)]; omega
    · obtain ⟨k, m, rfl, h1, h2⟩ := code_split h'
      rw [codeUnits_pack h1 h2]
      rcases Nat.lt_or_ge (m + 1) (2 ^ 24) with h3 | h3
      · rw [show k * 2 ^ 23 + m + 1 = k * 2 ^ 23 + (m + 1) by omega, codeUnits_pack (by omega) h3]
        exact Nat.mul_lt_mul_of_pos_right (by omega) (by positivity)
      · rw [show k * 2 ^ 23 + m + 1 = (k + 1) * 2 ^ 23 + 2 ^ 23 by omega, codeUnits_pack (by omega) (by omega)]
        have hm : m < 2 ^ 23 * 2 := by omega
        calc m * 2 ^ k < 2 ^ 23 * 2 * 2 ^ k := Nat.mul_lt_mul_of_pos_right hm (by positivity)
          _ = 2 ^ 23 * 2 ^ (k + 1) := by ring

theorem codeUnits_strictMono : StrictMono codeUnits := strictMono_nat_of_lt_succ codeUnits_lt_succ

theorem funits_le_iff (a b : F32) : funits a ≤ funits b ↔ fcode a ≤ fcode b := codeUnits_strictMono.le_iff_le

theorem funits_lt_iff (a b : F32) : funits a < funits b ↔ fcode a < fcode b := codeUnits_strictMono.lt_iff_lt

theorem codeUnits_zero : codeUnits 0 = 0 := rfl

theorem funits_eq_zero_iff (a : F32) : funits a = 0 ↔ fcode a = 0 := by
  rw [funits_eq, ← codeUnits_zero]; exact codeUnits_strictMono.injective.eq_iff

/-! ### RN -/

theorem rne_one (n : Nat) : rne n 1 = n := by simp [rne, Nat.mod_one]

theorem rne_mul (q : Nat) {d : Nat} (h : 0 < d) : rne (q * d) d = q := by
  simp [rne, Nat.mul_div_cancel _ h, h]

theorem rne_mono {n n' : Nat} (d : Nat) (h : n ≤ n') : rne n d ≤ rne n' d := by
  have hq : n / d ≤ n' / d := Nat.div_le_div_right h
  rcases Nat.lt_or_ge (n / d) (n' / d) with hlt | hge
  · have h1 : rne n d ≤ n / d + 1 := by unfold rne; simp only []; split_ifs <;> omega
    have h2 : n' / d ≤ rne n' d := by unfold rne; simp only []; split_ifs <;> omega
    omega
  · have he : n / d = n' / d := by omega
    have hr : n % d ≤ n' % d := by
      have a1 := Nat.div_add_mod n d
      have a2 := Nat.div_add_mod n' d
      rw [he] at a1; omega
    unfold rne
    simp only [he]
    split_ifs <;> omega

theorem rnCode_le_inf (n d : Nat) : rnCode n d ≤ infCode := Nat.min_le_right _ _

theorem rnCode_lt (n d : Nat) : rnCode n d < 2 ^ 31 := Nat.lt_of_le_of_lt (rnCode_le_inf n d) infCode_lt

/-- RN of a whole number of units, before the cap at infinity. -/
def rnFree (n : Nat) : Nat := (n.log2 - 23) * 2 ^ 23 + rne n (2 ^ (n.log2 - 23))

theorem rnCode_one (n : Nat) : rnCode n 1 = min (rnFree n) infCode := by simp [rnCode, rnFree]

theorem rnFree_small {n : Nat} (h : n < 2 ^ 24) : rnFree n = n := by
  have : n.log2 - 23 = 0 := by
    rcases Nat.eq_zero_or_pos n with rfl | hp
    · simp
    · have := (Nat.log2_lt (by omega)).2 h; omega
  simp [rnFree, this, rne_one]

theorem rnFree_big {n k : Nat} (h1 : 2 ^ (23 + k) ≤ n) (h2 : n < 2 ^ (24 + k)) :
    rnFree n = k * 2 ^ 23 + rne n (2 ^ k) ∧ 2 ^ 23 ≤ rne n (2 ^ k) ∧ rne n (2 ^ k) ≤ 2 ^ 24 := by
  have hn : n ≠ 0 := by have : 0 < 2 ^ (23 + k) := by positivity
                        omega
  have hl : n.log2 = 23 + k := by
    have a := (Nat.le_log2 hn).2 h1
    have b := (Nat.log2_lt hn).2 h2
    omega
  refine ⟨by simp [rnFree, hl], ?_, ?_⟩
  · have := rne_mono (2 ^ k) h1
    rwa [pow_add, rne_mul _ (by positivity)] at this
  · have := rne_mono (2 ^ k) h2.le
    rwa [pow_add, rne_mul _ (by positivity)] at this

theorem units_split {n : Nat} (h : 2 ^ 24 ≤ n) : ∃ k, 2 ^ (23 + k) ≤ n ∧ n < 2 ^ (24 + k) := by
  have hn : n ≠ 0 := by omega
  have h24 : 24 ≤ n.log2 := (Nat.le_log2 hn).2 h
  refine ⟨n.log2 - 23, ?_, ?_⟩
  · rw [show 23 + (n.log2 - 23) = n.log2 by omega]; exact Nat.log2_self_le hn
  · rw [show 24 + (n.log2 - 23) = n.log2 + 1 by omega]; exact Nat.lt_log2_self

theorem rnFree_mono : Monotone rnFree := by
  intro a b h
  rcases Nat.lt_or_ge b (2 ^ 24) with hb | hb
  · rw [rnFree_small hb, rnFree_small (by omega)]; exact h
  · obtain ⟨k', b1, b2⟩ := units_split hb
    obtain ⟨e', l', u'⟩ := rnFree_big b1 b2
    have hk' : 1 ≤ k' := by
      by_contra hk
      have : k' = 0 := by omega
      subst this; omega
    rcases Nat.lt_or_ge a (2 ^ 24) with ha | ha
    · rw [rnFree_small ha, e']; omega
    · obtain ⟨k, a1, a2⟩ := units_split ha
      obtain ⟨e, l, u⟩ := rnFree_big a1 a2
      rcases Nat.lt_trichotomy k k' with hk | hk | hk
      · rw [e, e']
        have : (k + 1) * 2 ^ 23 ≤ k' * 2 ^ 23 := Nat.mul_le_mul_right _ hk
        omega
      · subst hk
        rw [e, e']
        have := rne_mono (2 ^ k) h
        omega
      · exfalso
        have : 2 ^ (24 + k') ≤ 2 ^ (23 + k) := Nat.pow_le_pow_right (by omega) (by omega)
        omega

/-- RN is monotone. -/
theorem rnCode_mono {a b : Nat} (h : a ≤ b) : rnCode a 1 ≤ rnCode b 1 := by
  rw [rnCode_one, rnCode_one]
  have := rnFree_mono h
  omega

theorem rnFree_codeUnits (c : Nat) : rnFree (codeUnits c) = c := by
  rcases Nat.lt_or_ge c (2 ^ 23) with h | h
  · rw [codeUnits_small h, rnFree_small (by omega)]
  · obtain ⟨k, m, rfl, h1, h2⟩ := code_split h
    rw [codeUnits_pack h1 h2]
    have a1 : 2 ^ (23 + k) ≤ m * 2 ^ k := by rw [pow_add]; exact Nat.mul_le_mul_right _ h1
    have a2 : m * 2 ^ k < 2 ^ (24 + k) := by
      rw [pow_add]; exact Nat.mul_lt_mul_of_pos_right h2 (by positivity)
    rw [(rnFree_big a1 a2).1, rne_mul _ (by positivity)]

/-- RN keeps a value that binary32 holds. -/
theorem rnCode_funits {x : F32} (h : fcode x ≤ infCode) : rnCode (funits x) 1 = fcode x := by
  rw [rnCode_one, funits_eq, rnFree_codeUnits]; omega

theorem rne_scale (n d : Nat) {k : Nat} (h : 0 < k) : rne (n * k) (d * k) = rne n d := by
  unfold rne
  simp only [Nat.mul_div_mul_right _ _ h, Nat.mul_mod_mul_right]
  have e1 : 2 * (n % d * k) = 2 * (n % d) * k := by ring
  rw [e1]
  have l1 : 2 * (n % d) * k < d * k ↔ 2 * (n % d) < d := Nat.mul_lt_mul_right h
  have l2 : d * k < 2 * (n % d) * k ↔ d < 2 * (n % d) := Nat.mul_lt_mul_right h
  simp only [l1, l2]

/-- RN of a fraction does not depend on how it is written. -/
theorem rnCode_scale (n : Nat) {d : Nat} (h : 0 < d) : rnCode (n * d) d = rnCode n 1 := by
  unfold rnCode
  simp only [Nat.mul_div_cancel _ h, Nat.div_one, Nat.one_mul]
  rw [Nat.mul_comm d, rne_scale _ _ h]

/-- A 24-bit number times a power of two from 2^23 up is held exactly. -/
theorem rnFree_exact {n e : Nat} (h : n < 2 ^ 24) (he : 23 ≤ e) : codeUnits (rnFree (n * 2 ^ e)) = n * 2 ^ e := by
  rcases Nat.eq_zero_or_pos n with rfl | hp
  · simp [rnFree_small (n := 0) (by omega), codeUnits_zero]
  · have hn : n ≠ 0 := by omega
    have l1 := Nat.log2_self_le hn
    have l2 : n < 2 ^ (n.log2 + 1) := Nat.lt_log2_self
    have l3 : n.log2 ≤ 23 := by have := (Nat.log2_lt hn).2 h; omega
    obtain ⟨L, hL⟩ : ∃ L, n.log2 = L := ⟨_, rfl⟩
    rw [hL] at l1 l2 l3
    have e1 : n * 2 ^ e = n * 2 ^ (23 - L) * 2 ^ (e - 23 + L) := by
      rw [mul_assoc, ← pow_add]; congr 2; omega
    have b1 : 2 ^ 23 ≤ n * 2 ^ (23 - L) := by
      calc 2 ^ 23 = 2 ^ L * 2 ^ (23 - L) := by rw [← pow_add]; congr 1; omega
        _ ≤ _ := Nat.mul_le_mul_right _ l1
    have b2 : n * 2 ^ (23 - L) < 2 ^ 24 := by
      calc n * 2 ^ (23 - L) < 2 ^ (L + 1) * 2 ^ (23 - L) := Nat.mul_lt_mul_of_pos_right l2 (by positivity)
        _ = 2 ^ 24 := by rw [← pow_add]; congr 1; omega
    have hc : codeUnits ((e - 23 + L) * 2 ^ 23 + n * 2 ^ (23 - L)) = n * 2 ^ e := by
      rw [codeUnits_pack b1 b2, e1]
    rw [← hc, rnFree_codeUnits]

/-- The same, up to the exponent 149, lies below infinity. -/
theorem rnCode_exact {n e : Nat} (h : n < 2 ^ 24) (he : 23 ≤ e) (he' : e ≤ 149) :
    rnCode (n * 2 ^ e) 1 < infCode ∧ codeUnits (rnCode (n * 2 ^ e) 1) = n * 2 ^ e := by
  have hlt : rnFree (n * 2 ^ e) < infCode := by
    rw [← codeUnits_strictMono.lt_iff_lt, rnFree_exact h he]
    have : codeUnits infCode = 2 ^ 23 * 2 ^ 254 := by decide
    rw [this]
    calc n * 2 ^ e ≤ n * 2 ^ 149 := Nat.mul_le_mul_left _ (Nat.pow_le_pow_right (by omega) he')
      _ < 2 ^ 24 * 2 ^ 149 := Nat.mul_lt_mul_of_pos_right h (by positivity)
      _ ≤ 2 ^ 23 * 2 ^ 254 := by rw [← pow_add, ← pow_add]; exact Nat.pow_le_pow_right (by omega) (by omega)
  have e1 : rnCode (n * 2 ^ e) 1 = rnFree (n * 2 ^ e) := by rw [rnCode_one]; omega
  rw [e1]
  exact ⟨hlt, rnFree_exact h he⟩

/-- `f32(n)` is exact below 2^24 (R10). -/
theorem fofNat_exact {n : Nat} (h : n < 2 ^ 24) :
    funits (fofNat n) = n * 2 ^ 149 ∧ fcode (fofNat n) < infCode ∧ fneg? (fofNat n) = false := by
  obtain ⟨h1, h2⟩ := rnCode_exact (e := 149) h (by omega) (by omega)
  unfold fofNat fround
  refine ⟨?_, ?_, fneg?_fpack _ (rnCode_lt _ _)⟩
  · rw [funits_eq, fcode_fpack _ (rnCode_lt _ _)]; exact h2
  · rw [fcode_fpack _ (rnCode_lt _ _)]; exact h1

/-! ### RN is the nearest -/

/-- `rne` is the nearest integer, and even where two are as near. -/
theorem rne_near (n : Nat) {d : Nat} (h : 0 < d) :
    |(n : ℚ) / d - rne n d| ≤ 1 / 2 ∧ (|(n : ℚ) / d - rne n d| = 1 / 2 → rne n d % 2 = 0) := by
  have hd : (0 : ℚ) < d := by exact_mod_cast h
  have hq : (n : ℚ) / d = (n / d : Nat) + ((n % d : Nat) : ℚ) / d := by
    rw [div_eq_iff hd.ne', add_mul, div_mul_cancel₀ _ hd.ne']
    exact_mod_cast (Nat.div_add_mod' n d).symm
  have hr0 : (0 : ℚ) ≤ ((n % d : Nat) : ℚ) / d := by positivity
  have hr1 : ((n % d : Nat) : ℚ) / d < 1 := by rw [div_lt_one hd]; exact_mod_cast Nat.mod_lt n h
  rw [hq]
  unfold rne
  simp only []
  split_ifs with h1 h2
  · have : ((n % d : Nat) : ℚ) / d < 1 / 2 := by
      rw [div_lt_div_iff₀ hd (by norm_num)]; exact_mod_cast (by omega : n % d * 2 < 1 * d)
    rw [add_sub_cancel_left, abs_of_nonneg hr0]
    exact ⟨this.le, fun e => absurd e this.ne⟩
  · have : 1 / 2 < ((n % d : Nat) : ℚ) / d := by
      rw [div_lt_div_iff₀ (by norm_num) hd]; exact_mod_cast (by omega : 1 * d < n % d * 2)
    push_cast at hr1 this ⊢
    rw [add_sub_add_left_eq_sub, abs_of_nonpos (by linarith)]
    exact ⟨by linarith, fun e => by linarith⟩
  · have : ((n % d : Nat) : ℚ) / d = 1 / 2 := by
      rw [div_eq_div_iff hd.ne' (by norm_num)]; exact_mod_cast (by omega : n % d * 2 = 1 * d)
    rw [this]
    rcases Nat.mod_two_eq_zero_or_one (n / d) with e | e <;> rw [e] <;> push_cast
    · rw [show ((n / d : Nat) : ℚ) + 1 / 2 - ((n / d : Nat) + 0) = 1 / 2 by ring]
      exact ⟨by norm_num, fun _ => by omega⟩
    · rw [show ((n / d : Nat) : ℚ) + 1 / 2 - ((n / d : Nat) + 1) = -(1 / 2) by ring]
      exact ⟨by norm_num, fun _ => by omega⟩

/-- RN of a fraction of units, before the cap at infinity. -/
def rnRaw (num den : Nat) : Nat := ((num / den).log2 - 23) * 2 ^ 23 + rne num (den * 2 ^ ((num / den).log2 - 23))

theorem rnCode_eq_min (num den : Nat) : rnCode num den = min (rnRaw num den) infCode := rfl

/-- The shape of `rnRaw`: an exponent `k` and a fraction `m`, the nearest multiple of `2^k`; every other code's units are a multiple of
`2^k` too, or lie below the least value of that exponent. -/
theorem rnRaw_shape (num : Nat) {den : Nat} (h : 0 < den) :
    ∃ k m, rnRaw num den = k * 2 ^ 23 + m ∧ codeUnits (rnRaw num den) = m * 2 ^ k ∧
      |(num : ℚ) / den - m * 2 ^ k| ≤ 2 ^ k / 2 ∧ (|(num : ℚ) / den - m * 2 ^ k| = 2 ^ k / 2 → m % 2 = 0) ∧
      (k = 0 ∨ (2 : ℚ) ^ (23 + k) ≤ (num : ℚ) / den) := by
  obtain ⟨n0, hn0⟩ : ∃ n0, n0 = num / den := ⟨_, rfl⟩
  have hd : (0 : ℚ) < den := by exact_mod_cast h
  obtain ⟨k, hk⟩ : ∃ k, k = n0.log2 - 23 := ⟨_, rfl⟩
  have hpos : 0 < den * 2 ^ k := by positivity
  obtain ⟨m, hm⟩ : ∃ m, m = rne num (den * 2 ^ k) := ⟨_, rfl⟩
  have hraw : rnRaw num den = k * 2 ^ 23 + m := by unfold rnRaw; rw [← hn0, ← hk, ← hm]
  have hlow : num < (n0 + 1) * den := by
    rw [hn0, Nat.mul_comm]; exact Nat.lt_mul_div_succ num h
  have hlow' : n0 * den ≤ num := by rw [hn0]; exact Nat.div_mul_le_self num den
  have hmul : ∀ q, rne (q * (den * 2 ^ k)) (den * 2 ^ k) = q := fun q => rne_mul q hpos
  have hn0lt : n0 < 2 ^ (24 + k) := by
    rcases Nat.eq_zero_or_pos n0 with e | hp
    · rw [e]; positivity
    · exact Nat.lt_of_lt_of_le Nat.lt_log2_self (Nat.pow_le_pow_right (by omega) (by omega))
  have hm2 : m ≤ 2 ^ 24 := by
    have h1 : num ≤ 2 ^ 24 * (den * 2 ^ k) := by
      calc num ≤ (n0 + 1) * den := hlow.le
        _ ≤ 2 ^ (24 + k) * den := Nat.mul_le_mul_right _ hn0lt
        _ = 2 ^ 24 * (den * 2 ^ k) := by rw [pow_add]; ring
    have := rne_mono (den * 2 ^ k) h1
    rwa [hmul, ← hm] at this
  have hbig : k = 0 ∨ 2 ^ (23 + k) ≤ n0 := by
    rcases Nat.eq_zero_or_pos k with e | hp
    · exact .inl e
    · right
      have hn : n0 ≠ 0 := by rintro rfl; simp at hk; omega
      rw [show 23 + k = n0.log2 by omega]; exact Nat.log2_self_le hn
  have hunits : codeUnits (k * 2 ^ 23 + m) = m * 2 ^ k := by
    rcases Nat.lt_or_ge m (2 ^ 23) with hs | hg
    · rcases hbig with rfl | hb
      · simpa using codeUnits_small hs
      · exfalso
        have h1 : 2 ^ 23 * (den * 2 ^ k) ≤ num := by
          calc 2 ^ 23 * (den * 2 ^ k) = 2 ^ (23 + k) * den := by rw [pow_add]; ring
            _ ≤ n0 * den := Nat.mul_le_mul_right _ hb
            _ ≤ num := hlow'
        have := rne_mono (den * 2 ^ k) h1
        rw [hmul, ← hm] at this
        omega
    · rcases Nat.lt_or_ge m (2 ^ 24) with hl | hg'
      · exact codeUnits_pack hg hl
      · have : m = 2 ^ 24 := by omega
        subst this
        rw [show k * 2 ^ 23 + 2 ^ 24 = (k + 1) * 2 ^ 23 + 2 ^ 23 by omega, codeUnits_pack (by omega) (by omega), pow_succ]
        ring
  obtain ⟨near, tie⟩ := rne_near num hpos
  have h2k : (0 : ℚ) < 2 ^ k := by positivity
  have hscale : |(num : ℚ) / den - m * 2 ^ k| = |(num : ℚ) / (den * 2 ^ k : Nat) - m| * 2 ^ k := by
    have : (num : ℚ) / den - m * 2 ^ k = ((num : ℚ) / (den * 2 ^ k : Nat) - m) * 2 ^ k := by
      push_cast; field_simp
    rw [this, abs_mul, abs_of_pos h2k]
  rw [← hm] at near tie
  refine ⟨k, m, hraw, by rw [hraw, hunits], ?_, fun e => tie ?_, hbig.imp id fun hb => ?_⟩
  · rw [hscale]; nlinarith
  · rw [hscale] at e
    have : (|(num : ℚ) / (den * 2 ^ k : Nat) - m| - 1 / 2) * 2 ^ k = 0 := by linarith
    rcases mul_eq_zero.1 this with h0 | h0
    · linarith
    · exact absurd h0 h2k.ne'
  · rw [le_div_iff₀ hd]
    calc (2 : ℚ) ^ (23 + k) * den = ((2 ^ (23 + k) * den : Nat) : ℚ) := by push_cast; ring
      _ ≤ num := by exact_mod_cast (Nat.mul_le_mul_right den hb).trans hlow'

/-- The units of a code are a multiple of `2^k`, or lie below `2^(23 + k)`. -/
theorem codeUnits_multiple (c k : Nat) : (∃ j, codeUnits c = j * 2 ^ k) ∨ (k ≠ 0 ∧ codeUnits c < 2 ^ (23 + k)) := by
  rcases Nat.lt_or_ge c ((k + 1) * 2 ^ 23) with h | h
  · rcases Nat.eq_zero_or_pos k with rfl | hk
    · exact .inl ⟨codeUnits c, by simp⟩
    · right
      have e : codeUnits (k * 2 ^ 23 + 2 ^ 23) = 2 ^ (23 + k) := by rw [codeUnits_pack (by omega) (by omega), pow_add]
      exact ⟨by omega, e ▸ codeUnits_strictMono (by omega)⟩
  · left
    obtain ⟨k', m, rfl, h1, h2⟩ := code_split (c := c) (by omega)
    refine ⟨m * 2 ^ (k' - k), ?_⟩
    rw [codeUnits_pack h1 h2, mul_assoc, ← pow_add]
    congr 2; omega

/-- No code's units are nearer than those of `rnRaw`, and of two codes as near it is the even one. -/
theorem rnRaw_near (num : Nat) {den : Nat} (h : 0 < den) (c : Nat) :
    |(num : ℚ) / den - codeUnits (rnRaw num den)| ≤ |(num : ℚ) / den - codeUnits c| ∧
      (c ≠ rnRaw num den → |(num : ℚ) / den - codeUnits c| = |(num : ℚ) / den - codeUnits (rnRaw num den)| →
        rnRaw num den % 2 = 0) := by
  obtain ⟨k, m, hraw, hu, near, tie, hk⟩ := rnRaw_shape num h
  have h2k : (0 : ℚ) < 2 ^ k := by positivity
  rw [hu]
  push_cast
  have multiple : ∀ j : ℤ, j ≠ m → 2 ^ k / 2 ≤ |(num : ℚ) / den - j * 2 ^ k| := by
    intro j hj
    have h1 : (1 : ℚ) ≤ |(j : ℚ) - m| := by
      have : 1 ≤ |j - (m : ℤ)| := Int.one_le_abs (by omega)
      exact_mod_cast this
    have h2 : |((j : ℚ) - m) * 2 ^ k| ≤ |(num : ℚ) / den - m * 2 ^ k| + |(num : ℚ) / den - j * 2 ^ k| := by
      rw [show ((j : ℚ) - m) * 2 ^ k = ((num : ℚ) / den - m * 2 ^ k) - ((num : ℚ) / den - j * 2 ^ k) by ring]
      exact abs_sub _ _
    rw [abs_mul, abs_of_pos h2k] at h2
    nlinarith
  rcases codeUnits_multiple c k with ⟨j, hj⟩ | ⟨hk0, hlt⟩
  · by_cases hjm : j = m
    · subst hjm
      have hc : c = rnRaw num den := codeUnits_strictMono.injective (by rw [hu, hj])
      exact ⟨by rw [hj]; push_cast; exact le_rfl, fun hne => absurd hc hne⟩
    · have := multiple j (by exact_mod_cast hjm)
      rw [hj]
      push_cast at this ⊢
      refine ⟨near.trans this, fun _ e => ?_⟩
      have := tie (by linarith)
      rw [hraw]; omega
  · have hb := hk.resolve_left hk0
    have hc : (codeUnits c : ℚ) < 2 ^ (23 + k) := by exact_mod_cast hlt
    have key : |(num : ℚ) / den - m * 2 ^ k| < |(num : ℚ) / den - codeUnits c| := by
      rw [abs_of_pos (by linarith : (0 : ℚ) < (num : ℚ) / den - codeUnits c)]
      have e : ((2 ^ 23 : ℤ) : ℚ) * 2 ^ k = 2 ^ (23 + k) := by rw [pow_add]; norm_num
      by_cases hm : (m : ℤ) = 2 ^ 23
      · have hm' : (m : ℚ) * 2 ^ k = 2 ^ (23 + k) := by rw [← e, ← hm]; push_cast; rfl
        rw [hm', abs_of_nonneg (by linarith)]
        linarith
      · have := multiple (2 ^ 23) (fun e' => hm e'.symm)
        rw [e, abs_of_nonneg (by linarith)] at this
        linarith
    exact ⟨key.le, fun _ e => absurd e key.ne'⟩

theorem codeUnits_inf : (codeUnits infCode : ℚ) = 2 ^ 24 * 2 ^ 253 := by
  have h : codeUnits infCode = 2 ^ 23 * 2 ^ 254 := by
    rw [show infCode = 254 * 2 ^ 23 + 2 ^ 23 from rfl, codeUnits_pack (by omega) (by omega)]
  rw [h]; push_cast; ring

theorem codeUnits_max : (codeUnits (infCode - 1) : ℚ) = (2 ^ 24 - 1) * 2 ^ 253 := by
  have h : codeUnits (infCode - 1) = (2 ^ 24 - 1) * 2 ^ 253 := by
    rw [show infCode - 1 = 253 * 2 ^ 23 + (2 ^ 24 - 1) from rfl, codeUnits_pack (by omega) (by omega)]
  rw [h]; push_cast; ring

/-- RN gives infinity exactly from half a step above the largest finite value. -/
theorem rnRaw_overflow (num : Nat) {den : Nat} (h : 0 < den) :
    rnRaw num den < infCode ↔ (num : ℚ) / den < overflowUnits := by
  have e1 : overflowUnits = (2 ^ 24 - 1) * 2 ^ 253 + 2 ^ 252 := by unfold overflowUnits; ring
  have e2 : (2 : ℚ) ^ 24 * 2 ^ 253 = (2 ^ 24 - 1) * 2 ^ 253 + 2 * 2 ^ 252 := by ring
  have p : (0 : ℚ) < 2 ^ 252 := by positivity
  have hinf := codeUnits_inf
  have hmax := codeUnits_max
  rw [e1]
  rw [e2] at hinf
  rw [← hmax] at hinf ⊢
  constructor
  · intro hlt
    by_contra hge
    rw [not_lt] at hge
    obtain ⟨near, tie⟩ := rnRaw_near num h infCode
    have hle : (codeUnits (rnRaw num den) : ℚ) ≤ codeUnits (infCode - 1) := by
      exact_mod_cast codeUnits_strictMono.monotone (by omega : rnRaw num den ≤ infCode - 1)
    have n1 : (0 : ℚ) ≤ (num : ℚ) / den - codeUnits (rnRaw num den) := by linarith
    rw [abs_of_nonneg n1, hinf] at near tie
    rcases le_or_gt ((codeUnits (infCode - 1) : ℚ) + 2 * 2 ^ 252) ((num : ℚ) / den) with h1 | h1
    · rw [abs_of_nonneg (sub_nonneg.2 h1)] at near; linarith
    · rw [abs_of_neg (sub_neg.2 h1)] at near tie
      have hq : (codeUnits (rnRaw num den) : ℚ) = codeUnits (infCode - 1) := by linarith
      have hc : rnRaw num den = infCode - 1 := codeUnits_strictMono.injective (by exact_mod_cast hq)
      have := tie (by omega) (by linarith)
      rw [hc] at this
      exact absurd this (by decide)
  · intro hlt
    by_contra hge
    rw [not_lt] at hge
    obtain ⟨near, _⟩ := rnRaw_near num h (infCode - 1)
    have hle : (codeUnits infCode : ℚ) ≤ codeUnits (rnRaw num den) := by
      exact_mod_cast codeUnits_strictMono.monotone hge
    rw [abs_of_nonpos (by linarith)] at near
    rcases le_or_gt (codeUnits (infCode - 1) : ℚ) ((num : ℚ) / den) with h1 | h1
    · rw [abs_of_nonneg (by linarith)] at near; linarith
    · rw [abs_of_neg (by linarith)] at near; linarith

theorem fval_fpack {c : Nat} (n : Bool) (h : c < 2 ^ 31) :
    fval (fpack n c) = (if n then -(codeUnits c : ℤ) else codeUnits c) := by
  unfold fval
  rw [fneg?_fpack n h, funits_eq, fcode_fpack n h]

theorem fval_abs (y : F32) : |(fval y : ℚ)| = codeUnits (fcode y) := by
  unfold fval
  rw [funits_eq]
  split <;> simp

/-- The rounding that every operation ends in is RN of R10: `fpack neg (rnCode num den)` is the binary32 nearest `num / den` units with
that sign. -/
theorem isNearest_fpack (neg : Bool) (num : Nat) {den : Nat} (h : 0 < den) :
    IsNearest (fpack neg (rnCode num den)) ((if neg then -1 else 1) * ((num : ℚ) / den)) := by
  obtain ⟨q, hq⟩ : ∃ q, q = (num : ℚ) / den := ⟨_, rfl⟩
  obtain ⟨σ, hσ⟩ : ∃ σ : ℚ, σ = if neg then -1 else 1 := ⟨_, rfl⟩
  have hq0 : 0 ≤ q := by rw [hq]; positivity
  have hσ2 : σ * σ = 1 ∧ |σ| = 1 := by rw [hσ]; split <;> norm_num
  have hover := rnRaw_overflow num h
  have hlt : rnCode num den < 2 ^ 31 := rnCode_lt _ _
  rw [← hσ, ← hq]
  rw [← hq] at hover
  have habs : |σ * q| = q := by rw [abs_mul, hσ2.2, one_mul, abs_of_nonneg hq0]
  have inf : overflowUnits ≤ q → rnCode num den = infCode := fun ho => by
    have := mt hover.1 (not_lt.2 ho)
    rw [rnCode_eq_min]; omega
  have raw : q < overflowUnits → rnCode num den = rnRaw num den := fun ho => by
    have := hover.2 ho
    rw [rnCode_eq_min]; omega
  have hval : (fval (fpack neg (rnCode num den)) : ℚ) = σ * codeUnits (rnCode num den) := by
    rw [fval_fpack neg hlt, hσ]; split <;> simp
  have dist : ∀ u : ℚ, |σ * q - σ * u| = |q - u| := fun u => by rw [← mul_sub, abs_mul, hσ2.2, one_mul]
  have far : ∀ y : F32, |q - codeUnits (fcode y)| ≤ |σ * q - fval y| := fun y => by
    have := abs_abs_sub_abs_le (σ * q) (fval y : ℚ)
    rwa [habs, fval_abs] at this
  have ov : (0 : ℚ) < overflowUnits := by unfold overflowUnits; norm_num
  refine ⟨fun ho => ?_, fun ho y hy => ?_, fun ho y hy hne heq => ?_, fun ho => ?_, fun ho => ?_⟩
  · rw [habs] at ho
    unfold isFinite
    rw [fcode_fpack neg hlt, raw ho]
    exact decide_eq_true (hover.2 ho)
  · rw [habs] at ho
    rw [hval, dist, raw ho]
    have near := (rnRaw_near num h (fcode y)).1
    rw [← hq] at near
    exact near.trans (far y)
  · rw [habs] at ho
    rw [hval, dist, raw ho] at heq
    obtain ⟨near, tie⟩ := rnRaw_near num h (fcode y)
    rw [← hq] at near tie
    have hf := far y
    have he : |q - codeUnits (fcode y)| = |q - codeUnits (rnRaw num den)| := by linarith
    by_cases hc : fcode y = rnRaw num den
    · -- the same magnitude with the other sign: only zero is as near
      exfalso
      have hy' : (fval y : ℚ) = -(σ * codeUnits (rnRaw num den)) ∨ (fval y : ℚ) = σ * codeUnits (rnRaw num den) := by
        rw [fval, funits_eq, hc, hσ]
        cases fneg? y <;> cases neg <;> simp
      rcases hy' with e | e
      · rw [e, show σ * q - -(σ * codeUnits (rnRaw num den)) = σ * q - σ * -(codeUnits (rnRaw num den) : ℚ) by ring, dist,
          sub_neg_eq_add, abs_of_nonneg (by positivity)] at heq
        have h0 : (codeUnits (rnRaw num den) : ℚ) = 0 ∨ q = 0 := by
          rcases abs_cases (q - codeUnits (rnRaw num den)) with ⟨a, _⟩ | ⟨a, _⟩
          · left; linarith
          · right; linarith
        have hz : (codeUnits (rnRaw num den) : ℚ) = 0 := by
          rcases h0 with h0 | h0
          · exact h0
          · have := (rnRaw_near num h 0).1
            rw [← hq, h0, codeUnits_zero] at this
            simpa using this
        apply hne
        have : (fval y : ℚ) = fval (fpack neg (rnCode num den)) := by rw [hval, raw ho, e, hz]; simp
        exact_mod_cast this
      · apply hne
        have : (fval y : ℚ) = fval (fpack neg (rnCode num den)) := by rw [hval, raw ho, e]
        exact_mod_cast this
    · have hpar := tie hc he
      rw [BitVec.getLsbD, toNat_fpack neg hlt, raw ho, Nat.testBit_zero, decide_eq_false_iff_not]
      split <;> omega
  · have hs : neg = false := by
      by_contra hn
      rw [hσ, if_pos (by simpa using hn)] at ho
      linarith
    subst hs
    rw [hσ, if_neg (by simp), one_mul] at ho
    rw [inf ho]; rfl
  · have hs : neg = true := by
      by_contra hn
      rw [hσ, if_neg (by simpa using hn)] at ho
      linarith
    subst hs
    rw [hσ, if_pos rfl] at ho
    rw [inf (by linarith)]; rfl

/-! ### Values without a sign -/

theorem notNegative.lt {x : F32} (h : notNegative x) : x.toNat < 2 ^ 31 := by
  unfold notNegative at h; omega

theorem notNegative.code {x : F32} (h : notNegative x) : fcode x = x.toNat := fcode_of_lt h.lt

theorem notNegative.sign {x : F32} (h : notNegative x) : fneg? x = false := fneg?_of_lt h.lt

theorem notNegative.notNan {x : F32} (h : notNegative x) : isNan x = false := by
  unfold isNan
  rw [h.code]
  exact decide_eq_false (by unfold infCode; omega)

theorem inUnit.notNegative {x : F32} (h : inUnit x) : notNegative x := by
  unfold inUnit at h; unfold Machine.notNegative; omega

theorem inUnit.notInf {x : F32} (h : inUnit x) : isInf x = false := by
  unfold isInf
  rw [h.notNegative.code]
  exact decide_eq_false (by unfold inUnit at h; unfold infCode; omega)

theorem notNegative_fpack {c : Nat} (h : c ≤ infCode) : notNegative (fpack false c) := by
  unfold notNegative
  rw [toNat_fpack _ (Nat.lt_of_le_of_lt h infCode_lt)]
  unfold infCode at h
  simpa using h

theorem fval_of_sign {x : F32} (h : fneg? x = false) : fval x = funits x := by simp [fval, h]

theorem isNan_fnegate (x : F32) : isNan (fnegate x) = isNan x := by simp [isNan, fcode_fnegate]

theorem isInf_fnegate (x : F32) : isInf (fnegate x) = isInf x := by simp [isInf, fcode_fnegate]

theorem fval_fnegate (x : F32) : fval (fnegate x) = -fval x := by
  simp only [fval, fneg?_fnegate, funits_eq, fcode_fnegate]
  cases fneg? x <;> simp

/-- A sum of values without a sign has none. -/
theorem fadd_notNegative {a b : F32} (ha : notNegative a) (hb : notNegative b) : notNegative (fadd a b) := by
  unfold fadd
  rw [ha.notNan, hb.notNan, ha.sign, hb.sign]
  simp only [Bool.or_self, Bool.false_eq_true, if_false, bne_self_eq_false, Bool.and_false, Bool.and_self]
  split
  · exact ha
  · split
    · exact hb
    · rw [fval_of_sign ha.sign, fval_of_sign hb.sign]
      split
      · exact notNegative_fpack (by decide)
      · rw [decide_eq_false (by omega)]
        exact notNegative_fpack (rnCode_le_inf _ _)

/-- A difference of values without a sign is at most the first, or has a sign. -/
theorem fsub_le {a b : F32} (ha : inUnit a) (hb : notNegative b) :
    (fsub a b).toNat ≤ a.toNat ∨ (fneg? (fsub a b) = true ∧ isNan (fsub a b) = false) := by
  have hna := ha.notNegative
  unfold fsub fadd
  rw [isNan_fnegate, isInf_fnegate, hna.notNan, hb.notNan, ha.notInf, fneg?_fnegate, hna.sign, hb.sign, fval_fnegate]
  simp only [Bool.or_self, Bool.false_eq_true, if_false, Bool.not_false, Bool.false_and]
  split
  · right
    rw [fneg?_fnegate, isNan_fnegate, hb.sign, hb.notNan]
    exact ⟨rfl, rfl⟩
  · rw [fval_of_sign hna.sign, fval_of_sign hb.sign]
    split
    · left
      rw [toNat_fpack _ (by decide)]; simp
    · next hs =>
      rcases lt_or_ge ((funits a : Int) + -(funits b : Int)) 0 with h | h
      · right
        rw [decide_eq_true h]
        refine ⟨fneg?_fpack _ (rnCode_lt _ _), ?_⟩
        unfold isNan
        rw [fcode_fpack _ (rnCode_lt _ _)]
        exact decide_eq_false (by have := rnCode_le_inf ((funits a : Int) + -(funits b : Int)).natAbs 1; omega)
      · left
        rw [decide_eq_false (by omega), toNat_fpack _ (rnCode_lt _ _)]
        have h1 : ((funits a : Int) + -(funits b : Int)).natAbs ≤ funits a := by omega
        have h2 := rnCode_mono h1
        rw [rnCode_funits (by rw [hna.code]; unfold Machine.notNegative at hna; unfold infCode; omega), hna.code] at h2
        simpa using h2

theorem fle_of_negative {x y : F32} (hx : fneg? x = true) (hn : isNan x = false) (hy : notNegative y) : fle x y = true := by
  unfold fle fkey
  rw [hn, hy.notNan, hx, hy.sign]
  simp

/-- Values without a sign compare as their codes. -/
theorem fle_iff {x y : F32} (hx : notNegative x) (hy : notNegative y) : fle x y = true ↔ x.toNat ≤ y.toNat := by
  unfold fle fkey
  rw [hx.notNan, hy.notNan, hx.sign, hy.sign, hx.code, hy.code]
  simp

/-- `1 - x` of a value in [0, 1] has no sign. -/
theorem one_fsub_notNegative {x : F32} (h : inUnit x) : notNegative (fsub fone x) := by
  have hone : inUnit fone := by decide
  have hn := h.notNegative
  unfold fsub fadd
  rw [isNan_fnegate, isInf_fnegate, hone.notNegative.notNan, hn.notNan, hone.notInf, h.notInf, fneg?_fnegate,
    hone.notNegative.sign, fval_fnegate]
  simp only [Bool.or_self, Bool.false_eq_true, if_false, Bool.false_and]
  rw [fval_of_sign hone.notNegative.sign, fval_of_sign hn.sign]
  have hu : funits x ≤ funits fone := by
    rw [funits_le_iff, hn.code, hone.notNegative.code]
    have : fone.toNat = 0x3F800000 := rfl
    unfold inUnit at h; omega
  split
  · exact notNegative_fpack (by decide)
  · rw [decide_eq_false (by omega)]
    exact notNegative_fpack (rnCode_le_inf _ _)

theorem fofNat_notNegative (n : Nat) : notNegative (fofNat n) := notNegative_fpack (rnCode_le_inf _ _)

theorem fcode_fofNat_pos {n : Nat} (h : 0 < n) : fcode (fofNat n) ≠ 0 := by
  unfold fofNat fround
  rw [fcode_fpack _ (rnCode_lt _ _)]
  have h1 : (1 : Nat) ≤ n * 2 ^ 149 := Nat.mul_pos h (by positivity)
  have h2 := rnCode_mono h1
  have h3 : rnCode 1 1 = 1 := by decide
  omega

/-- A finite value without a sign, divided by a positive number, has none. -/
theorem fdiv_notNegative {a : F32} {n : Nat} (ha : inUnit a ∨ (notNegative a ∧ isInf a = false)) (hn : 0 < n) :
    notNegative (fdiv a (fofNat n)) := by
  obtain ⟨h1, h2⟩ : notNegative a ∧ isInf a = false := ha.elim (fun h => ⟨h.notNegative, h.notInf⟩) id
  have hb := fofNat_notNegative n
  unfold fdiv
  rw [h1.notNan, hb.notNan, h1.sign, hb.sign, h2]
  simp only [Bool.or_self, Bool.false_eq_true, if_false, bne_self_eq_false]
  split
  · exact notNegative_fpack (by decide)
  · rw [if_neg (fcode_fofNat_pos hn)]
    exact notNegative_fpack (rnCode_le_inf _ _)

/-- A percentage up to 100 is a level (R282). -/
theorem percent_inUnit (x : BitVec 8) (h : x.toNat ≤ 100) : inUnit (percent x) := by
  have key : ∀ n : Fin 101, inUnit (fdiv (fofNat n.val) fhundred) := by decide +kernel
  exact key ⟨x.toNat, by omega⟩

/-! ### Frequencies -/

theorem fmul_notNegative {a b : F32} (ha : notNegative a) (hb : notNegative b) (ia : isInf a = false) (ib : isInf b = false) :
    notNegative (fmul a b) := by
  unfold fmul
  rw [ha.notNan, hb.notNan, ha.sign, hb.sign, ia, ib]
  simp only [Bool.or_self, Bool.false_eq_true, if_false, bne_self_eq_false]
  exact notNegative_fpack (rnCode_le_inf _ _)

/-- A value without a sign, clamped to [+0.0, hi]. -/
theorem fclamp_zero {x hi : F32} (hx : notNegative x) (hh : notNegative hi) :
    fclamp x fzero hi = (if x.toNat ≤ hi.toNat then x else hi) := by
  have h0 : fle fzero x = true := (fle_iff (by decide) hx).2 (Nat.zero_le _)
  unfold fclamp
  rw [h0]
  simp only [if_true, fle_iff hx hh]

/-- `f32(FS) ÷f 2.0` is FS/2, exactly (R242). -/
theorem nyquist_exact {c : Params} (h : c.fs < 2 ^ 24) :
    notNegative (nyquist c) ∧ fcode (nyquist c) < infCode ∧ funits (nyquist c) = c.fs * 2 ^ 148 := by
  obtain ⟨u, l, s⟩ := fofNat_exact h
  have hn := fofNat_notNegative c.fs
  have i1 : isInf (fofNat c.fs) = false := decide_eq_false (by omega)
  have two : isNan (0x40000000#32) = false ∧ isInf (0x40000000#32) = false ∧ fcode (0x40000000#32) ≠ 0 ∧
      fneg? (0x40000000#32) = false ∧ funits (0x40000000#32) = 2 ^ 150 := by decide
  have hd : nyquist c = fpack false (rnCode (c.fs * 2 ^ 148) 1) := by
    unfold nyquist fdiv
    rw [hn.notNan, two.1, hn.sign, two.2.2.2.1, i1, two.2.1, u, two.2.2.2.2]
    simp only [Bool.or_self, Bool.false_eq_true, if_false, bne_self_eq_false, two.2.2.1]
    rw [show c.fs * 2 ^ 149 * 2 ^ 149 = c.fs * 2 ^ 148 * 2 ^ 150 by ring, rnCode_scale _ (by positivity)]
  obtain ⟨x1, x2⟩ := rnCode_exact (n := c.fs) (e := 148) h (by omega) (by omega)
  rw [hd]
  refine ⟨notNegative_fpack (rnCode_le_inf _ _), ?_, ?_⟩
  · rw [fcode_fpack _ (rnCode_lt _ _)]; exact x1
  · rw [funits_eq, fcode_fpack _ (rnCode_lt _ _)]; exact x2

/-- A frequency up to FS/2 has a tuning word up to 2^31, the nearest integer to `f 2^32 / FS`, ties upward (R243). -/
theorem tuningWord_exact {c : Params} {f : F32} (h0 : 0 < c.fs) (hu : funits f ≤ c.fs * 2 ^ 148) :
    (tuningWord c f).toNat = (2 * funits f * 2 ^ 32 + c.fs * 2 ^ 149) / (2 * c.fs * 2 ^ 149) ∧
      (tuningWord c f).toNat ≤ 2 ^ 31 := by
  have hq : (2 * funits f * 2 ^ 32 + c.fs * 2 ^ 149) / (2 * c.fs * 2 ^ 149) ≤ 2 ^ 31 := by
    have h1 : 2 * funits f * 2 ^ 32 + c.fs * 2 ^ 149 < (2 ^ 31 + 1) * (2 * c.fs * 2 ^ 149) := by
      have : 2 * funits f * 2 ^ 32 ≤ 2 ^ 31 * (2 * c.fs * 2 ^ 149) := by
        calc 2 * funits f * 2 ^ 32 ≤ 2 * (c.fs * 2 ^ 148) * 2 ^ 32 := by gcongr
          _ = 2 ^ 31 * (2 * c.fs * 2 ^ 149) := by ring
      have h2 : 0 < c.fs * 2 ^ 149 := by positivity
      have h3 : (2 ^ 31 + 1) * (2 * c.fs * 2 ^ 149) = 2 ^ 31 * (2 * c.fs * 2 ^ 149) + 2 * (c.fs * 2 ^ 149) := by ring
      omega
    exact Nat.lt_succ_iff.1 ((Nat.div_lt_iff_lt_mul (by positivity)).2 h1)
  have e : (tuningWord c f).toNat = (2 * funits f * 2 ^ 32 + c.fs * 2 ^ 149) / (2 * c.fs * 2 ^ 149) := by
    unfold tuningWord
    rw [BitVec.toNat_ofNat]
    exact Nat.mod_eq_of_lt (by omega)
  exact ⟨e, e ▸ hq⟩

theorem fpow2_facts {o : Int} (h1 : -8 ≤ o) (h2 : o ≤ 8) : notNegative (fpow2 o) ∧ isInf (fpow2 o) = false := by
  have key : ∀ n : Fin 17, notNegative (fpow2 (n.val - 8)) ∧ isInf (fpow2 (n.val - 8)) = false := by decide +kernel
  have := key ⟨(o + 8).toNat, by omega⟩
  have e : ((⟨(o + 8).toNat, by omega⟩ : Fin 17).val : Int) - 8 = o := by
    show ((o + 8).toNat : Int) - 8 = o; omega
  rwa [e] at this

theorem isPositiveF32_facts {x : F32} (h : isPositiveF32 x = true) : notNegative x ∧ isInf x = false := by
  unfold isPositiveF32 at h
  simp only [Bool.and_eq_true, decide_eq_true_eq] at h
  have hn : notNegative x := by unfold notNegative; omega
  refine ⟨hn, ?_⟩
  unfold isInf
  rw [hn.code]
  exact decide_eq_false (by unfold infCode; omega)

/-- The frequency of a note lies in [0, FS/2] (R242). -/
theorem noteFrequency_range {c : Params} (hf : c.fs < 2 ^ 24) (hn : c.noteFreq.all isPositiveF32 = true) (n : BitVec 3) {o : Int}
    (h1 : -8 ≤ o) (h2 : o ≤ 8) :
    notNegative (noteFrequency c n o) ∧ (noteFrequency c n o).toNat ≤ (nyquist c).toNat := by
  obtain ⟨p1, p2⟩ := fpow2_facts h1 h2
  have ha : notNegative (c.noteFreq.getD n.toNat fzero) ∧ isInf (c.noteFreq.getD n.toNat fzero) = false := by
    rw [List.getD_eq_getElem?_getD]
    cases e : c.noteFreq[n.toNat]? with
    | none => exact ⟨by decide, by decide⟩
    | some y => exact isPositiveF32_facts (List.all_eq_true.1 hn y (List.mem_of_getElem? e))
  have hm := fmul_notNegative ha.1 p1 ha.2 p2
  obtain ⟨q1, _, _⟩ := nyquist_exact hf
  unfold noteFrequency
  rw [fclamp_zero hm q1]
  split
  · next h => exact ⟨hm, h⟩
  · exact ⟨q1, Nat.le_refl _⟩

end Sys2Proof.Machine
end

