-- ==== Sys2Proof/Laws/Voices.lean ====
section
/-! SUPPORT. What the envelope, the oscillator and the allocator can do to a voice and to the voice pool: the fields each leaves alone,
and that each keeps a voice legal and the generations distinct (R34, R293). -/

namespace Sys2Proof.Machine

/-! ### One voice -/

theorem atLeastOne_ne_zero (n : Word) : atLeastOne n ≠ 0#32 := by
  unfold atLeastOne; split
  · decide
  · assumption

theorem atLeastOne_pos (n : Word) : 0 < (atLeastOne n).toNat := by
  have := atLeastOne_ne_zero n
  rw [Nat.pos_iff_ne_zero]
  intro h
  exact this (BitVec.eq_of_toNat_eq (by simpa using h))

theorem toNat_atLeastOne (n : Word) : (atLeastOne n).toNat = max n.toNat 1 := by
  unfold atLeastOne
  split
  · next h => subst h; rfl
  · next h =>
    have : n.toNat ≠ 0 := fun e => h (BitVec.eq_of_toNat_eq (by simpa using e))
    omega

theorem inUnit_fzero : inUnit fzero := by decide

theorem inUnit_fone : inUnit fone := by decide

theorem fle_fone_false {x : F32} (hx : notNegative x) (h : fle fone x = false) : inUnit x := by
  have := fle_iff inUnit_fone.notNegative hx
  have h1 : ¬ fone.toNat ≤ x.toNat := fun e => by simp [this.2 e] at h
  have : fone.toNat = 0x3F800000 := rfl
  unfold inUnit; omega

/-- A level less a step, above a bound in [0, 1], is a level. -/
theorem fsub_inUnit {a b c : F32} (ha : inUnit a) (hb : notNegative b) (hc : inUnit c) (h : fle (fsub a b) c = false) :
    inUnit (fsub a b) := by
  rcases fsub_le ha hb with h1 | ⟨h1, h2⟩
  · unfold inUnit at *; omega
  · rw [fle_of_negative h1 h2 hc.notNegative] at h; cases h

theorem beginStage_ok {c : Params} {x : Voice} (d : F32) (n : Word)
    (hd : inUnit d ∨ (notNegative d ∧ isInf d = false)) (hn : n = x.atk ∨ n = x.dec ∨ n = x.rel) (level : inUnit x.level)
    (idle : x.env ≠ .idle) (sus : inUnit x.sus) (atk : x.atk.toNat ≤ 200 * c.samplesPerUnit)
    (dec : x.dec.toNat ≤ 200 * c.samplesPerUnit) (rel : x.rel.toNat ≤ 200 * c.samplesPerUnit)
    (freq : notNegative x.freq ∧ x.freq.toNat ≤ (nyquist c).toNat) (tw : x.tw.toNat ≤ 2 ^ 31) :
    VoiceOk c (beginStage d n x) :=
  { level := level
    idle := fun h => absurd h idle
    step := fdiv_notNegative hd (atLeastOne_pos n)
    sus := sus
    ramp := fun _ => atLeastOne_ne_zero n
    left := by
      show (atLeastOne n).toNat ≤ max 1 (max x.atk.toNat (max x.dec.toNat x.rel.toNat))
      rw [toNat_atLeastOne]
      rcases hn with rfl | rfl | rfl <;> omega
    atk := atk
    dec := dec
    rel := rel
    freq := freq
    tw := tw }

/-- A ramping stage's counter goes down by one (R201). -/
theorem toNat_left_pred {n : Word} (h : n ≠ 0#32) : (n - 1#32).toNat = n.toNat - 1 := by
  have h0 : n.toNat ≠ 0 := fun e => h (BitVec.eq_of_toNat_eq (by simpa using e))
  have := n.isLt
  rw [BitVec.toNat_sub]
  have : (1#32).toNat = 1 := rfl
  omega

theorem ne_zero_of_beq {n : Word} (h : (n == 0#32) = false) : n ≠ 0#32 := by simpa using h

theorem isInf_one_fsub {x : F32} (h : inUnit x) : isInf (fsub fone x) = false := by
  rcases fsub_le inUnit_fone h.notNegative with h1 | ⟨h1, _⟩
  · exact inUnit.notInf (by have : fone.toNat = 0x3F800000 := rfl
                            unfold inUnit; omega)
  · have := (one_fsub_notNegative h).sign
    rw [this] at h1; cases h1

/-- ENV_ADVANCE keeps a voice legal. -/
theorem envAdvance_ok {c : Params} {x : Voice} (h : VoiceOk c x) : VoiceOk c (envAdvance x) := by
  have hl := h.left
  unfold envAdvance
  split
  · next e => exact { h with level := inUnit_fzero, idle := fun _ => rfl }
  · next e =>
    have hp := toNat_left_pred (h.ramp (.inl e))
    unfold envAttack
    simp only []
    split
    · exact beginStage_ok _ _ (.inr ⟨one_fsub_notNegative h.sus, isInf_one_fsub h.sus⟩) (.inr (.inl rfl)) inUnit_fone
        (by simp) h.sus h.atk h.dec h.rel h.freq h.tw
    · next hc =>
      rw [Bool.not_eq_true, Bool.or_eq_false_iff] at hc
      exact { h with
        level := fle_fone_false (fadd_notNegative h.level.notNegative h.step) hc.1
        idle := fun e' => by simp [e] at e'
        ramp := fun _ => ne_zero_of_beq hc.2
        left := by show (x.left - 1#32).toNat ≤ max 1 (max x.atk.toNat (max x.dec.toNat x.rel.toNat)); omega }
  · next e =>
    have hp := toNat_left_pred (h.ramp (.inr (.inl e)))
    unfold envDecay
    simp only []
    split
    · exact { h with
        level := h.sus
        idle := fun e' => by simp at e'
        step := (inUnit_fzero).notNegative
        ramp := fun e' => by simp at e'
        left := Nat.zero_le _ }
    · next hc =>
      rw [Bool.not_eq_true, Bool.or_eq_false_iff] at hc
      exact { h with
        level := fsub_inUnit h.level h.step h.sus hc.1
        idle := fun e' => by simp [e] at e'
        ramp := fun _ => ne_zero_of_beq hc.2
        left := by show (x.left - 1#32).toNat ≤ max 1 (max x.atk.toNat (max x.dec.toNat x.rel.toNat)); omega }
  · exact h
  · next e =>
    have hp := toNat_left_pred (h.ramp (.inr (.inr e)))
    unfold envRelease
    simp only []
    split
    · exact { h with
        level := inUnit_fzero
        idle := fun _ => rfl
        step := (inUnit_fzero).notNegative
        ramp := fun e' => by simp at e'
        left := Nat.zero_le _ }
    · next hc =>
      rw [Bool.not_eq_true, Bool.or_eq_false_iff] at hc
      exact { h with
        level := fsub_inUnit h.level h.step inUnit_fzero hc.1
        idle := fun e' => by simp [e] at e'
        ramp := fun _ => ne_zero_of_beq hc.2
        left := by show (x.left - 1#32).toNat ≤ max 1 (max x.atk.toNat (max x.dec.toNat x.rel.toNat)); omega }

/-- What ENV_ADVANCE leaves alone, in every state. -/
theorem envAdvance_frame (x : Voice) :
    envAdvance x = { x with env := (envAdvance x).env, level := (envAdvance x).level, step := (envAdvance x).step,
                            left := (envAdvance x).left } := by
  unfold envAdvance
  split
  · rfl
  · unfold envAttack; simp only []; split <;> rfl
  · unfold envDecay; simp only []; split <;> rfl
  · rfl
  · unfold envRelease; simp only []; split <;> rfl

theorem envAdvance_gen (x : Voice) : (envAdvance x).gen = x.gen := by rw [envAdvance_frame]

/-- An advance makes no voice sound that did not. -/
theorem envAdvance_idle {x : Voice} (h : x.env = .idle) : (envAdvance x).env = .idle := by
  simp [envAdvance, h, envIdle]

theorem whenEnv_ok {c : Params} {x : Voice} (e : Env) (f : Voice → Voice) (h : VoiceOk c x)
    (hf : x.env = e → f x = envAdvance x) : VoiceOk c (whenEnv e f x) := by
  unfold whenEnv
  split
  · next he => rw [hf he]; exact envAdvance_ok h
  · exact h

theorem voiceOk_gen {c : Params} {x : Voice} (g : Nat) (h : VoiceOk c x) : VoiceOk c { x with gen := g } := { h with }

theorem oscAdvance_ok {c : Params} {x : Voice} (h : VoiceOk c x) : VoiceOk c (oscAdvance x) := { h with }

theorem legal_rates {c : Params} (h : c.legal = true) :
    0 < c.fs ∧ c.fs < 2 ^ 24 ∧ c.noteFreq.length = 7 ∧ c.noteFreq.all isPositiveF32 = true := by
  simp only [Params.legal, Bool.and_eq_true, decide_eq_true_eq] at h
  obtain ⟨_, _, h1, h2, _, _, _, _, _, _, _, _, _, _, _, _, _, _, _, _, _, _, _, _, _, _, h3, h4, _⟩ := h
  exact ⟨by omega, by omega, h3, by simpa using h4⟩

theorem oscTune_ok {c : Params} (hl : c.legal = true) (n : BitVec 3) {o : Int} (h1 : -8 ≤ o) (h2 : o ≤ 8) {x : Voice}
    (h : VoiceOk c x) : VoiceOk c (oscTune c n o x) := by
  obtain ⟨f0, f1, _, f2⟩ := legal_rates hl
  obtain ⟨r1, r2⟩ := noteFrequency_range f1 f2 n h1 h2
  obtain ⟨q1, _, q3⟩ := nyquist_exact f1
  have hu : funits (noteFrequency c n o) ≤ c.fs * 2 ^ 148 := by
    rw [← q3, funits_le_iff, r1.code, q1.code]; exact r2
  exact { h with freq := ⟨r1, r2⟩, tw := (tuningWord_exact f0 hu).2 }

theorem stageSamples_le {c : Params} {u : BitVec 8} (h : u.toNat ≤ 200) :
    (stageSamples c u).toNat ≤ 200 * c.samplesPerUnit := by
  unfold stageSamples
  rw [BitVec.toNat_ofNat]
  exact Nat.le_trans (Nat.mod_le _ _) (Nat.mul_le_mul_right _ h)

theorem legal_octaves {c : Params} (h : c.legal = true) :
    -8 ≤ c.octaveMin ∧ c.octaveMin ≤ 0 ∧ 0 ≤ c.octaveMax ∧ c.octaveMax ≤ 8 := by
  simp only [Params.legal, Bool.and_eq_true, decide_eq_true_eq] at h
  obtain ⟨_, _, _, _, _, _, _, _, _, _, _, _, _, _, _, _, _, _, _, _, _, _, _, _, _, _, _, h0, h1, h2, h3, _⟩ := h
  omega

theorem octave_range {s : State} (hl : s.cfg.legal = true) (h : RegsOk s) : -8 ≤ s.regs.octave ∧ s.regs.octave ≤ 8 := by
  have := legal_octaves hl
  have := h.octave
  omega

/-- A NOTE_ON starts a legal voice from legal registers. -/
theorem startVoice_ok {s : State} (hl : s.cfg.legal = true) (n : BitVec 3) (g : Nat) {x : Voice} (h : RegsOk s)
    (hx : VoiceOk s.cfg x) : VoiceOk s.cfg (startVoice s.cfg s.regs n g x) := by
  obtain ⟨o1, o2⟩ := octave_range hl h
  have ht := oscTune_ok hl n o1 o2 hx
  unfold startVoice
  exact voiceOk_gen _ (beginStage_ok _ _ (.inl inUnit_fone) (.inl rfl) inUnit_fzero (by simp)
    (percent_inUnit _ h.sustain) (stageSamples_le h.attack.2) (stageSamples_le h.decay.2) (stageSamples_le h.release.2)
    ht.freq ht.tw)

theorem startVoice_gen (c : Params) (r : Regs) (n : BitVec 3) (g : Nat) (x : Voice) : (startVoice c r n g x).gen = g := rfl

theorem startVoice_env (c : Params) (r : Regs) (n : BitVec 3) (g : Nat) (x : Voice) :
    (startVoice c r n g x).env = .attack := rfl

theorem startVoice_phase (c : Params) (r : Regs) (n : BitVec 3) (g : Nat) (x : Voice) :
    (startVoice c r n g x).phase = x.phase := rfl

theorem releaseVoice_ok {c : Params} {x : Voice} (h : VoiceOk c x) : VoiceOk c (releaseVoice x) := by
  unfold releaseVoice
  split
  · exact h
  · exact beginStage_ok (x := { x with env := .release }) _ _ (.inl h.level) (.inr (.inr rfl)) h.level (by simp) h.sus h.atk
      h.dec h.rel h.freq h.tw

theorem releaseVoice_gen (x : Voice) : (releaseVoice x).gen = x.gen := by
  unfold releaseVoice; split <;> rfl

theorem releaseVoice_idle (x : Voice) : (releaseVoice x).env = .idle ↔ x.env = .idle := by
  unfold releaseVoice
  split
  · rfl
  · next h => simp [beginStage, h]

/-! ### The pool -/

theorem mem_modify {α : Type} {l : List α} {i : Nat} {f : α → α} {y : α} (h : y ∈ l.modify i f) :
    y ∈ l ∨ ∃ x, l[i]? = some x ∧ y = f x := by
  obtain ⟨j, hj⟩ := List.mem_iff_getElem?.1 h
  rw [List.getElem?_modify] at hj
  cases hx : l[j]? with
  | none => simp [hx] at hj
  | some x =>
    rw [hx] at hj
    by_cases e : i = j
    · subst e
      simp at hj
      exact .inr ⟨x, hx, hj.symm⟩
    · simp [e] at hj
      exact .inl (hj ▸ List.mem_of_getElem? hx)

theorem voicesOk_modify {s : State} (v : Nat) (f : Voice → Voice) (h : VoicesOk s)
    (hf : ∀ x, s.voices[v]? = some x → VoiceOk s.cfg (f x)) : VoicesOk (modifyVoice v f s) :=
  { count := by simp [h.count]
    each := fun y hy => by
      rcases mem_modify hy with hm | ⟨x, hx, rfl⟩
      · exact h.each y hm
      · exact hf x hx }

theorem voicesOk_map {s : State} (f : Voice → Voice) (h : VoicesOk s) (hf : ∀ x, VoiceOk s.cfg x → VoiceOk s.cfg (f x)) :
    VoicesOk { s with voices := s.voices.map f } :=
  { count := by simp [h.count]
    each := fun y hy => by
      obtain ⟨x, hx, rfl⟩ := List.mem_map.1 hy
      exact hf x (h.each x hx) }

theorem voicesOk_congr {s t : State} (h : VoicesOk s) (hc : t.cfg = s.cfg) (hv : t.voices = s.voices) : VoicesOk t :=
  ⟨by rw [hv, hc]; exact h.count, by rw [hv, hc]; exact h.each⟩

theorem gensOk_congr {s t : State} (h : GensOk s) (hc : t.cfg = s.cfg) (hv : t.voices = s.voices)
    (hn : t.nextGen = s.nextGen) (hk : t.keyGen = s.keyGen) : GensOk t :=
  ⟨by rw [hn, hc]; exact h.next, by rw [hk]; exact h.slots, by rw [hv, hn]; exact h.voices, by rw [hk, hn]; exact h.keys,
    by rw [hv]; exact h.sounding, by rw [hv]; exact h.distinct⟩

/-- A change of voices that keeps their generations, and makes no voice sound that did not, keeps the generations. -/
theorem gensOk_forall₂ {s : State} {vs : List Voice} (h : GensOk s)
    (hv : List.Forall₂ (fun x y => y.gen = x.gen ∧ (x.env = .idle → y.env = .idle)) s.voices vs) :
    GensOk { s with voices := vs } := by
  have back : ∀ y ∈ vs, ∃ x ∈ s.voices, y.gen = x.gen ∧ (x.env = .idle → y.env = .idle) := by
    intro y hy
    obtain ⟨i, hi, rfl⟩ := List.mem_iff_getElem.1 hy
    have hl := hv.length_eq
    exact ⟨s.voices[i]'(by omega), List.getElem_mem _, (List.forall₂_iff_get.1 hv).2 i (by omega) hi⟩
  exact
    { next := h.next
      slots := h.slots
      voices := fun y hy => by obtain ⟨x, hx, e, _⟩ := back y hy; rw [e]; exact h.voices x hx
      keys := h.keys
      sounding := fun y hy hs => by
        obtain ⟨x, hx, e, hi⟩ := back y hy
        rw [e]
        exact h.sounding x hx (fun c => hs (hi c))
      distinct := by
        rw [List.pairwise_iff_getElem]
        intro i j hi hj hij
        have hl := hv.length_eq
        change i < vs.length at hi
        change j < vs.length at hj
        have hd := List.pairwise_iff_getElem.1 h.distinct i j (by omega) (by omega) hij
        have ei := ((List.forall₂_iff_get.1 hv).2 i (by omega) hi).1
        have ej := ((List.forall₂_iff_get.1 hv).2 j (by omega) hj).1
        simp only [List.get_eq_getElem] at ei ej
        show vs[i].gen ≠ 0 → vs[i].gen ≠ vs[j].gen
        rw [ei, ej]
        exact hd }

theorem forall₂_map_self {α : Type} {R : α → α → Prop} {f : α → α} (h : ∀ x, R x (f x)) (l : List α) :
    List.Forall₂ R l (l.map f) := by
  induction l with
  | nil => exact .nil
  | cons a l ih => exact .cons (h a) ih

theorem forall₂_modify_self {α : Type} {R : α → α → Prop} {f : α → α} (h : ∀ x, R x (f x)) (hr : ∀ x, R x x) (l : List α)
    (i : Nat) : List.Forall₂ R l (l.modify i f) := by
  induction l generalizing i with
  | nil => simp
  | cons a l ih =>
    cases i with
    | zero => simpa using List.Forall₂.cons (h a) (List.forall₂_same.2 fun x _ => hr x)
    | succ i => simpa using List.Forall₂.cons (hr a) (ih i)

/-! ### NOTE_OFF -/

theorem onlyVoices_refl (s : State) : OnlyVoices s s :=
  ⟨rfl, rfl, rfl, rfl, rfl, rfl, rfl, rfl, rfl, rfl, rfl, rfl, rfl, rfl, rfl, rfl, rfl, rfl, rfl⟩

theorem onlyVoices_trans {s t u : State} (h : OnlyVoices s t) (g : OnlyVoices t u) : OnlyVoices s u :=
  ⟨g.cfg.trans h.cfg, g.seq.trans h.seq, g.filt.trans h.filt, g.encs.trans h.encs, g.keys.trans h.keys, g.cmdq.trans h.cmdq,
    g.evq.trans h.evq, g.rawq.trans h.rawq, g.sticky.trans h.sticky, g.irqEn.trans h.irqEn, g.regs.trans h.regs,
    g.keymap.trans h.keymap, g.tick.trans h.tick, g.faults.trans h.faults, g.pcm.trans h.pcm, g.answer.trans h.answer,
    g.lines.trans h.lines, g.eager.trans h.eager, g.drawn.trans h.drawn⟩

theorem onlyVoices_update (s : State) (vs : List Voice) (n : Nat) (ks : List Nat) :
    OnlyVoices s { s with voices := vs, nextGen := n, keyGen := ks } :=
  ⟨rfl, rfl, rfl, rfl, rfl, rfl, rfl, rfl, rfl, rfl, rfl, rfl, rfl, rfl, rfl, rfl, rfl, rfl, rfl⟩

/-- NOTE_OFF writes voices alone. -/
theorem noteOff_frame (k : BitVec 4) (s : State) :
    OnlyVoices s (noteOff k s) ∧ (noteOff k s).nextGen = s.nextGen ∧ (noteOff k s).keyGen = s.keyGen := by
  unfold noteOff
  simp only []
  split
  · exact ⟨onlyVoices_refl s, rfl, rfl⟩
  · split
    · exact ⟨onlyVoices_refl s, rfl, rfl⟩
    · exact ⟨onlyVoices_update s _ _ _, rfl, rfl⟩

theorem noteOff_voicesOk (k : BitVec 4) {s : State} (h : VoicesOk s) : VoicesOk (noteOff k s) := by
  unfold noteOff
  simp only []
  split
  · exact h
  · split
    · exact h
    · exact voicesOk_modify _ _ h fun x hx => releaseVoice_ok (h.each x (List.mem_of_getElem? hx))

theorem noteOff_gensOk (k : BitVec 4) {s : State} (h : GensOk s) : GensOk (noteOff k s) := by
  unfold noteOff
  simp only []
  split
  · exact h
  · split
    · exact h
    · exact gensOk_forall₂ h (forall₂_modify_self (fun x => ⟨releaseVoice_gen x, (releaseVoice_idle x).2⟩)
        (fun x => ⟨rfl, id⟩) _ _)

/-! ### GEN_REBASE -/

/-- GEN_REBASE writes generations alone. -/
theorem genRebase_frame (s : State) : OnlyVoices s (genRebase s) := by
  unfold genRebase rebaseBy rebaseRanks
  simp only []
  split <;> exact onlyVoices_update s _ _ _

theorem genRebase_voicesOk {s : State} (h : VoicesOk s) : VoicesOk (genRebase s) := by
  unfold genRebase rebaseBy rebaseRanks
  simp only []
  split
  · exact voicesOk_congr (voicesOk_map (fun x => { x with gen := _ }) h (fun x hx => voiceOk_gen _ hx)) rfl rfl
  · exact voicesOk_congr (voicesOk_map (fun x => { x with gen := _ }) h (fun x hx => voiceOk_gen _ hx)) rfl rfl

theorem mem_activeGens {vs : List Voice} {g : Nat} : g ∈ activeGens vs ↔ ∃ x ∈ vs, x.env ≠ .idle ∧ x.gen = g := by
  unfold activeGens
  rw [List.mem_dedup, List.mem_map]
  constructor
  · rintro ⟨x, hx, rfl⟩
    rw [List.mem_filter] at hx
    exact ⟨x, hx.1, by simpa using hx.2, rfl⟩
  · rintro ⟨x, hx, he, rfl⟩
    exact ⟨x, List.mem_filter.2 ⟨hx, by simpa using he⟩, rfl⟩

theorem activeGens_nodup (vs : List Voice) : (activeGens vs).Nodup := List.nodup_dedup _

theorem activeGens_length_le (vs : List Voice) : (activeGens vs).length ≤ vs.length := by
  unfold activeGens
  refine Nat.le_trans (List.dedup_sublist _).length_le ?_
  rw [List.length_map]
  exact List.length_filter_le _ _

theorem foldl_min_mem (g : Nat) (gs : List Nat) : gs.foldl min g ∈ g :: gs ∧ ∀ a ∈ g :: gs, gs.foldl min g ≤ a := by
  induction gs generalizing g with
  | nil => simp
  | cons b gs ih =>
    obtain ⟨h1, h2⟩ := ih (min g b)
    rw [List.foldl_cons]
    constructor
    · rcases List.mem_cons.1 h1 with h | h
      · rcases Nat.le_total g b with hgb | hgb
        · rw [h, Nat.min_eq_left hgb]; simp
        · rw [h, Nat.min_eq_right hgb]; simp
      · simp [h]
    · intro a ha
      have hm := h2 (min g b) (by simp)
      rcases List.mem_cons.1 ha with rfl | ha
      · omega
      · rcases List.mem_cons.1 ha with rfl | ha
        · omega
        · exact h2 a (by simp [ha])

/-- With an active voice, the offset is one less than the least active generation. -/
theorem rebaseOffset_spec {gens : List Nat} {n : Nat} (hne : gens ≠ []) :
    ∃ m ∈ gens, (∀ a ∈ gens, m ≤ a) ∧ rebaseOffset gens n = m - 1 := by
  cases gens with
  | nil => exact absurd rfl hne
  | cons g gs =>
    obtain ⟨h1, h2⟩ := foldl_min_mem g gs
    exact ⟨_, h1, h2, rfl⟩

theorem genRank_le (gens : List Nat) (g : Nat) : genRank gens g ≤ gens.length := List.length_filter_le _ _

theorem genRank_pos {gens : List Nat} {g : Nat} (h : g ∈ gens) : 0 < genRank gens g := by
  unfold genRank
  exact List.length_pos_of_mem (List.mem_filter.2 ⟨h, by simp⟩)

/-- Ranks keep the order of the elements of A (R292, R293). -/
theorem genRank_lt {gens : List Nat} {a b : Nat} (hb : b ∈ gens) (h : a < b) : genRank gens a < genRank gens b := by
  unfold genRank
  rw [← List.countP_eq_length_filter, ← List.countP_eq_length_filter]
  induction gens with
  | nil => cases hb
  | cons g gs ih =>
    have mono : gs.countP (fun x => decide (x ≤ a)) ≤ gs.countP (fun x => decide (x ≤ b)) :=
      List.countP_mono_left fun x _ hx => by
        simp only [decide_eq_true_eq] at hx ⊢; omega
    rw [List.countP_cons, List.countP_cons]
    rcases List.mem_cons.1 hb with rfl | hb
    · simp [Nat.not_le.2 h]; omega
    · have := ih hb
      by_cases h1 : g ≤ a
      · simp [h1, Nat.le_trans h1 h.le]; omega
      · by_cases h2 : g ≤ b <;> simp [h1, h2] <;> omega

theorem genRank_inj {gens : List Nat} {a b : Nat} (ha : a ∈ gens) (hb : b ∈ gens) (h : genRank gens a = genRank gens b) :
    a = b := by
  rcases Nat.lt_trichotomy a b with h1 | h1 | h1
  · have := genRank_lt hb h1; omega
  · exact h1
  · have := genRank_lt ha h1; omega

theorem legal_counts {c : Params} (h : c.legal = true) : 1 ≤ c.nVoices ∧ c.nVoices ≤ 8 ∧ 15 ≤ c.genMax := by
  simp only [Params.legal, Bool.and_eq_true, decide_eq_true_eq, List.any_eq_true] at h
  obtain ⟨v1, v2, _, _, _, _, _, _, _, _, _, ⟨k, _, hk⟩, _⟩ := h
  have : 2 ^ 4 ≤ 2 ^ (k + 4) := Nat.pow_le_pow_right (by omega) (by omega)
  omega

/-- GEN_REBASE keeps the generations, and leaves room for the next one where there was none (R290). -/
theorem genRebase_gensOk {s : State} (hl : s.cfg.legal = true) (hv : VoicesOk s) (h : GensOk s) :
    GensOk (genRebase s) ∧ (s.nextGen = s.cfg.genMax + 1 → (genRebase s).nextGen ≤ s.cfg.genMax) := by
  obtain ⟨_, hN, hG⟩ := legal_counts hl
  have hlen : (activeGens s.voices).length ≤ 8 := by
    have := activeGens_length_le s.voices
    rw [hv.count] at this; omega
  have hnext := h.next
  unfold genRebase
  simp only []
  split
  · next hoff =>
    obtain ⟨off, hoff'⟩ : ∃ o, rebaseOffset (activeGens s.voices) s.nextGen = o := ⟨_, rfl⟩
    rw [hoff'] at hoff ⊢
    have hlt : off < s.nextGen ∧ ∀ x ∈ s.voices, x.env ≠ .idle → off < x.gen := by
      by_cases hne : activeGens s.voices = []
      · rw [hne] at hoff'
        have : s.nextGen - 1 = off := hoff'
        refine ⟨by omega, fun x hx he => ?_⟩
        have := mem_activeGens.2 ⟨x, hx, he, rfl⟩
        rw [hne] at this; cases this
      · obtain ⟨m, hm, hmin, e⟩ := rebaseOffset_spec (n := s.nextGen) hne
        obtain ⟨y, hy, _, ey⟩ := mem_activeGens.1 hm
        have := h.voices y hy
        refine ⟨by omega, fun x hx he => ?_⟩
        have := hmin _ (mem_activeGens.2 ⟨x, hx, he, rfl⟩)
        omega
    refine ⟨?_, fun hfull => ?_⟩
    · unfold rebaseBy
      exact
        { next := by show 1 ≤ s.nextGen - off ∧ s.nextGen - off ≤ s.cfg.genMax + 1; omega
          slots := by simp [h.slots]
          voices := fun y hy => by
            obtain ⟨x, hx, rfl⟩ := List.mem_map.1 hy
            have := h.voices x hx
            show x.gen - off < s.nextGen - off; omega
          keys := fun g hg => by
            obtain ⟨k, hk, rfl⟩ := List.mem_map.1 hg
            have := h.keys k hk
            show k - off < s.nextGen - off; omega
          sounding := fun y hy he => by
            obtain ⟨x, hx, rfl⟩ := List.mem_map.1 hy
            have := hlt.2 x hx he
            show x.gen - off ≠ 0; omega
          distinct := by
            rw [List.pairwise_map]
            refine h.distinct.imp ?_
            intro x y hxy hx
            have hx' : x.gen - off ≠ 0 := hx
            have := hxy (by omega)
            show x.gen - off ≠ y.gen - off; omega }
    · show s.nextGen - off ≤ s.cfg.genMax; omega
  · refine ⟨?_, fun _ => by show (activeGens s.voices).length + 1 ≤ _; omega⟩
    unfold rebaseRanks
    exact
      { next := by show 1 ≤ (activeGens s.voices).length + 1 ∧ (activeGens s.voices).length + 1 ≤ s.cfg.genMax + 1; omega
        slots := by simp [h.slots]
        voices := fun y hy => by
          obtain ⟨x, hx, rfl⟩ := List.mem_map.1 hy
          have := genRank_le (activeGens s.voices) x.gen
          show (if x.env ≠ .idle then genRank (activeGens s.voices) x.gen else 0) < (activeGens s.voices).length + 1
          split <;> omega
        keys := fun g hg => by
          obtain ⟨k, hk, rfl⟩ := List.mem_map.1 hg
          have := genRank_le (activeGens s.voices) k
          show (if k ∈ activeGens s.voices then genRank (activeGens s.voices) k else 0) < (activeGens s.voices).length + 1
          split <;> omega
        sounding := fun y hy he => by
          obtain ⟨x, hx, rfl⟩ := List.mem_map.1 hy
          have he' : x.env ≠ .idle := he
          have := genRank_pos (mem_activeGens.2 ⟨x, hx, he', rfl⟩)
          show (if x.env ≠ .idle then genRank (activeGens s.voices) x.gen else 0) ≠ 0
          rw [if_pos he']; omega
        distinct := by
          rw [List.pairwise_map]
          refine List.Pairwise.imp_of_mem ?_ h.distinct
          intro x y hx hy hxy
          show (if x.env ≠ .idle then genRank (activeGens s.voices) x.gen else 0) ≠ 0 →
            (if x.env ≠ .idle then genRank (activeGens s.voices) x.gen else 0) ≠
              (if y.env ≠ .idle then genRank (activeGens s.voices) y.gen else 0)
          by_cases ex : x.env ≠ .idle
          · have mx := mem_activeGens.2 ⟨x, hx, ex, rfl⟩
            have px := genRank_pos mx
            by_cases ey : y.env ≠ .idle
            · have my := mem_activeGens.2 ⟨y, hy, ey, rfl⟩
              rw [if_pos ex, if_pos ey]
              intro _ e
              exact hxy (h.sounding x hx ex) (genRank_inj mx my e)
            · rw [if_pos ex, if_neg ey]; omega
          · rw [if_neg ex]; intro c; exact absurd rfl c }

/-! ### NOTE_ON -/

theorem rebaseIfFull_frame (s : State) : OnlyVoices s (rebaseIfFull s) := by
  unfold rebaseIfFull
  split
  · exact genRebase_frame s
  · exact onlyVoices_refl s

/-- NOTE_ON writes voices and generations alone. -/
theorem noteOn_frame (k : BitVec 4) (n : BitVec 3) (s : State) : OnlyVoices s (noteOn k n s) :=
  onlyVoices_trans (rebaseIfFull_frame s) (onlyVoices_update _ _ _ _)

theorem regsOk_congr {s t : State} (h : RegsOk s) (hc : t.cfg = s.cfg) (hr : t.regs = s.regs) : RegsOk t :=
  ⟨by rw [hr]; exact h.attack, by rw [hr]; exact h.decay, by rw [hr]; exact h.sustain, by rw [hr]; exact h.release,
    by rw [hr]; exact h.cutoff, by rw [hr]; exact h.resonance, by rw [hr]; exact h.volume, by rw [hr]; exact h.note,
    by rw [hr, hc]; exact h.octave⟩

theorem noteOn_ok (k : BitVec 4) (n : BitVec 3) {s : State} (hl : s.cfg.legal = true) (hr : RegsOk s) (hv : VoicesOk s)
    (hg : GensOk s) : VoicesOk (noteOn k n s) ∧ GensOk (noteOn k n s) := by
  have hc := (rebaseIfFull_frame s).cfg
  have hregs := (rebaseIfFull_frame s).regs
  have hvt : VoicesOk (rebaseIfFull s) := by
    unfold rebaseIfFull; split
    · exact genRebase_voicesOk hv
    · exact hv
  have hlt : (rebaseIfFull s).cfg.legal = true := by rw [hc]; exact hl
  have hgt : GensOk (rebaseIfFull s) ∧ (rebaseIfFull s).nextGen ≤ s.cfg.genMax := by
    unfold rebaseIfFull; split
    · next e => exact ⟨(genRebase_gensOk hl hv hg).1, (genRebase_gensOk hl hv hg).2 e⟩
    · next e => exact ⟨hg, by have := hg.next; omega⟩
  have hrt : RegsOk (rebaseIfFull s) := regsOk_congr hr hc hregs
  unfold noteOn
  simp only []
  generalize rebaseIfFull s = t at *
  obtain ⟨hgt, hroom⟩ := hgt
  constructor
  · exact voicesOk_congr (voicesOk_modify (voiceSelect t.voices) (startVoice t.cfg t.regs n t.nextGen) hvt
      (fun x hx => startVoice_ok hlt n _ hrt (hvt.each x (List.mem_of_getElem? hx)))) rfl rfl
  · exact
      { next := by
          show 1 ≤ t.nextGen + 1 ∧ t.nextGen + 1 ≤ t.cfg.genMax + 1
          rw [hc]; omega
        slots := by simp [hgt.slots]
        voices := fun y hy => by
          show y.gen < t.nextGen + 1
          rcases mem_modify hy with hm | ⟨x, _, rfl⟩
          · have := hgt.voices y hm; omega
          · rw [startVoice_gen]; omega
        keys := fun g hm => by
          show g < t.nextGen + 1
          rcases List.mem_or_eq_of_mem_set hm with hm | rfl
          · have := hgt.keys g hm; omega
          · omega
        sounding := fun y hy he => by
          rcases mem_modify hy with hm | ⟨x, _, rfl⟩
          · exact hgt.sounding y hm he
          · rw [startVoice_gen]; have := hgt.next; omega
        distinct := by
          show List.Pairwise _ (t.voices.modify (voiceSelect t.voices) (startVoice t.cfg t.regs n t.nextGen))
          rw [List.pairwise_iff_getElem]
          intro i j hi hj hij
          rw [List.length_modify] at hi hj
          have hd := List.pairwise_iff_getElem.1 hgt.distinct i j hi hj hij
          have gi := hgt.voices _ (List.getElem_mem hi)
          have gj := hgt.voices _ (List.getElem_mem hj)
          rw [List.getElem_modify, List.getElem_modify]
          split
          · rw [if_neg (by omega), startVoice_gen]; intro _; omega
          · split
            · rw [startVoice_gen]; intro _; omega
            · exact hd }

/-! ### Commands -/

theorem applyCmd_frame (s : State) (r : Cmd) : OnlyVoices s (applyCmd s r) := by
  unfold applyCmd
  split
  · exact noteOn_frame _ _ s
  · exact (noteOff_frame _ s).1

theorem applyCmd_ok (r : Cmd) {s : State} (hl : s.cfg.legal = true) (hr : RegsOk s) (hv : VoicesOk s) (hg : GensOk s) :
    VoicesOk (applyCmd s r) ∧ GensOk (applyCmd s r) := by
  unfold applyCmd
  split
  · exact noteOn_ok _ _ hl hr hv hg
  · exact ⟨noteOff_voicesOk _ hv, noteOff_gensOk _ hg⟩

theorem foldl_applyCmd_frame (q : List Cmd) (s : State) : OnlyVoices s (q.foldl applyCmd s) := by
  induction q generalizing s with
  | nil => exact onlyVoices_refl s
  | cons r q ih => exact onlyVoices_trans (applyCmd_frame s r) (ih _)

/-- The commands of a frame write voices and generations, and empty CMDQ (R365). -/
theorem applyCommands_frame (s : State) : OnlyVoices { s with cmdq := [] } (applyCommands s) := foldl_applyCmd_frame _ _

theorem foldl_applyCmd_ok (q : List Cmd) {s : State} (hl : s.cfg.legal = true) (hr : RegsOk s) (hv : VoicesOk s)
    (hg : GensOk s) : VoicesOk (q.foldl applyCmd s) ∧ GensOk (q.foldl applyCmd s) := by
  induction q generalizing s with
  | nil => exact ⟨hv, hg⟩
  | cons r q ih =>
    have hc := (applyCmd_frame s r).cfg
    have hregs := (applyCmd_frame s r).regs
    obtain ⟨h1, h2⟩ := applyCmd_ok r hl hr hv hg
    exact ih (by rw [hc]; exact hl) (regsOk_congr hr hc hregs) h1 h2

theorem applyCommands_ok {s : State} (hl : s.cfg.legal = true) (hr : RegsOk s) (hv : VoicesOk s) (hg : GensOk s) :
    VoicesOk (applyCommands s) ∧ GensOk (applyCommands s) :=
  foldl_applyCmd_ok s.cmdq (s := { s with cmdq := [] }) hl (regsOk_congr hr rfl rfl) (voicesOk_congr hv rfl rfl)
    (gensOk_congr hg rfl rfl rfl rfl)

/-! ### The voice loop of a frame -/

/-- The voice loop: every voice advanced, and the mix summed in ascending order (R364, R367). -/
theorem renderVoices_eq (c : Params) (w : BitVec 2) (vs : List Voice) (mix : F32) :
    renderVoices c w vs mix =
      (vs.map (fun x => oscAdvance (envAdvance x)), vs.foldl (fun m x => mixVoice c w m (envAdvance x)) mix) := by
  induction vs generalizing mix with
  | nil => rfl
  | cons x vs ih => simp [renderVoices, ih]

end Sys2Proof.Machine
end

