-- ==== Sys2Proof/Laws/Invariant.lean ====
section
/-! SUPPORT. What each shared operation keeps of the invariant of Safety.lean, part by part, and the fields each operation of the input
decoder leaves alone. -/

namespace Sys2Proof.Machine

/-! ### Parts that do not change -/

theorem seqOk_congr {s t : State} (h : SeqOk s) (hc : t.cfg = s.cfg) (hq : t.seq = s.seq) : SeqOk t :=
  ⟨by rw [hq, hc]; exact h.inHalf, by rw [hq]; exact h.rest⟩

theorem queuesOk_congr {s t : State} (h : QueuesOk s) (hc : t.cfg = s.cfg) (h1 : t.cmdq = s.cmdq) (h2 : t.evq = s.evq)
    (h3 : t.rawq = s.rawq) : QueuesOk t :=
  ⟨by rw [h1, hc]; exact h.cmdq, by rw [h2, hc]; exact h.evq, by rw [h3, hc]; exact h.rawq, by rw [h1]; exact h.cmds⟩

theorem keymapOk_congr {s t : State} (h : KeymapOk s) (hk : t.keymap = s.keymap) : KeymapOk t :=
  ⟨by rw [hk]; exact h.count, by rw [hk]; exact h.each⟩

theorem keysOk_congr {s t : State} (h : KeysOk s) (hc : t.cfg = s.cfg) (hk : t.keys = s.keys) : KeysOk t :=
  ⟨by rw [hk]; exact h.count, by rw [hk, hc]; exact h.each⟩

theorem encsOk_congr {s t : State} (h : EncsOk s) (hc : t.cfg = s.cfg) (he : t.encs = s.encs) : EncsOk t :=
  ⟨by rw [he, hc]; exact h.count, by rw [he, hc]; exact h.each⟩

theorem pcmOk_congr {s t : State} (h : PcmOk s) (hc : t.cfg = s.cfg) (hp : t.pcm = s.pcm) : PcmOk t :=
  ⟨by rw [hp]; exact h.form, by rw [hp, hc]; exact h.within⟩

/-- Fields that no part of the invariant reads. -/
theorem inv_congr {s t : State} (h : s.Inv) (hcfg : t.cfg = s.cfg) (hseq : t.seq = s.seq) (hvoices : t.voices = s.voices)
    (hnext : t.nextGen = s.nextGen) (hkeyGen : t.keyGen = s.keyGen) (hencs : t.encs = s.encs) (hkeys : t.keys = s.keys)
    (hcmdq : t.cmdq = s.cmdq) (hevq : t.evq = s.evq) (hrawq : t.rawq = s.rawq) (hregs : t.regs = s.regs)
    (hkeymap : t.keymap = s.keymap) (hpcm : t.pcm = s.pcm) : t.Inv :=
  { cfg := by rw [hcfg]; exact h.cfg
    voices := voicesOk_congr h.voices hcfg hvoices
    gens := gensOk_congr h.gens hcfg hvoices hnext hkeyGen
    seq := seqOk_congr h.seq hcfg hseq
    queues := queuesOk_congr h.queues hcfg hcmdq hevq hrawq
    regs := regsOk_congr h.regs hcfg hregs
    keymap := keymapOk_congr h.keymap hkeymap
    keys := keysOk_congr h.keys hcfg hkeys
    encs := encsOk_congr h.encs hcfg hencs
    pcm := pcmOk_congr h.pcm hcfg hpcm }

theorem inv_setSticky {s : State} (b : Nat) (h : s.Inv) : (setSticky b s).Inv :=
  inv_congr h rfl rfl rfl rfl rfl rfl rfl rfl rfl rfl rfl rfl rfl

theorem inv_answerWith {s : State} (a : Answer) (h : s.Inv) : (answerWith a s).Inv :=
  inv_congr h rfl rfl rfl rfl rfl rfl rfl rfl rfl rfl rfl rfl rfl

theorem inv_raiseFault {s : State} (k : FaultKind) (h : s.Inv) : (raiseFault k s).Inv := by
  cases k <;> exact inv_congr h rfl rfl rfl rfl rfl rfl rfl rfl rfl rfl rfl rfl rfl

/-! ### FIFOs -/

theorem inv_pushCmd {s : State} {r : Cmd} (hr : CmdOk r) (h : s.Inv) : (pushCmd r s).Inv := by
  unfold pushCmd
  split
  · next hlt =>
    exact { h with
      voices := voicesOk_congr h.voices rfl rfl
      gens := gensOk_congr h.gens rfl rfl rfl rfl
      seq := seqOk_congr h.seq rfl rfl
      queues :=
        { cmdq := by simp; omega
          evq := h.queues.evq
          rawq := h.queues.rawq
          cmds := fun x hx => by
            rcases List.mem_append.1 hx with hx | hx
            · exact h.queues.cmds x hx
            · rw [List.mem_singleton.1 hx]; exact hr }
      regs := regsOk_congr h.regs rfl rfl
      keymap := keymapOk_congr h.keymap rfl
      keys := keysOk_congr h.keys rfl rfl
      encs := encsOk_congr h.encs rfl rfl
      pcm := pcmOk_congr h.pcm rfl rfl }
  · exact inv_setSticky _ h

theorem inv_pushEvent {s : State} (r : Event) (h : s.Inv) : (pushEvent r s).Inv := by
  unfold pushEvent
  split
  · next hlt =>
    exact { h with
      voices := voicesOk_congr h.voices rfl rfl
      gens := gensOk_congr h.gens rfl rfl rfl rfl
      seq := seqOk_congr h.seq rfl rfl
      queues :=
        { cmdq := h.queues.cmdq
          evq := by simp; omega
          rawq := h.queues.rawq
          cmds := h.queues.cmds }
      regs := regsOk_congr h.regs rfl rfl
      keymap := keymapOk_congr h.keymap rfl
      keys := keysOk_congr h.keys rfl rfl
      encs := encsOk_congr h.encs rfl rfl
      pcm := pcmOk_congr h.pcm rfl rfl }
  · exact inv_setSticky _ h

theorem inv_pushRaw {s : State} (r : BitVec 64) (h : s.Inv) : (pushRaw r s).Inv := by
  unfold pushRaw
  split
  · next hlt =>
    exact { h with
      voices := voicesOk_congr h.voices rfl rfl
      gens := gensOk_congr h.gens rfl rfl rfl rfl
      seq := seqOk_congr h.seq rfl rfl
      queues :=
        { cmdq := h.queues.cmdq
          evq := h.queues.evq
          rawq := by simp; omega
          cmds := h.queues.cmds }
      regs := regsOk_congr h.regs rfl rfl
      keymap := keymapOk_congr h.keymap rfl
      keys := keysOk_congr h.keys rfl rfl
      encs := encsOk_congr h.encs rfl rfl
      pcm := pcmOk_congr h.pcm rfl rfl }
  · exact inv_setSticky _ h

/-! ### Registers and key map -/

theorem inv_regs {s : State} (r : Regs) (h : s.Inv) (hr : RegsOk { s with regs := r }) : ({ s with regs := r } : State).Inv :=
  { h with
    voices := voicesOk_congr h.voices rfl rfl
    gens := gensOk_congr h.gens rfl rfl rfl rfl
    seq := seqOk_congr h.seq rfl rfl
    queues := queuesOk_congr h.queues rfl rfl rfl rfl
    regs := hr
    keymap := keymapOk_congr h.keymap rfl
    keys := keysOk_congr h.keys rfl rfl
    encs := encsOk_congr h.encs rfl rfl
    pcm := pcmOk_congr h.pcm rfl rfl }

theorem inv_voices {s t : State} (h : s.Inv) (hv : VoicesOk t) (hg : GensOk t) (hcfg : t.cfg = s.cfg)
    (hseq : t.seq = s.seq) (hencs : t.encs = s.encs) (hkeys : t.keys = s.keys) (hcmdq : t.cmdq = s.cmdq)
    (hevq : t.evq = s.evq) (hrawq : t.rawq = s.rawq) (hregs : t.regs = s.regs) (hkeymap : t.keymap = s.keymap)
    (hpcm : t.pcm = s.pcm) : t.Inv :=
  { cfg := by rw [hcfg]; exact h.cfg
    voices := hv
    gens := hg
    seq := seqOk_congr h.seq hcfg hseq
    queues := queuesOk_congr h.queues hcfg hcmdq hevq hrawq
    regs := regsOk_congr h.regs hcfg hregs
    keymap := keymapOk_congr h.keymap hkeymap
    keys := keysOk_congr h.keys hcfg hkeys
    encs := encsOk_congr h.encs hcfg hencs
    pcm := pcmOk_congr h.pcm hcfg hpcm }

/-- A clamped u8 field: its value is the clamped number (R464). -/
theorem toNat_clampReg {d : Word} {lo hi : Nat} (hb : hi < 256) : (clampReg d lo hi).toNat = clampU d lo hi := by
  unfold clampReg
  rw [BitVec.toNat_ofNat]
  exact Nat.mod_eq_of_lt (by unfold clampU; omega)

theorem clampU_bounds {d : Word} {lo hi : Nat} (h : lo ≤ hi) : lo ≤ clampU d lo hi ∧ clampU d lo hi ≤ hi := by
  unfold clampU; omega

theorem clampS_bounds {d : Word} {lo hi : Int} (h : lo ≤ hi) : lo ≤ clampS d lo hi ∧ clampS d lo hi ≤ hi := by
  unfold clampS; omega

theorem legal_input {c : Params} (h : c.legal = true) :
    1 ≤ c.debounceMax ∧ 1 ≤ c.detentSubsteps ∧ c.detentSubsteps ≤ 127 := by
  simp only [Params.legal, Bool.and_eq_true, decide_eq_true_eq] at h
  obtain ⟨_, _, _, _, _, _, _, _, _, _, _, _, h1, _, _, _, h2, h3, _⟩ := h
  omega

theorem legal_buffer {c : Params} (h : c.legal = true) :
    c.bufFrames % 2 = 0 ∧ 2 ≤ c.bufFrames ∧ c.bufFrames ≤ 65534 := by
  simp only [Params.legal, Bool.and_eq_true, decide_eq_true_eq] at h
  obtain ⟨_, _, _, _, _, _, _, h1, h2, h3, _⟩ := h
  exact ⟨h1, h2, h3⟩

/-- Every KEYMAP entry a write stores is legal (R57, R466). -/
theorem keymapEntry_ok (d : Word) : KeymapEntryOk (keymapEntry d) := by
  have key : ∀ (k : BitVec 2) (i : BitVec 3), KeymapEntryOk
      (if k = 0b01#2 then k ++ 0#3 ++ BitVec.ofNat 3 (min i.toNat 6)
        else if k = 0b10#2 then k ++ 0#3 ++ BitVec.ofNat 3 (min i.toNat 3) else 0#8) := by decide +kernel
  exact key (d.extractLsb' 6 2) (d.extractLsb' 0 3)

/-- A legal NOTE entry has an index up to 6 (R57). -/
theorem keymapIndex_le {m : BitVec 8} (h : KeymapEntryOk m) (hk : keymapKind m = 0b01#2) : (keymapIndex m).toNat ≤ 6 := by
  revert m; decide +kernel

theorem keymap_getD {s : State} (h : KeymapOk s) (k : BitVec 4) : KeymapEntryOk (s.keymap.getD k.toNat 0#8) := by
  rw [List.getD_eq_getElem?_getD]
  cases e : s.keymap[k.toNat]? with
  | none => left; rfl
  | some m => exact h.each m (List.mem_of_getElem? e)

/-! ### The keypad -/

theorem onlyDecoder_refl (s : State) : OnlyDecoder s s :=
  ⟨rfl, rfl, rfl, rfl, rfl, rfl, rfl, rfl, rfl, rfl, rfl, rfl, rfl, rfl, rfl, rfl, rfl⟩

theorem onlyDecoder_trans {s t u : State} (h : OnlyDecoder s t) (g : OnlyDecoder t u) : OnlyDecoder s u :=
  ⟨g.cfg.trans h.cfg, g.seq.trans h.seq, g.voices.trans h.voices, g.nextGen.trans h.nextGen, g.keyGen.trans h.keyGen,
    g.filt.trans h.filt, g.rawq.trans h.rawq, g.irqEn.trans h.irqEn, by rw [g.regs, h.regs], g.keymap.trans h.keymap,
    g.tick.trans h.tick, g.faults.trans h.faults, g.pcm.trans h.pcm, g.answer.trans h.answer, g.lines.trans h.lines,
    g.eager.trans h.eager, g.drawn.trans h.drawn⟩

theorem onlyDecoder_pushEvent (r : Event) (s : State) : OnlyDecoder s (pushEvent r s) := by
  unfold pushEvent
  split <;> exact ⟨rfl, rfl, rfl, rfl, rfl, rfl, rfl, rfl, rfl, rfl, rfl, rfl, rfl, rfl, rfl, rfl, rfl⟩

theorem onlyDecoder_pushCmd (r : Cmd) (s : State) : OnlyDecoder s (pushCmd r s) := by
  unfold pushCmd
  split <;> exact ⟨rfl, rfl, rfl, rfl, rfl, rfl, rfl, rfl, rfl, rfl, rfl, rfl, rfl, rfl, rfl, rfl, rfl⟩

theorem onlyDecoder_modifyEnc (e : Nat) (f : Encoder → Encoder) (s : State) : OnlyDecoder s (modifyEnc e f s) :=
  ⟨rfl, rfl, rfl, rfl, rfl, rfl, rfl, rfl, rfl, rfl, rfl, rfl, rfl, rfl, rfl, rfl, rfl⟩

theorem onlyDecoder_setKey (k : Nat) (x : Key) (s : State) : OnlyDecoder s (setKey k x s) :=
  ⟨rfl, rfl, rfl, rfl, rfl, rfl, rfl, rfl, rfl, rfl, rfl, rfl, rfl, rfl, rfl, rfl, rfl⟩

theorem onlyDecoder_note (n : BitVec 3) (s : State) : OnlyDecoder s { s with regs := { s.regs with note := n } } :=
  ⟨rfl, rfl, rfl, rfl, rfl, rfl, rfl, rfl, rfl, rfl, rfl, rfl, rfl, rfl, rfl, rfl, rfl⟩

/-- KEY_ACTION writes NOTE, WAVE, CMDQ and CMDQ_OVF alone (R440). -/
theorem keyAction_frame (k : BitVec 4) (p : Bool) (s : State) :
    OnlyDecoder s (keyAction k p s) ∧ (keyAction k p s).encs = s.encs ∧ (keyAction k p s).keys = s.keys ∧
      (keyAction k p s).evq = s.evq := by
  unfold keyAction
  simp only []
  split
  · split
    · exact ⟨onlyDecoder_trans (onlyDecoder_note _ s) (onlyDecoder_pushCmd _ _), by simp, by simp, by simp⟩
    · exact ⟨onlyDecoder_pushCmd _ _, by simp, by simp, by simp⟩
  · split
    · split
      · exact ⟨⟨rfl, rfl, rfl, rfl, rfl, rfl, rfl, rfl, rfl, rfl, rfl, rfl, rfl, rfl, rfl, rfl, rfl⟩, rfl, rfl, rfl⟩
      · exact ⟨onlyDecoder_refl s, rfl, rfl, rfl⟩
    · exact ⟨onlyDecoder_refl s, rfl, rfl, rfl⟩

theorem inv_keyAction {s : State} (k : BitVec 4) (p : Bool) (h : s.Inv) : (keyAction k p s).Inv := by
  unfold keyAction
  simp only []
  have hm := keymap_getD h.keymap k
  split
  · next hk =>
    have hi := keymapIndex_le hm hk
    split
    · exact inv_pushCmd (r := ⟨.noteOn, k, _⟩) hi (inv_regs _ h { h.regs with note := hi })
    · exact inv_pushCmd (r := ⟨.noteOff, k, 0#3⟩) rfl h
  · split
    · split
      · exact inv_regs _ h { h.regs with }
      · exact h
    · exact h

/-- KEY_EDGE writes NOTE, WAVE, CMDQ, EVQ and their overflow bits alone (R432). -/
theorem keyEdge_frame (k : BitVec 4) (p : Bool) (st : Word) (s : State) :
    OnlyDecoder s (keyEdge k p st s) ∧ (keyEdge k p st s).encs = s.encs ∧ (keyEdge k p st s).keys = s.keys := by
  obtain ⟨h1, h2, h3, _⟩ := keyAction_frame k p
    (pushEvent { type := .key, index := k, value := p, stamp := st.extractLsb' 0 16 } s)
  exact ⟨onlyDecoder_trans (onlyDecoder_pushEvent _ _) h1, h2.trans (by simp), h3.trans (by simp)⟩

theorem inv_keyEdge {s : State} (k : BitVec 4) (p : Bool) (st : Word) (h : s.Inv) : (keyEdge k p st s).Inv :=
  inv_keyAction k p (inv_pushEvent _ h)

/-- The key after a scan that reads it pressed or not (R431). -/
def keyAfter (max : Nat) (pressed : Bool) (x : Key) : Key :=
  if pressed then
    if integrate max true x.integ = max ∧ x.stable = false then ⟨integrate max true x.integ, true⟩
    else ⟨integrate max true x.integ, x.stable⟩
  else
    if integrate max false x.integ = 0 ∧ x.stable = true then ⟨integrate max false x.integ, false⟩
    else ⟨integrate max false x.integ, x.stable⟩

theorem keyAfter_ok {c : Params} (hm : 1 ≤ c.debounceMax) {x : Key} (p : Bool) (h : KeyOk c x) :
    KeyOk c (keyAfter c.debounceMax p x) := by
  have := h.bound
  cases p with
  | true =>
    have hi : 1 ≤ integrate c.debounceMax true x.integ ∧ integrate c.debounceMax true x.integ ≤ c.debounceMax := by
      unfold integrate; simp only [if_true]; split <;> omega
    unfold keyAfter
    simp only [if_true]
    split
    · exact ⟨hi.2, fun _ => rfl, fun e => by simp only [] at e; omega⟩
    · next hn =>
      exact ⟨hi.2, fun e => by simpa using fun hs => hn ⟨e, hs⟩, fun e => by simp only [] at e; omega⟩
  | false =>
    have hi : integrate c.debounceMax false x.integ < c.debounceMax := by
      unfold integrate; simp only [Bool.false_eq_true, if_false]; omega
    unfold keyAfter
    simp only [Bool.false_eq_true, if_false]
    split
    · exact ⟨hi.le, fun e => by simp only [] at e; omega, fun _ => rfl⟩
    · next hn =>
      exact ⟨hi.le, fun e => by simp only [] at e; omega, fun e => by simpa using fun hs => hn ⟨e, hs⟩⟩

/-- Whether a scan that reads the key pressed or not fires an edge of it (R431). -/
def keyFires (max : Nat) (pressed : Bool) (x : Key) : Bool :=
  if pressed then decide (integrate max true x.integ = max) && !x.stable
  else decide (integrate max false x.integ = 0) && x.stable

/-- Everything one key of a scan does: the key changes, then its edge fires if it does. -/
theorem scanKey_eq (mask : BitVec 16) (st : Word) (s : State) (k : Nat) :
    scanKey mask st s k =
      match s.keys[k]? with
      | none => s
      | some x =>
        let t := setKey k (keyAfter s.cfg.debounceMax (mask.getLsbD k) x) s
        if keyFires s.cfg.debounceMax (mask.getLsbD k) x then keyEdge (BitVec.ofNat 4 k) (mask.getLsbD k) st t else t := by
  unfold scanKey
  cases s.keys[k]? with
  | none => rfl
  | some x =>
    simp only []
    cases mask.getLsbD k with
    | true =>
      simp only [if_true, keyAfter, keyFires]
      by_cases h : integrate s.cfg.debounceMax true x.integ = s.cfg.debounceMax ∧ x.stable = false
      · rw [if_pos h, if_pos h, if_pos (by simp [h.1, h.2])]
      · rw [if_neg h, if_neg h, if_neg (by simpa using h)]
    | false =>
      simp only [Bool.false_eq_true, if_false, keyAfter, keyFires]
      by_cases h : integrate s.cfg.debounceMax false x.integ = 0 ∧ x.stable = true
      · rw [if_pos h, if_pos h, if_pos (by simp [h.1, h.2])]
      · rw [if_neg h, if_neg h, if_neg (by simpa using h)]

theorem inv_setKey {s : State} (k : Nat) {x : Key} (hx : KeyOk s.cfg x) (h : s.Inv) : (setKey k x s).Inv :=
  { h with
    voices := voicesOk_congr h.voices rfl rfl
    gens := gensOk_congr h.gens rfl rfl rfl rfl
    seq := seqOk_congr h.seq rfl rfl
    queues := queuesOk_congr h.queues rfl rfl rfl rfl
    regs := regsOk_congr h.regs rfl rfl
    keymap := keymapOk_congr h.keymap rfl
    keys :=
      { count := by simp [h.keys.count]
        each := fun y hy => by
          rcases List.mem_or_eq_of_mem_set hy with hy | rfl
          · exact h.keys.each y hy
          · exact hx }
    encs := encsOk_congr h.encs rfl rfl
    pcm := pcmOk_congr h.pcm rfl rfl }

theorem inv_scanKey {s : State} (mask : BitVec 16) (st : Word) (k : Nat) (h : s.Inv) : (scanKey mask st s k).Inv := by
  rw [scanKey_eq]
  split
  · exact h
  · next x hx =>
    have hk := inv_setKey k (keyAfter_ok (legal_input h.cfg).1 (mask.getLsbD k) (h.keys.each x (List.mem_of_getElem? hx))) h
    simp only []
    split
    · exact inv_keyEdge _ _ _ hk
    · exact hk

theorem inv_keyScan {s : State} (mask : BitVec 16) (st : Word) (h : s.Inv) : (keyScan mask st s).Inv := by
  unfold keyScan
  generalize List.range 16 = ks
  induction ks generalizing s with
  | nil => exact h
  | cons k ks ih => exact ih (inv_scanKey mask st k h)

/-- What one key of a scan leaves alone (R431, R432, R440). -/
theorem scanKey_frame (mask : BitVec 16) (st : Word) (s : State) (k : Nat) :
    OnlyDecoder s (scanKey mask st s k) ∧ (scanKey mask st s k).encs = s.encs ∧
      (scanKey mask st s k).keys =
        s.keys.modify k (keyAfter s.cfg.debounceMax (mask.getLsbD k)) := by
  rw [scanKey_eq]
  split
  · next h =>
    refine ⟨onlyDecoder_refl s, rfl, ?_⟩
    rw [List.modify_eq_self]
    exact List.getElem?_eq_none_iff.1 h
  · next x hx =>
    have hm : s.keys.set k (keyAfter s.cfg.debounceMax (mask.getLsbD k) x) =
        s.keys.modify k (keyAfter s.cfg.debounceMax (mask.getLsbD k)) := by
      rw [List.modify_eq_set_getElem?]; simp [hx]
    simp only []
    split
    · obtain ⟨h1, h2, h3⟩ := keyEdge_frame (BitVec.ofNat 4 k) (mask.getLsbD k) st
        (setKey k (keyAfter s.cfg.debounceMax (mask.getLsbD k) x) s)
      exact ⟨onlyDecoder_trans (onlyDecoder_setKey _ _ _) h1, h2, h3.trans hm⟩
    · exact ⟨onlyDecoder_setKey _ _ _, rfl, hm⟩

theorem foldl_scanKey_frame (mask : BitVec 16) (st : Word) (ks : List Nat) (s : State) :
    OnlyDecoder s (ks.foldl (scanKey mask st) s) ∧ (ks.foldl (scanKey mask st) s).encs = s.encs := by
  induction ks generalizing s with
  | nil => exact ⟨onlyDecoder_refl s, rfl⟩
  | cons k ks ih =>
    obtain ⟨h1, h2, _⟩ := scanKey_frame mask st s k
    obtain ⟨h3, h4⟩ := ih (scanKey mask st s k)
    exact ⟨onlyDecoder_trans h1 h3, h4.trans h2⟩

/-- What a scan leaves alone (R431, R432, R440). -/
theorem keyScan_frame (mask : BitVec 16) (st : Word) (s : State) :
    OnlyDecoder s (keyScan mask st s) ∧ (keyScan mask st s).encs = s.encs := foldl_scanKey_frame mask st _ s

/-! ### The encoders -/

theorem inv_encs {s : State} (l : List Encoder) (h : s.Inv) (hl : EncsOk { s with encs := l }) :
    ({ s with encs := l } : State).Inv :=
  { h with
    voices := voicesOk_congr h.voices rfl rfl
    gens := gensOk_congr h.gens rfl rfl rfl rfl
    seq := seqOk_congr h.seq rfl rfl
    queues := queuesOk_congr h.queues rfl rfl rfl rfl
    regs := regsOk_congr h.regs rfl rfl
    keymap := keymapOk_congr h.keymap rfl
    keys := keysOk_congr h.keys rfl rfl
    encs := hl
    pcm := pcmOk_congr h.pcm rfl rfl }

theorem encsOk_modify {s : State} (e : Nat) (f : Encoder → Encoder) (h : EncsOk s)
    (hf : ∀ x, s.encs[e]? = some x →
      -(s.cfg.detentSubsteps : Int) < (f x).acc.toInt ∧ (f x).acc.toInt < s.cfg.detentSubsteps) : EncsOk (modifyEnc e f s) :=
  { count := by simp [h.count]
    each := fun y hy => by
      rcases mem_modify hy with hm | ⟨x, hx, rfl⟩
      · exact h.each y hm
      · exact hf x hx }

/-- DETENT_CHECK writes the encoder, EVQ and EVQ_OVF alone (R402). -/
theorem detentCheck_frame (e : BitVec 4) (st : Word) (s : State) :
    OnlyDecoder s (detentCheck e st s) ∧ (detentCheck e st s).keys = s.keys ∧ (detentCheck e st s).cmdq = s.cmdq ∧
      (detentCheck e st s).regs = s.regs := by
  unfold detentCheck
  split
  · exact ⟨onlyDecoder_refl s, rfl, rfl, rfl⟩
  · split
    · exact ⟨onlyDecoder_trans (onlyDecoder_pushEvent _ _) (onlyDecoder_modifyEnc _ _ _), by simp, by simp, by simp⟩
    · split
      · exact ⟨onlyDecoder_trans (onlyDecoder_pushEvent _ _) (onlyDecoder_modifyEnc _ _ _), by simp, by simp, by simp⟩
      · exact ⟨onlyDecoder_refl s, rfl, rfl, rfl⟩

theorem inv_detentCheck {s : State} (e : BitVec 4) (st : Word) (h : s.Inv) : (detentCheck e st s).Inv := by
  obtain ⟨_, h1, _⟩ := legal_input h.cfg
  unfold detentCheck
  split
  · exact h
  · split
    · exact inv_encs _ (inv_pushEvent _ h) (encsOk_modify _ _ (inv_pushEvent _ h).encs fun x _ => by
        simp; omega)
    · split
      · exact inv_encs _ (inv_pushEvent _ h) (encsOk_modify _ _ (inv_pushEvent _ h).encs fun x _ => by
          simp; omega)
      · exact h

theorem qtab_bounds (p c : BitVec 2) : -1 ≤ qtab p c ∧ qtab p c ≤ 1 := by
  revert p c; decide

/-- A sub-step added to an accumulator within the thresholds does not wrap its i8 (R402). -/
theorem encSample_acc {x : Encoder} {t : Nat} (ht : t ≤ 127) (h : -(t : Int) < x.acc.toInt ∧ x.acc.toInt < t) (ab : BitVec 2) :
    (encSample ab x).acc.toInt = x.acc.toInt + qtab x.prev ab := by
  obtain ⟨q1, q2⟩ := qtab_bounds x.prev ab
  unfold encSample
  show (x.acc + BitVec.ofInt 8 (qtab x.prev ab)).toInt = _
  rw [BitVec.toInt_add, BitVec.toInt_ofInt]
  generalize qtab x.prev ab = q at *
  generalize x.acc.toInt = a at *
  have e1 : q.bmod (2 ^ 8) = q := by rw [Int.bmod_eq_of_le] <;> omega
  rw [e1, Int.bmod_eq_of_le] <;> omega

/-- Everything an ENC_AB record does to an encoder that exists (R401, R402). -/
theorem encAb_eq {e : BitVec 4} {s : State} {x : Encoder} (hx : s.encs[e.toNat]? = some x) (ab : BitVec 2) (st : Word) :
    encAb e ab st s =
      (let a := (encSample ab x).acc.toInt
       if (s.cfg.detentSubsteps : Int) ≤ a then
         modifyEnc e.toNat (fun y => { encSample ab y with acc := 0#8 }) (pushEvent (detentEvent e true st) s)
       else if a ≤ -(s.cfg.detentSubsteps : Int) then
         modifyEnc e.toNat (fun y => { encSample ab y with acc := 0#8 }) (pushEvent (detentEvent e false st) s)
       else modifyEnc e.toNat (encSample ab) s) := by
  have hm : (s.encs.modify e.toNat (encSample ab))[e.toNat]? = some (encSample ab x) := by
    rw [List.getElem?_modify_eq, hx]; rfl
  have twice : ∀ ev, modifyEnc e.toNat (fun y => { y with acc := 0#8 }) (pushEvent ev (modifyEnc e.toNat (encSample ab) s)) =
      modifyEnc e.toNat (fun y => { encSample ab y with acc := 0#8 }) (pushEvent ev s) := by
    intro ev
    have hmm : ∀ l : List Encoder, (l.modify e.toNat (encSample ab)).modify e.toNat (fun y => { y with acc := 0#8 }) =
        l.modify e.toNat (fun y => { encSample ab y with acc := 0#8 }) := by
      intro l
      rw [List.modify_modify_eq]; rfl
    unfold pushEvent modifyEnc
    simp only []
    split
    · simp only [hmm]
    · unfold setSticky; simp only [hmm]
  unfold encAb
  rw [hx]
  simp only []
  unfold detentCheck
  rw [modifyEnc_encs, hm, modifyEnc_cfg]
  simp only []
  split
  · exact twice _
  · split
    · exact twice _
    · rfl

/-- ENC_AB writes the encoder, EVQ and EVQ_OVF alone (R401). -/
theorem encAb_frame (e : BitVec 4) (ab : BitVec 2) (st : Word) (s : State) :
    OnlyDecoder s (encAb e ab st s) ∧ (encAb e ab st s).keys = s.keys ∧ (encAb e ab st s).cmdq = s.cmdq ∧
      (encAb e ab st s).regs = s.regs := by
  unfold encAb
  split
  · exact ⟨onlyDecoder_refl s, rfl, rfl, rfl⟩
  · obtain ⟨h1, h2, h3, h4⟩ := detentCheck_frame e st (modifyEnc e.toNat (encSample ab) s)
    exact ⟨onlyDecoder_trans (onlyDecoder_modifyEnc _ _ _) h1, h2, h3, h4⟩

theorem inv_encAb {s : State} (e : BitVec 4) (ab : BitVec 2) (st : Word) (h : s.Inv) : (encAb e ab st s).Inv := by
  obtain ⟨_, h1, h2⟩ := legal_input h.cfg
  cases hx : s.encs[e.toNat]? with
  | none => unfold encAb; rw [hx]; exact h
  | some x =>
    have hb := h.encs.each x (List.mem_of_getElem? hx)
    rw [encAb_eq hx]
    simp only []
    split
    · exact inv_encs _ (inv_pushEvent _ h) (encsOk_modify _ _ (inv_pushEvent _ h).encs fun y _ => by simp; omega)
    · split
      · exact inv_encs _ (inv_pushEvent _ h) (encsOk_modify _ _ (inv_pushEvent _ h).encs fun y _ => by simp; omega)
      · exact inv_encs _ h (encsOk_modify _ _ h.encs fun y hy => by
          rw [hx] at hy
          cases hy
          omega)

/-- ENC_BTN writes the encoder, EVQ and EVQ_OVF alone (R410). -/
theorem encBtn_frame (e : BitVec 4) (l : BitVec 1) (st : Word) (s : State) :
    OnlyDecoder s (encBtn e l st s) ∧ (encBtn e l st s).keys = s.keys ∧ (encBtn e l st s).cmdq = s.cmdq ∧
      (encBtn e l st s).regs = s.regs := by
  unfold encBtn
  simp only []
  split
  · exact ⟨onlyDecoder_refl s, rfl, rfl, rfl⟩
  · split
    · exact ⟨onlyDecoder_trans (onlyDecoder_modifyEnc _ _ _) (onlyDecoder_pushEvent _ _), by simp, by simp, by simp⟩
    · exact ⟨onlyDecoder_refl s, rfl, rfl, rfl⟩

theorem inv_encBtn {s : State} (e : BitVec 4) (l : BitVec 1) (st : Word) (h : s.Inv) : (encBtn e l st s).Inv := by
  unfold encBtn
  simp only []
  split
  · exact h
  · split
    · exact inv_pushEvent _ (inv_encs _ h (encsOk_modify _ _ h.encs fun x hx => h.encs.each x (List.mem_of_getElem? hx)))
    · exact h

theorem inv_decodeRecord {s : State} (r : BitVec 64) (h : s.Inv) : (decodeRecord r s).Inv := by
  unfold decodeRecord
  split
  · exact h
  · split
    · exact inv_encAb _ _ _ h
    · split
      · exact inv_encBtn _ _ _ h
      · exact inv_keyScan _ _ h

/-- A record decoded writes what a DECODER step may write (R109). -/
theorem decodeRecord_frame (r : BitVec 64) (s : State) : OnlyDecoder s (decodeRecord r s) := by
  unfold decodeRecord
  split
  · exact onlyDecoder_refl s
  · split
    · exact (encAb_frame _ _ _ s).1
    · split
      · exact (encBtn_frame _ _ _ s).1
      · exact (keyScan_frame _ _ s).1

end Sys2Proof.Machine
end

