-- ==== Sys2Proof/Laws/Renderer.lean ====
section
/-! SUPPORT. Everything a DMA notification, a pass start, a frame and a reset can do, and that each keeps the invariant of Safety.lean. -/

namespace Sys2Proof.Machine

/-! ### The sequencer -/

theorem half_pos {c : Params} (h : c.legal = true) : 0 < c.half ∧ c.half ≤ 32767 ∧ 2 * c.half = c.bufFrames := by
  obtain ⟨h1, h2, h3⟩ := legal_buffer h
  unfold Params.half
  omega

/-- The frame about to be written is one of the buffer's (R31, R368). -/
theorem frameIndex_lt {s : State} (hl : s.cfg.legal = true) (h : SeqOk s) : frameIndex s < s.cfg.bufFrames := by
  obtain ⟨_, _, h2⟩ := half_pos hl
  have hj := h.inHalf
  have hc : s.seq.cur.toNat = 0 ∨ s.seq.cur.toNat = 1 := by have := s.seq.cur.isLt; omega
  unfold frameIndex
  rcases hc with hc | hc <;> rw [hc] <;> omega

theorem advanceSeq_ok {s : State} (hl : s.cfg.legal = true) (h : SeqOk s) (hb : s.seq.busy = true) :
    SeqOk { s with seq := advanceSeq s.cfg s.seq } := by
  obtain ⟨h1, h2, _⟩ := half_pos hl
  have hj := h.inHalf
  have hs : (s.seq.j + 1#16).toNat = s.seq.j.toNat + 1 := by
    rw [BitVec.toNat_add]; exact Nat.mod_eq_of_lt (by have : (1#16).toNat = 1 := rfl
                                                      omega)
  unfold advanceSeq
  simp only []
  split
  · exact ⟨by simpa using h1, fun _ => rfl⟩
  · next hn =>
    exact ⟨by show (s.seq.j + 1#16).toNat < s.cfg.half; omega, fun hf => by simp [hb] at hf⟩

/-- FILT_UPDATE writes the filter alone (R332). -/
theorem filtUpdate_frame (s : State) : filtUpdate s = { s with filt := (filtUpdate s).filt } := by
  unfold filtUpdate; split <;> rfl

theorem inv_filtUpdate {s : State} (h : s.Inv) : (filtUpdate s).Inv := by
  rw [filtUpdate_frame]
  exact inv_congr h rfl rfl rfl rfl rfl rfl rfl rfl rfl rfl rfl rfl rfl

theorem inv_seq {s : State} (q : Seq) (h : s.Inv) (hq : SeqOk { s with seq := q }) : ({ s with seq := q } : State).Inv :=
  { h with
    voices := voicesOk_congr h.voices rfl rfl
    gens := gensOk_congr h.gens rfl rfl rfl rfl
    seq := hq
    queues := queuesOk_congr h.queues rfl rfl rfl rfl
    regs := regsOk_congr h.regs rfl rfl
    keymap := keymapOk_congr h.keymap rfl
    keys := keysOk_congr h.keys rfl rfl
    encs := encsOk_congr h.encs rfl rfl
    pcm := pcmOk_congr h.pcm rfl rfl }

theorem inv_dmaNotify {s : State} (b : BitVec 1) (h : s.Inv) : (dmaNotify b s).Inv := by
  unfold dmaNotify
  simp only []
  split
  · have h' := inv_raiseFault .deadlineMiss (inv_setSticky bitDeadlineMiss h)
    exact inv_seq _ h' ⟨by simpa using h.seq.inHalf, fun hb => by simpa using h.seq.rest (by simpa using hb)⟩
  · exact inv_seq _ h ⟨by simpa using h.seq.inHalf, fun hb => by simpa using h.seq.rest (by simpa using hb)⟩

theorem inv_startPass {s : State} (h : s.Inv) : ({ s with seq := startPass s.seq } : State).Inv :=
  inv_seq _ h ⟨by simpa [startPass] using (half_pos h.cfg).1, fun hb => by simp [startPass] at hb⟩

/-! ### FRAME -/

/-- The mix of a frame's voices, after their envelopes have advanced (R364, R367). -/
def mixOf (c : Params) (w : BitVec 2) (vs : List Voice) : F32 :=
  vs.foldl (fun m x => mixVoice c w m (envAdvance x)) fzero

/-- The 16-bit sample of a filter output at a volume (R369). -/
def scaleClip (y : F32) (volume : BitVec 8) : BitVec 16 := BitVec.ofInt 16 (clip16 (fmul y (percent volume)))

theorem renderRest_eq (t : State) :
    (match writeFrame (frameIndex (renderMix t).1) (renderMix t).2 (renderMix t).1 with
      | some u => (.next { u with seq := advanceSeq u.cfg u.seq } : StepOutcome)
      | none => .fault (.pcmOutside (4 * frameIndex (renderMix t).1))) =
      (if frameIndex t < t.cfg.bufFrames then
         .next { t with
           voices := t.voices.map (fun x => oscAdvance (envAdvance x))
           filt := filtShift (mixOf t.cfg t.regs.wave t.voices) (filtOutput (mixOf t.cfg t.regs.wave t.voices) t.filt) t.filt
           pcm := pcmAfterFrame (frameIndex t)
             (scaleClip (filtOutput (mixOf t.cfg t.regs.wave t.voices) t.filt) t.regs.volume) t.pcm
           seq := advanceSeq t.cfg t.seq }
       else .fault (.pcmOutside (4 * frameIndex t))) := by
  have hm : renderMix t =
      ({ t with
          voices := t.voices.map (fun x => oscAdvance (envAdvance x))
          filt := filtShift (mixOf t.cfg t.regs.wave t.voices) (filtOutput (mixOf t.cfg t.regs.wave t.voices) t.filt) t.filt },
        scaleClip (filtOutput (mixOf t.cfg t.regs.wave t.voices) t.filt) t.regs.volume) := by
    unfold renderMix
    rw [renderVoices_eq]
    rfl
  rw [hm, writeFrame_eq]
  by_cases h : frameIndex t < t.cfg.bufFrames
  · rw [if_pos h]
    have h' : frameIndex ({ t with
          voices := t.voices.map (fun x => oscAdvance (envAdvance x))
          filt := filtShift (mixOf t.cfg t.regs.wave t.voices) (filtOutput (mixOf t.cfg t.regs.wave t.voices) t.filt) t.filt } :
        State) < t.cfg.bufFrames := h
    rw [if_pos h']
    rfl
  · rw [if_neg h]
    have h' : ¬ frameIndex ({ t with
          voices := t.voices.map (fun x => oscAdvance (envAdvance x))
          filt := filtShift (mixOf t.cfg t.regs.wave t.voices) (filtOutput (mixOf t.cfg t.regs.wave t.voices) t.filt) t.filt } :
        State) < t.cfg.bufFrames := h
    rw [if_neg h']
    rfl

/-- Everything one frame can do (R364). -/
theorem renderFrame_eq (s : State) :
    renderFrame s =
      (let t := applyCommands s
       let mix := mixOf s.cfg s.regs.wave t.voices
       let y := filtOutput mix s.filt
       if frameIndex s < s.cfg.bufFrames then
         .next { t with
           voices := t.voices.map (fun x => oscAdvance (envAdvance x))
           filt := filtShift mix y s.filt
           pcm := pcmAfterFrame (frameIndex s) (scaleClip y s.regs.volume) s.pcm
           seq := advanceSeq s.cfg s.seq }
       else .fault (.pcmOutside (4 * frameIndex s))) := by
  have hf := applyCommands_frame s
  have hi : frameIndex (applyCommands s) = frameIndex s := by unfold frameIndex; rw [hf.seq, hf.cfg]
  have hc : (applyCommands s).cfg = s.cfg := hf.cfg
  have hr : (applyCommands s).regs = s.regs := hf.regs
  have hq : (applyCommands s).filt = s.filt := hf.filt
  have hp : (applyCommands s).pcm = s.pcm := hf.pcm
  have hs : (applyCommands s).seq = s.seq := hf.seq
  rw [← hi, ← hc, ← hr, ← hq, ← hp, ← hs]
  exact renderRest_eq (applyCommands s)

/-- Where the invariant holds, a frame completes (R364). -/
theorem renderFrame_next {s : State} (hl : s.cfg.legal = true) (h : SeqOk s) :
    renderFrame s =
      .next { applyCommands s with
        voices := (applyCommands s).voices.map (fun x => oscAdvance (envAdvance x))
        filt := filtShift (mixOf s.cfg s.regs.wave (applyCommands s).voices)
          (filtOutput (mixOf s.cfg s.regs.wave (applyCommands s).voices) s.filt) s.filt
        pcm := pcmAfterFrame (frameIndex s)
          (scaleClip (filtOutput (mixOf s.cfg s.regs.wave (applyCommands s).voices) s.filt) s.regs.volume) s.pcm
        seq := advanceSeq s.cfg s.seq } := by
  rw [renderFrame_eq]
  simp only [if_pos (frameIndex_lt hl h)]

theorem inv_renderFrame {s t : State} (h : s.Inv) (hb : s.seq.busy = true) (ht : renderFrame s = .next t) : t.Inv := by
  rw [renderFrame_next h.cfg h.seq] at ht
  obtain rfl := Host.Outcome.next.inj ht
  have hf := applyCommands_frame s
  obtain ⟨hv, hg⟩ := applyCommands_ok h.cfg h.regs h.voices h.gens
  have hc : (applyCommands s).cfg = s.cfg := hf.cfg
  exact
    { cfg := by rw [← h.cfg, ← hc]
      voices := voicesOk_congr (voicesOk_map (fun x => oscAdvance (envAdvance x)) hv
        fun x hx => oscAdvance_ok (envAdvance_ok hx)) rfl rfl
      gens := gensOk_congr (gensOk_forall₂ hg (forall₂_map_self
        (fun x => ⟨envAdvance_gen x, fun e => envAdvance_idle e⟩) _)) rfl rfl rfl rfl
      seq := seqOk_congr (advanceSeq_ok h.cfg h.seq hb) hc rfl
      queues :=
        { cmdq := by show (applyCommands s).cmdq.length ≤ _; rw [hf.cmdq]; exact Nat.zero_le _
          evq := by show (applyCommands s).evq.length ≤ (applyCommands s).cfg.evqDepth; rw [hf.evq, hc]; exact h.queues.evq
          rawq := by show (applyCommands s).rawq.length ≤ (applyCommands s).cfg.rawqDepth; rw [hf.rawq, hc]; exact h.queues.rawq
          cmds := fun r hr => by
            change r ∈ (applyCommands s).cmdq at hr
            rw [hf.cmdq] at hr; cases hr }
      regs := regsOk_congr h.regs hc hf.regs
      keymap := keymapOk_congr h.keymap hf.keymap
      keys := keysOk_congr h.keys hc hf.keys
      encs := encsOk_congr h.encs hc hf.encs
      pcm :=
        { form := pcmAfterFrame_wf _ _ h.pcm.form
          within := pcmAfterFrame_within
            (by show 4 * frameIndex s + 3 < (applyCommands s).cfg.pcmBytes
                have := frameIndex_lt h.cfg h.seq
                rw [hc]; unfold Params.pcmBytes; omega)
            (by show ∀ c ∈ s.pcm, c.1 < (applyCommands s).cfg.pcmBytes
                rw [hc]; exact h.pcm.within) } }

/-! ### RESET -/

theorem voiceReset_ok (c : Params) : VoiceOk c Voice.reset :=
  { level := by decide
    idle := fun _ => rfl
    step := by decide
    sus := by decide
    ramp := fun h => by simp [Voice.reset] at h
    left := Nat.zero_le _
    atk := Nat.zero_le _
    dec := Nat.zero_le _
    rel := Nat.zero_le _
    freq := ⟨by decide, Nat.zero_le _⟩
    tw := by decide }

/-- A launch of a legal configuration meets the invariant (R541). -/
theorem inv_launch {c : Params} (pins : Word) (hl : c.legal = true) : (State.launch c pins).Inv := by
  obtain ⟨_, o1, o2, _⟩ := legal_octaves hl
  obtain ⟨i1, i2, i3⟩ := legal_input hl
  obtain ⟨b1, b2, b3⟩ := half_pos hl
  exact
    { cfg := hl
      voices := ⟨by simp [State.launch], fun x hx => by rw [List.eq_of_mem_replicate hx]; exact voiceReset_ok c⟩
      gens :=
        { next := ⟨Nat.le_refl 1, Nat.le_add_left 1 _⟩
          slots := by simp [State.launch]
          voices := fun x hx => by rw [List.eq_of_mem_replicate hx]; exact Nat.zero_lt_one
          keys := fun g hg => by rw [List.eq_of_mem_replicate hg]; exact Nat.zero_lt_one
          sounding := fun x hx he => by rw [List.eq_of_mem_replicate hx] at he; exact absurd rfl he
          distinct := by
            rw [List.pairwise_iff_getElem]
            intro i j hi hj _ h
            refine absurd ?_ h
            have := List.eq_of_mem_replicate (List.getElem_mem hi)
            rw [this]; rfl }
      seq := ⟨by simpa [State.launch, Seq.reset] using b1, fun _ => rfl⟩
      queues := ⟨Nat.zero_le _, Nat.zero_le _, Nat.zero_le _, fun r hr => by cases hr⟩
      regs :=
        have h : (1 ≤ Regs.reset.attack.toNat ∧ Regs.reset.attack.toNat ≤ 200) ∧
            (1 ≤ Regs.reset.decay.toNat ∧ Regs.reset.decay.toNat ≤ 200) ∧ Regs.reset.sustain.toNat ≤ 100 ∧
            (1 ≤ Regs.reset.release.toNat ∧ Regs.reset.release.toNat ≤ 200) ∧ Regs.reset.cutoff.toNat ≤ 100 ∧
            Regs.reset.resonance.toNat ≤ 100 ∧ Regs.reset.volume.toNat ≤ 100 ∧ Regs.reset.note.toNat ≤ 6 := by decide
        ⟨h.1, h.2.1, h.2.2.1, h.2.2.2.1, h.2.2.2.2.1, h.2.2.2.2.2.1, h.2.2.2.2.2.2.1, h.2.2.2.2.2.2.2, ⟨o1, o2⟩⟩
      keymap := ⟨rfl, (by decide : ∀ m ∈ resetKeymap, KeymapEntryOk m)⟩
      keys := ⟨by simp [State.launch], fun x hx => by
        rw [List.eq_of_mem_replicate hx]
        exact ⟨Nat.zero_le _, fun e => by simp only [State.launch] at e; omega, fun _ => rfl⟩⟩
      encs := ⟨by simp [State.launch], fun x hx => by
        obtain ⟨e, _, rfl⟩ := List.mem_map.1 hx
        simp only [Encoder.reset, State.launch]
        have : (0#8).toInt = 0 := rfl
        omega⟩
      pcm := ⟨rfl, fun x hx => by cases hx⟩ }

theorem inv_resetCore {s : State} (pins : Word) (h : s.Inv) : (resetCore pins s).Inv := by
  have hl := inv_launch pins h.cfg
  exact
    { cfg := h.cfg
      voices := voicesOk_congr hl.voices rfl rfl
      gens := gensOk_congr hl.gens rfl rfl rfl rfl
      seq := seqOk_congr hl.seq rfl rfl
      queues := queuesOk_congr hl.queues rfl rfl rfl rfl
      regs := regsOk_congr hl.regs rfl rfl
      keymap := keymapOk_congr hl.keymap rfl
      keys := keysOk_congr hl.keys rfl rfl
      encs := encsOk_congr hl.encs rfl rfl
      pcm := pcmOk_congr h.pcm rfl rfl }

end Sys2Proof.Machine
end

