-- ==== Sys2Proof/Laws/Access.lean ====
section
/-! SUPPORT. The invariant through a bus access, one write or read rule at a time, and through the operations on voices that stand
alone as micro-operations. -/

namespace Sys2Proof.Machine

theorem inv_ite {c : Prop} [Decidable c] {a b : State} (ha : a.Inv) (hb : b.Inv) : (if c then a else b).Inv := by
  split <;> assumption

theorem inv_readWord {s : State} (w : Word) (h : s.Inv) : (readWord w s).Inv := inv_answerWith _ h

theorem inv_writeIgnored {s : State} (h : s.Inv) : (writeIgnored s).Inv := inv_answerWith _ h

theorem inv_writeRegs {s : State} (f : Regs → Regs) (h : s.Inv) (hr : RegsOk { s with regs := f s.regs }) :
    (writeRegs f s).Inv := inv_answerWith _ (inv_regs _ h hr)

theorem inv_writeFilterRegs {s : State} (f : Regs → Regs) (h : s.Inv) (hr : RegsOk { s with regs := f s.regs }) :
    (writeFilterRegs f s).Inv :=
  inv_answerWith _ (inv_congr (inv_regs _ h hr) rfl rfl rfl rfl rfl rfl rfl rfl rfl rfl rfl rfl rfl)

theorem clampReg_stage (d : Word) : 1 ≤ (clampReg d 1 200).toNat ∧ (clampReg d 1 200).toNat ≤ 200 := by
  rw [toNat_clampReg (by decide)]; exact clampU_bounds (by decide)

theorem clampReg_percent (d : Word) : (clampReg d 0 100).toNat ≤ 100 := by
  rw [toNat_clampReg (by decide)]; exact (clampU_bounds (by decide)).2

theorem inv_writeCmd {s : State} (d : Word) (h : s.Inv) : (writeCmd d s).Inv := by
  refine inv_answerWith _ (inv_ite (inv_pushCmd ?_ h) (inv_ite (inv_pushCmd rfl h) (inv_setSticky _ h)))
  simp only [CmdOk, resolveNote]
  split
  · assumption
  · exact h.regs.note

theorem inv_writeKeymap {s : State} (k : BitVec 4) (d : Word) (h : s.Inv) : (writeKeymap k d s).Inv := by
  refine inv_answerWith _ { h with
    voices := voicesOk_congr h.voices rfl rfl, gens := gensOk_congr h.gens rfl rfl rfl rfl, seq := seqOk_congr h.seq rfl rfl
    queues := queuesOk_congr h.queues rfl rfl rfl rfl, regs := regsOk_congr h.regs rfl rfl
    keymap := ⟨?_, fun m hm => ?_⟩
    keys := keysOk_congr h.keys rfl rfl, encs := encsOk_congr h.encs rfl rfl, pcm := pcmOk_congr h.pcm rfl rfl }
  · exact (List.length_set ..).trans h.keymap.count
  · rcases List.mem_or_eq_of_mem_set hm with hm | hm
    · exact h.keymap.each m hm
    · rw [hm]; exact keymapEntry_ok d

theorem inv_writeNote {s : State} (d : Word) (h : s.Inv) : (writeNote d s).Inv := by
  refine inv_writeRegs _ h { h.regs with note := ?_ }
  simp [clampU]; omega

theorem inv_writeOctave {s : State} (d : Word) (h : s.Inv) : (writeOctave d s).Inv := by
  obtain ⟨_, h1, h2, _⟩ := legal_octaves h.cfg
  exact inv_writeRegs _ h { h.regs with octave := clampS_bounds (h1.trans h2) }

theorem inv_writeAt {s : State} (o : BitVec 8) (d : Word) (h : s.Inv) : (writeAt o d s).Inv := by
  have same : ∀ t : State, t = { s with sticky := t.sticky, irqEn := t.irqEn, answer := t.answer } → t.Inv := by
    intro t ht; rw [ht]; exact inv_congr h rfl rfl rfl rfl rfl rfl rfl rfl rfl rfl rfl rfl rfl
  refine inv_ite (inv_writeIgnored h) (inv_ite (inv_writeKeymap _ d h) (inv_ite (inv_writeCmd d h) (inv_ite (same _ rfl)
    (inv_ite (same _ rfl) (inv_ite (inv_writeIgnored h) (inv_ite ?_ (inv_ite ?_ (inv_ite ?_ (inv_ite ?_ (inv_ite ?_ (inv_ite ?_
    (inv_ite ?_ (inv_ite ?_ (inv_ite (inv_writeNote d h) (inv_ite (inv_writeOctave d h) (inv_writeIgnored h))))))))))))))))
  · exact inv_writeRegs _ h { h.regs with attack := clampReg_stage d }
  · exact inv_writeRegs _ h { h.regs with decay := clampReg_stage d }
  · exact inv_writeRegs _ h { h.regs with sustain := clampReg_percent d }
  · exact inv_writeRegs _ h { h.regs with release := clampReg_stage d }
  · exact inv_writeFilterRegs _ h { h.regs with cutoff := clampReg_percent d }
  · exact inv_writeFilterRegs _ h { h.regs with resonance := clampReg_percent d }
  · exact inv_writeRegs _ h { h.regs with volume := clampReg_percent d }
  · exact inv_writeRegs _ h { h.regs with }

/-- The invariant in `s` with queues that its own queues bound. -/
theorem inv_queues {s : State} (cq : List Cmd) (eq : List Event) (rq : List (BitVec 64)) (h : s.Inv)
    (hq : QueuesOk { s with cmdq := cq, evq := eq, rawq := rq }) :
    ({ s with cmdq := cq, evq := eq, rawq := rq } : State).Inv :=
  { h with
    voices := voicesOk_congr h.voices rfl rfl, gens := gensOk_congr h.gens rfl rfl rfl rfl, seq := seqOk_congr h.seq rfl rfl
    queues := hq, regs := regsOk_congr h.regs rfl rfl, keymap := keymapOk_congr h.keymap rfl
    keys := keysOk_congr h.keys rfl rfl, encs := encsOk_congr h.encs rfl rfl, pcm := pcmOk_congr h.pcm rfl rfl }

theorem inv_readEvent {s : State} (h : s.Inv) : (readEvent s).Inv := by
  unfold readEvent
  split
  · exact inv_readWord _ h
  · next e rest hq =>
    have hlen : rest.length ≤ s.cfg.evqDepth := by have := h.queues.evq; rw [hq] at this; exact Nat.le_of_succ_le this
    exact inv_readWord _ (inv_queues s.cmdq rest s.rawq h { h.queues with evq := hlen })

theorem inv_readAt {s : State} (o : BitVec 8) (h : s.Inv) : (readAt o s).Inv := by
  have rd : ∀ w, (readWord w s).Inv := fun w => inv_readWord w h
  exact inv_ite (rd _) (inv_ite (rd _) (inv_ite (rd _) (inv_ite (rd _) (inv_ite (rd _) (inv_ite (inv_readEvent h) (inv_ite (rd _)
    (inv_ite (rd _) (inv_ite (rd _) (inv_ite (rd _) (inv_ite (rd _) (inv_ite (rd _) (inv_ite (rd _) (inv_ite (rd _)
    (inv_ite (rd _) (inv_ite (rd _) (inv_ite (rd _) (rd _)))))))))))))))))

theorem inv_busError {s : State} (h : s.Inv) : (busError s).Inv := inv_answerWith _ (inv_raiseFault _ h)

theorem inv_busAccess {s : State} (w : BitVec 43) (h : s.Inv) : (busAccess w s).Inv :=
  inv_ite (inv_busError h) (inv_ite (inv_writeAt _ _ h) (inv_readAt _ h))

theorem inv_decodeStep {s : State} (h : s.Inv) : (decodeStep s).Inv := by
  unfold decodeStep
  split
  · exact h
  · next r rest hq =>
    have hlen : rest.length ≤ s.cfg.rawqDepth := by have := h.queues.rawq; rw [hq] at this; exact Nat.le_of_succ_le this
    exact inv_decodeRecord r (inv_queues s.cmdq s.evq rest h { h.queues with rawq := hlen })

/-! ### Voices -/

theorem inv_whenEnv {s : State} (v : Nat) (e : Env) (f : Voice → Voice) (hf : ∀ x, x.env = e → f x = envAdvance x) (h : s.Inv) :
    (modifyVoice v (whenEnv e f) s).Inv := by
  refine inv_voices h
    (voicesOk_modify v _ h.voices (fun x hx => whenEnv_ok e f (h.voices.each x (List.mem_of_getElem? hx)) (hf x)))
    (gensOk_forall₂ h.gens (forall₂_modify_self (fun x => ?_) (fun _ => ⟨rfl, id⟩) _ _)) rfl rfl rfl rfl rfl rfl rfl rfl rfl rfl
  unfold whenEnv
  split
  · next he => rw [hf x he]; exact ⟨envAdvance_gen x, envAdvance_idle⟩
  · exact ⟨rfl, id⟩

theorem inv_genRebase {s : State} (h : s.Inv) : (genRebase s).Inv := by
  have fr := genRebase_frame s
  refine inv_voices h ?_ (genRebase_gensOk h.cfg h.voices h.gens).1 fr.cfg fr.seq fr.encs fr.keys fr.cmdq fr.evq fr.rawq fr.regs
    fr.keymap fr.pcm
  unfold genRebase
  dsimp only
  split
  · exact voicesOk_congr (voicesOk_map (fun x => { x with gen := x.gen - _ }) h.voices (fun x hx => voiceOk_gen _ hx)) rfl rfl
  · exact voicesOk_congr (voicesOk_map (fun x => { x with gen := _ }) h.voices (fun x hx => voiceOk_gen _ hx)) rfl rfl

theorem inv_noteOn {s : State} (k : BitVec 4) (n : BitVec 3) (h : s.Inv) : (noteOn k n s).Inv := by
  have fr := noteOn_frame k n s
  obtain ⟨hv, hg⟩ := noteOn_ok k n h.cfg h.regs h.voices h.gens
  exact inv_voices h hv hg fr.cfg fr.seq fr.encs fr.keys fr.cmdq fr.evq fr.rawq fr.regs fr.keymap fr.pcm

theorem inv_noteOff {s : State} (k : BitVec 4) (h : s.Inv) : (noteOff k s).Inv := by
  have fr := (noteOff_frame k s).1
  obtain ⟨hv, hg⟩ := applyCmd_ok ⟨.noteOff, k, 0#3⟩ h.cfg h.regs h.voices h.gens
  exact inv_voices h hv hg fr.cfg fr.seq fr.encs fr.keys fr.cmdq fr.evq fr.rawq fr.regs fr.keymap fr.pcm

theorem inv_oscTune {s : State} (v : Nat) (n : BitVec 3) (h : s.Inv) :
    (modifyVoice v (oscTune s.cfg n s.regs.octave) s).Inv := by
  obtain ⟨h1, h2⟩ := octave_range h.cfg h.regs
  exact inv_voices h
    (voicesOk_modify _ _ h.voices (fun x hx => oscTune_ok h.cfg n h1 h2 (h.voices.each x (List.mem_of_getElem? hx))))
    (gensOk_forall₂ h.gens (forall₂_modify_self (fun _ => ⟨rfl, id⟩) (fun _ => ⟨rfl, id⟩) _ _))
    rfl rfl rfl rfl rfl rfl rfl rfl rfl rfl

theorem inv_oscAdvance {s : State} (v : Nat) (h : s.Inv) : (modifyVoice v oscAdvance s).Inv :=
  inv_voices h
    (voicesOk_modify _ _ h.voices (fun x hx => oscAdvance_ok (h.voices.each x (List.mem_of_getElem? hx))))
    (gensOk_forall₂ h.gens (forall₂_modify_self (fun _ => ⟨rfl, id⟩) (fun _ => ⟨rfl, id⟩) _ _))
    rfl rfl rfl rfl rfl rfl rfl rfl rfl rfl

end Sys2Proof.Machine
end

