-- ==== Sys2Proof/Laws/Allocator.lean ====
section
/-! SUPPORT. What the searches of the allocator find, once: VOICE_SELECT's two scans and NOTE_OFF's search for a generation. -/

namespace Sys2Proof.Machine

/-- `modify` at an index that holds `x` is `set` of the new value. -/
theorem modify_eq_set {α : Type} {l : List α} {i : Nat} {x : α} (f : α → α) (h : l[i]? = some x) : l.modify i f = l.set i (f x) := by
  rw [List.modify_eq_set_getElem?]; simp [h]

theorem firstIdle_none {vs : List Voice} : ∀ {i : Nat}, firstIdle i vs = none → ∀ x ∈ vs, x.env ≠ .idle := by
  induction vs with
  | nil => simp
  | cons x xs ih =>
    intro i h y hy
    simp only [firstIdle] at h
    split at h
    · cases h
    · next hx =>
      rcases List.mem_cons.1 hy with rfl | hy
      · exact hx
      · exact ih h y hy

theorem firstIdle_some {vs : List Voice} : ∀ {i v : Nat}, firstIdle i vs = some v →
    ∃ n x, v = i + n ∧ vs[n]? = some x ∧ x.env = .idle ∧ ∀ m y, vs[m]? = some y → y.env = .idle → n ≤ m := by
  induction vs with
  | nil => intro i v h; cases h
  | cons x xs ih =>
    intro i v h
    simp only [firstIdle] at h
    split at h
    · next hx => cases h; exact ⟨0, x, rfl, rfl, hx, fun _ _ _ _ => Nat.zero_le _⟩
    · next hx =>
      obtain ⟨n, y, hn, hy, he, hm⟩ := ih h
      refine ⟨n + 1, y, by omega, by simpa using hy, he, fun m z hz hi => ?_⟩
      cases m with
      | zero => simp only [List.getElem?_cons_zero, Option.some.injEq] at hz; exact absurd (hz ▸ hi) hx
      | succ m => exact Nat.succ_le_succ (hm m z (by simpa using hz) hi)

/-- Among `best` of generation `g` and the voices that follow from index `i`, the least generation at its least index. -/
theorem oldestFrom_spec (vs : List Voice) : ∀ (i best g : Nat), best < i →
    (oldestFrom i best g vs = best ∧ ∀ x ∈ vs, g ≤ x.gen) ∨
    (∃ n x, oldestFrom i best g vs = i + n ∧ vs[n]? = some x ∧ x.gen < g ∧
      ∀ m y, vs[m]? = some y → x.gen ≤ y.gen ∧ (y.gen = x.gen → n ≤ m)) := by
  induction vs with
  | nil => intro i best g _; exact Or.inl ⟨rfl, by simp⟩
  | cons x xs ih =>
    intro i best g hb
    simp only [oldestFrom]
    split
    · next hg =>
      right
      rcases ih (i + 1) i x.gen (by omega) with ⟨h, hle⟩ | ⟨n, y, h, hy, hlt, hm⟩
      · refine ⟨0, x, h, rfl, hg, fun m y hy => ?_⟩
        cases m with
        | zero => simp only [List.getElem?_cons_zero, Option.some.injEq] at hy; subst hy; exact ⟨Nat.le_refl _, fun _ => Nat.le_refl _⟩
        | succ m => exact ⟨hle y (List.mem_of_getElem? (by simpa using hy)), fun _ => Nat.zero_le _⟩
      · refine ⟨n + 1, y, by omega, by simpa using hy, by omega, fun m z hz => ?_⟩
        cases m with
        | zero => simp only [List.getElem?_cons_zero, Option.some.injEq] at hz; subst hz; exact ⟨by omega, by omega⟩
        | succ m =>
          obtain ⟨a, b⟩ := hm m z (by simpa using hz)
          exact ⟨a, fun h => Nat.succ_le_succ (b h)⟩
    · next hg =>
      rcases ih (i + 1) best g (by omega) with ⟨h, hle⟩ | ⟨n, y, h, hy, hlt, hm⟩
      · exact Or.inl ⟨h, fun y hy => by
          rcases List.mem_cons.1 hy with rfl | hy
          · omega
          · exact hle y hy⟩
      · right
        refine ⟨n + 1, y, by omega, by simpa using hy, hlt, fun m z hz => ?_⟩
        cases m with
        | zero => simp only [List.getElem?_cons_zero, Option.some.injEq] at hz; subst hz; exact ⟨by omega, by omega⟩
        | succ m =>
          obtain ⟨a, b⟩ := hm m z (by simpa using hz)
          exact ⟨a, fun h => Nat.succ_le_succ (b h)⟩

theorem oldest_spec {vs : List Voice} (h : vs ≠ []) :
    ∃ x, vs[oldest vs]? = some x ∧ ∀ m y, vs[m]? = some y → x.gen ≤ y.gen ∧ (y.gen = x.gen → oldest vs ≤ m) := by
  cases vs with
  | nil => exact absurd rfl h
  | cons x xs =>
    rcases oldestFrom_spec xs 1 0 x.gen (by omega) with ⟨h, hle⟩ | ⟨n, y, h, hy, hlt, hm⟩
    · refine ⟨x, by simp [oldest, h], fun m y hy => ?_⟩
      cases m with
      | zero => simp only [List.getElem?_cons_zero, Option.some.injEq] at hy; subst hy; simp [oldest, h]
      | succ m => exact ⟨hle y (List.mem_of_getElem? (by simpa using hy)), fun _ => by simp [oldest, h]⟩
    · refine ⟨y, by simp [oldest, h, Nat.add_comm 1 n, hy], fun m z hz => ?_⟩
      cases m with
      | zero => simp only [List.getElem?_cons_zero, Option.some.injEq] at hz; subst hz; exact ⟨by omega, by omega⟩
      | succ m =>
        obtain ⟨a, b⟩ := hm m z (by simpa using hz)
        exact ⟨a, fun e => by have := b e; simp only [oldest, h]; omega⟩

/-- VOICE_SELECT's answer is an index of the pool (R281). -/
theorem voiceSelect_lt {vs : List Voice} (h : vs ≠ []) : ∃ x, vs[voiceSelect vs]? = some x := by
  unfold voiceSelect
  split
  · next v hv =>
    obtain ⟨n, x, rfl, hx, _⟩ := firstIdle_some hv
    exact ⟨x, by simpa using hx⟩
  · obtain ⟨x, hx, _⟩ := oldest_spec h
    exact ⟨x, hx⟩

theorem voiceOfGen_none {g : Nat} {vs : List Voice} : ∀ {i : Nat}, voiceOfGen g i vs = none → ∀ x ∈ vs, x.gen ≠ g := by
  induction vs with
  | nil => simp
  | cons x xs ih =>
    intro i h y hy
    simp only [voiceOfGen] at h
    split at h
    · cases h
    · next hx =>
      rcases List.mem_cons.1 hy with rfl | hy
      · exact hx
      · exact ih h y hy

theorem voiceOfGen_some {g : Nat} {vs : List Voice} : ∀ {i v : Nat}, voiceOfGen g i vs = some v →
    ∃ n x, v = i + n ∧ vs[n]? = some x ∧ x.gen = g := by
  induction vs with
  | nil => intro i v h; cases h
  | cons x xs ih =>
    intro i v h
    simp only [voiceOfGen] at h
    split at h
    · next hx => cases h; exact ⟨0, x, rfl, rfl, hx⟩
    · obtain ⟨n, y, hn, hy, he⟩ := ih h
      exact ⟨n + 1, y, by omega, by simpa using hy, he⟩

end Sys2Proof.Machine
end

