-- ==== Sys2Proof/Laws/Encoding.lean ====
section
/-! SUPPORT. The fields of a word built from fields are those fields: CMD, BUS and RAW words, the operands of STEP words, and the
decoder's answer on each. -/

namespace Sys2Proof

/-! ### Fields of appended words -/

theorem extract_low {n m : Nat} (h : BitVec n) (l : BitVec m) (k len : Nat) (hk : k + len ≤ m) :
    (h ++ l).extractLsb' k len = l.extractLsb' k len := by
  ext i hi
  rw [BitVec.getElem_extractLsb', BitVec.getElem_extractLsb', BitVec.getLsbD_append, if_pos (by omega)]

theorem extract_high {n m : Nat} (h : BitVec n) (l : BitVec m) (k len : Nat) (hk : m ≤ k) :
    (h ++ l).extractLsb' k len = h.extractLsb' (k - m) len := by
  ext i hi
  rw [BitVec.getElem_extractLsb', BitVec.getElem_extractLsb', BitVec.getLsbD_append, if_neg (by omega),
    show k + i - m = k - m + i by omega]

theorem extract_all {n : Nat} (x : BitVec n) : x.extractLsb' 0 n = x := by
  ext i hi
  rw [BitVec.getElem_extractLsb', Nat.zero_add, BitVec.getLsbD_eq_getElem]

/-! ### CMD words -/

theorem cmdWord_op (op key : BitVec 4) (note : BitVec 3) : (cmdWord op key note).extractLsb' 0 4 = op := by
  unfold cmdWord
  rw [extract_low _ _ _ _ (by omega), extract_all]

theorem cmdWord_key (op key : BitVec 4) (note : BitVec 3) : (cmdWord op key note).extractLsb' 4 4 = key := by
  unfold cmdWord
  rw [extract_high _ _ _ _ (by omega), extract_low _ _ _ _ (by omega), extract_all]

theorem cmdWord_note (op key : BitVec 4) (note : BitVec 3) : (cmdWord op key note).extractLsb' 8 3 = note := by
  unfold cmdWord
  rw [extract_high _ _ _ _ (by omega), extract_high _ _ _ _ (by omega), extract_low _ _ _ _ (by omega), extract_all]

/-! ### BUS words -/

@[simp] theorem busWord_we (we : BitVec 1) (size : BitVec 2) (o : BitVec 8) (d : Word) :
    (busWord we size o d).extractLsb' 42 1 = we := by
  unfold busWord
  rw [extract_high _ _ _ _ (by omega), extract_high _ _ _ _ (by omega), extract_high _ _ _ _ (by omega), extract_all]

@[simp] theorem busWord_size (we : BitVec 1) (size : BitVec 2) (o : BitVec 8) (d : Word) :
    (busWord we size o d).extractLsb' 40 2 = size := by
  unfold busWord
  rw [extract_high _ _ _ _ (by omega), extract_high _ _ _ _ (by omega), extract_low _ _ _ _ (by omega), extract_all]

@[simp] theorem busWord_offset (we : BitVec 1) (size : BitVec 2) (o : BitVec 8) (d : Word) :
    (busWord we size o d).extractLsb' 32 8 = o := by
  unfold busWord
  rw [extract_high _ _ _ _ (by omega), extract_low _ _ _ _ (by omega), extract_all]

@[simp] theorem busWord_data (we : BitVec 1) (size : BitVec 2) (o : BitVec 8) (d : Word) :
    (busWord we size o d).extractLsb' 0 32 = d := by
  unfold busWord
  rw [extract_low _ _ _ _ (by omega), extract_all]

/-- A BUS word is its four fields. -/
theorem busWord_fields (w : BitVec 43) :
    busWord (w.extractLsb' 42 1) (w.extractLsb' 40 2) (w.extractLsb' 32 8) (w.extractLsb' 0 32) = w := by
  unfold busWord
  ext i hi
  rw [← BitVec.getLsbD_eq_getElem, BitVec.getLsbD_append, BitVec.getLsbD_append, BitVec.getLsbD_append]
  simp only [BitVec.getLsbD_extractLsb']
  split_ifs
  · simp [show i < 32 by omega, BitVec.getLsbD_eq_getElem hi]
  · simp [show i - 32 < 8 by omega, show 32 + (i - 32) = i by omega, BitVec.getLsbD_eq_getElem hi]
  · simp [show i - 32 - 8 < 2 by omega, show 40 + (i - 32 - 8) = i by omega, BitVec.getLsbD_eq_getElem hi]
  · simp [show i - 32 - 8 - 2 < 1 by omega, show 42 + (i - 32 - 8 - 2) = i by omega, BitVec.getLsbD_eq_getElem hi]

/-- The decoder on the fields of a BUS word (R143). -/
theorem decodeBus_busWord (we : BitVec 1) (size : BitVec 2) (o : BitVec 8) (d : Word) :
    decodeBus (busWord we size o d) =
      if size = 0b00#2 then .busErrSize8 we o d
      else if size = 0b01#2 then .busErrSize16 we o d
      else if size = 0b11#2 then .busErrSizeRsvd we o d
      else if o.getLsbD 0 then .busErrAlignB0 we o d
      else if o.getLsbD 1 then .busErrAlignB1 we o d
      else if we = 1#1 then decodeWrite o d
      else decodeRead o := by
  unfold decodeBus
  simp only [busWord_we, busWord_size, busWord_offset, busWord_data]

/-! ### RAW words -/

theorem rawWord_stamp (st : Word) (kind : BitVec 2) (index : BitVec 4) (data : BitVec 16) :
    (rawWord st kind index data).extractLsb' 32 32 = st := by
  unfold rawWord
  rw [extract_high _ _ _ _ (by omega), extract_high _ _ _ _ (by omega), extract_high _ _ _ _ (by omega),
    extract_high _ _ _ _ (by omega), extract_all]

theorem rawWord_kind (st : Word) (kind : BitVec 2) (index : BitVec 4) (data : BitVec 16) :
    (rawWord st kind index data).extractLsb' 30 2 = kind := by
  unfold rawWord
  rw [extract_high _ _ _ _ (by omega), extract_high _ _ _ _ (by omega), extract_high _ _ _ _ (by omega),
    extract_low _ _ _ _ (by omega), extract_all]

theorem rawWord_zero (st : Word) (kind : BitVec 2) (index : BitVec 4) (data : BitVec 16) :
    (rawWord st kind index data).extractLsb' 20 10 = 0#10 := by
  unfold rawWord
  rw [extract_high _ _ _ _ (by omega), extract_high _ _ _ _ (by omega), extract_low _ _ _ _ (by omega), extract_all]

theorem rawWord_index (st : Word) (kind : BitVec 2) (index : BitVec 4) (data : BitVec 16) :
    (rawWord st kind index data).extractLsb' 16 4 = index := by
  unfold rawWord
  rw [extract_high _ _ _ _ (by omega), extract_low _ _ _ _ (by omega), extract_all]

theorem rawWord_data (st : Word) (kind : BitVec 2) (index : BitVec 4) (data : BitVec 16) (k len : Nat) (h : k + len ≤ 16) :
    (rawWord st kind index data).extractLsb' k len = data.extractLsb' k len := by
  unfold rawWord
  rw [extract_low _ _ _ _ h]

end Sys2Proof
end

