-- ==== Sys2Proof/Laws/PerInstr.lean ====
section
/-! SUPPORT. The family TableMatch, instruction by instruction: the word that `encode` gives a well-formed instruction fits the match and
mask of its own row of spec/opcode_table.json, and an instruction has no word exactly where its row has no match. -/

namespace Sys2Proof.Laws.TableMatch

/-- Match and mask of the instruction's row, none for the MICRO rows (spec/opcode_table.json, R145). -/
def tableRow : Instr → Option (Nat × Nat)
  | .noteOn _ _ => some (0x1, 0xF)
  | .noteOff _ => some (0x2, 0xF)
  | .cmdRsvd0 => some (0x0, 0xF)
  | .cmdRsvd3 => some (0x3, 0xF)
  | .cmdRsvd47 _ => some (0x4, 0xC)
  | .cmdRsvd8F _ => some (0x8, 0x8)
  | .wrCmd _ => some (0x60000000000, 0x7FF00000000)
  | .rdCmd => some (0x20000000000, 0x7FF00000000)
  | .wrStatus _ => some (0x60400000000, 0x7FF00000000)
  | .rdStatus => some (0x20400000000, 0x7FF00000000)
  | .wrIrqEn _ => some (0x60800000000, 0x7FF00000000)
  | .rdIrqEn => some (0x20800000000, 0x7FF00000000)
  | .rdEvent => some (0x20C00000000, 0x7FF00000000)
  | .wrRoEvent _ => some (0x60C00000000, 0x7FF00000000)
  | .wrAttack _ => some (0x61000000000, 0x7FF00000000)
  | .wrDecay _ => some (0x61400000000, 0x7FF00000000)
  | .wrSustain _ => some (0x61800000000, 0x7FF00000000)
  | .wrRelease _ => some (0x61C00000000, 0x7FF00000000)
  | .wrCutoff _ => some (0x62000000000, 0x7FF00000000)
  | .wrResonance _ => some (0x62400000000, 0x7FF00000000)
  | .wrVolume _ => some (0x62800000000, 0x7FF00000000)
  | .wrWave _ => some (0x62C00000000, 0x7FF00000000)
  | .wrNote _ => some (0x63000000000, 0x7FF00000000)
  | .wrOctave _ => some (0x63400000000, 0x7FF00000000)
  | .rdAttack => some (0x21000000000, 0x7FF00000000)
  | .rdDecay => some (0x21400000000, 0x7FF00000000)
  | .rdSustain => some (0x21800000000, 0x7FF00000000)
  | .rdRelease => some (0x21C00000000, 0x7FF00000000)
  | .rdCutoff => some (0x22000000000, 0x7FF00000000)
  | .rdResonance => some (0x22400000000, 0x7FF00000000)
  | .rdVolume => some (0x22800000000, 0x7FF00000000)
  | .rdWave => some (0x22C00000000, 0x7FF00000000)
  | .rdNote => some (0x23000000000, 0x7FF00000000)
  | .rdOctave => some (0x23400000000, 0x7FF00000000)
  | .rdVoiceState => some (0x23800000000, 0x7FF00000000)
  | .wrRoVoiceState _ => some (0x63800000000, 0x7FF00000000)
  | .rdTick => some (0x23C00000000, 0x7FF00000000)
  | .wrRoTick _ => some (0x63C00000000, 0x7FF00000000)
  | .wrKeymap _ _ => some (0x64000000000, 0x7C300000000)
  | .rdKeymap _ => some (0x24000000000, 0x7C300000000)
  | .wrRsvd _ _ => some (0x68000000000, 0x78300000000)
  | .rdRsvd _ => some (0x28000000000, 0x78300000000)
  | .busErrSize8 _ _ _ => some (0x0, 0x30000000000)
  | .busErrSize16 _ _ _ => some (0x10000000000, 0x30000000000)
  | .busErrSizeRsvd _ _ _ => some (0x30000000000, 0x30000000000)
  | .busErrAlignB0 _ _ _ => some (0x100000000, 0x100000000)
  | .busErrAlignB1 _ _ _ => some (0x200000000, 0x200000000)
  | .encAb _ _ _ => some (0x0, 0xFFF00000)
  | .encBtn _ _ _ => some (0x40000000, 0xFFF00000)
  | .keyScan _ _ => some (0x80000000, 0xFFF00000)
  | .rawRsvd _ _ => some (0xC0000000, 0xC0000000)
  | .host _ => some (0x0, 0xF)
  | .capture _ => some (0x1, 0xF)
  | .dmaHt => some (0x2, 0xF)
  | .dmaTc => some (0x3, 0xF)
  | .tick => some (0x4, 0xF)
  | .reset _ => some (0x5, 0xF)
  | .decode => some (0x8, 0xF)
  | .passStart => some (0x9, 0xF)
  | .frame => some (0xA, 0xF)
  | .envIdle _ => none
  | .envAttack _ => none
  | .envDecay _ => none
  | .envSustain _ => none
  | .envRelease _ => none
  | .oscTune _ _ => none
  | .oscLookup _ => none
  | .oscAdvance _ => none
  | .voiceSelect => none
  | .genRebase => none
  | .filtUpdate => none
  | .filtProcess _ => none
  | .detentCheck _ _ => none
  | .keyAction _ _ => none

/-- The word of a line against a match and a mask. -/
def fits : Line → Nat × Nat → Prop
  | .cmd w, r => w &&& BitVec.ofNat 32 r.2 = BitVec.ofNat 32 r.1
  | .bus w, r => w &&& BitVec.ofNat 43 r.2 = BitVec.ofNat 43 r.1
  | .raw w, r => w &&& BitVec.ofNat 64 r.2 = BitVec.ofNat 64 r.1
  | .step l _, r => l &&& BitVec.ofNat 4 r.2 = BitVec.ofNat 4 r.1

/-- A word where the row has a match, and none where it has none. -/
def agrees : Option Line → Option (Nat × Nat) → Prop
  | some l, some r => fits l r
  | none, none => True
  | some _, none => False
  | none, some _ => False

/-- The statement of the family. -/
def Statement (i : Instr) : Prop := i.wf = true → agrees (encode i) (tableRow i)

/-! ### Words under a mask -/

theorem and_append {n m : Nat} (a c : BitVec n) (b d : BitVec m) : (a ++ b) &&& (c ++ d) = (a &&& c) ++ (b &&& d) := by
  ext i hi
  simp only [BitVec.getElem_and, BitVec.getElem_append]
  split <;> simp

theorem bus_fits {we : BitVec 1} {size : BitVec 2} {o : BitVec 8} (d : Word) {p m : BitVec 11} {r : Nat × Nat}
    (hm : BitVec.ofNat 43 r.2 = m ++ 0#32) (hp : BitVec.ofNat 43 r.1 = p ++ 0#32) (h : (we ++ size ++ o) &&& m = p) :
    fits (.bus (busWord we size o d)) r := by
  show busWord we size o d &&& BitVec.ofNat 43 r.2 = BitVec.ofNat 43 r.1
  rw [hm, hp]
  unfold busWord
  rw [and_append, h, BitVec.and_zero]

theorem cmd_fits {op : BitVec 4} (key : BitVec 4) (note : BitVec 3) {p m : BitVec 4} {r : Nat × Nat}
    (hm : BitVec.ofNat 32 r.2 = 0#21 ++ 0#3 ++ 0#4 ++ m) (hp : BitVec.ofNat 32 r.1 = 0#21 ++ 0#3 ++ 0#4 ++ p)
    (h : op &&& m = p) : fits (.cmd (cmdWord op key note)) r := by
  show cmdWord op key note &&& BitVec.ofNat 32 r.2 = BitVec.ofNat 32 r.1
  rw [hm, hp]
  unfold cmdWord
  rw [and_append, and_append, and_append, h, BitVec.and_zero, BitVec.and_zero, BitVec.and_zero]

theorem raw_fits (st : Word) {kind : BitVec 2} (index : BitVec 4) (data : BitVec 16) {r : Nat × Nat}
    (hm : BitVec.ofNat 64 r.2 = 0#32 ++ 0b11#2 ++ 0b1111111111#10 ++ 0#4 ++ 0#16)
    (hp : BitVec.ofNat 64 r.1 = 0#32 ++ kind ++ 0#10 ++ 0#4 ++ 0#16) :
    fits (.raw (rawWord st kind index data)) r := by
  show rawWord st kind index data &&& BitVec.ofNat 64 r.2 = BitVec.ofNat 64 r.1
  rw [hm, hp]
  unfold rawWord
  have hk : kind &&& 0b11#2 = kind := BitVec.and_allOnes
  rw [and_append, and_append, and_append, and_append, hk, BitVec.and_zero, BitVec.and_zero, BitVec.and_zero,
    BitVec.zero_and]

/-! ### One lemma a constructor -/

theorem noteOn (key : BitVec 4) (note : BitVec 3) : Statement (.noteOn key note) :=
  fun _ => cmd_fits (p := 0x1#4) (m := 0xF#4) _ _ rfl rfl (by decide)

theorem noteOff (key : BitVec 4) : Statement (.noteOff key) :=
  fun _ => cmd_fits (p := 0x2#4) (m := 0xF#4) _ _ rfl rfl (by decide)

theorem cmdRsvd0 : Statement .cmdRsvd0 := fun _ => cmd_fits (p := 0x0#4) (m := 0xF#4) _ _ rfl rfl (by decide)

theorem cmdRsvd3 : Statement .cmdRsvd3 := fun _ => cmd_fits (p := 0x3#4) (m := 0xF#4) _ _ rfl rfl (by decide)

theorem cmdRsvd47 (lo : BitVec 2) : Statement (.cmdRsvd47 lo) := by
  intro h
  clear h
  exact cmd_fits (p := 0x4#4) (m := 0xC#4) _ _ rfl rfl (by revert lo; decide)

theorem cmdRsvd8F (lo : BitVec 3) : Statement (.cmdRsvd8F lo) := by
  intro h
  clear h
  exact cmd_fits (p := 0x8#4) (m := 0x8#4) _ _ rfl rfl (by revert lo; decide)

theorem wrCmd (data : Word) : Statement (.wrCmd data) :=
  fun _ => bus_fits (p := 0x600#11) (m := 0x7FF#11) _ rfl rfl (by decide)

theorem rdCmd : Statement .rdCmd := fun _ => bus_fits (p := 0x200#11) (m := 0x7FF#11) _ rfl rfl (by decide)

theorem wrStatus (data : Word) : Statement (.wrStatus data) :=
  fun _ => bus_fits (p := 0x604#11) (m := 0x7FF#11) _ rfl rfl (by decide)

theorem rdStatus : Statement .rdStatus := fun _ => bus_fits (p := 0x204#11) (m := 0x7FF#11) _ rfl rfl (by decide)

theorem wrIrqEn (data : Word) : Statement (.wrIrqEn data) :=
  fun _ => bus_fits (p := 0x608#11) (m := 0x7FF#11) _ rfl rfl (by decide)

theorem rdIrqEn : Statement .rdIrqEn := fun _ => bus_fits (p := 0x208#11) (m := 0x7FF#11) _ rfl rfl (by decide)

theorem rdEvent : Statement .rdEvent := fun _ => bus_fits (p := 0x20C#11) (m := 0x7FF#11) _ rfl rfl (by decide)

theorem wrRoEvent (data : Word) : Statement (.wrRoEvent data) :=
  fun _ => bus_fits (p := 0x60C#11) (m := 0x7FF#11) _ rfl rfl (by decide)

theorem wrAttack (data : Word) : Statement (.wrAttack data) :=
  fun _ => bus_fits (p := 0x610#11) (m := 0x7FF#11) _ rfl rfl (by decide)

theorem wrDecay (data : Word) : Statement (.wrDecay data) :=
  fun _ => bus_fits (p := 0x614#11) (m := 0x7FF#11) _ rfl rfl (by decide)

theorem wrSustain (data : Word) : Statement (.wrSustain data) :=
  fun _ => bus_fits (p := 0x618#11) (m := 0x7FF#11) _ rfl rfl (by decide)

theorem wrRelease (data : Word) : Statement (.wrRelease data) :=
  fun _ => bus_fits (p := 0x61C#11) (m := 0x7FF#11) _ rfl rfl (by decide)

theorem wrCutoff (data : Word) : Statement (.wrCutoff data) :=
  fun _ => bus_fits (p := 0x620#11) (m := 0x7FF#11) _ rfl rfl (by decide)

theorem wrResonance (data : Word) : Statement (.wrResonance data) :=
  fun _ => bus_fits (p := 0x624#11) (m := 0x7FF#11) _ rfl rfl (by decide)

theorem wrVolume (data : Word) : Statement (.wrVolume data) :=
  fun _ => bus_fits (p := 0x628#11) (m := 0x7FF#11) _ rfl rfl (by decide)

theorem wrWave (data : Word) : Statement (.wrWave data) :=
  fun _ => bus_fits (p := 0x62C#11) (m := 0x7FF#11) _ rfl rfl (by decide)

theorem wrNote (data : Word) : Statement (.wrNote data) :=
  fun _ => bus_fits (p := 0x630#11) (m := 0x7FF#11) _ rfl rfl (by decide)

theorem wrOctave (data : Word) : Statement (.wrOctave data) :=
  fun _ => bus_fits (p := 0x634#11) (m := 0x7FF#11) _ rfl rfl (by decide)

theorem rdAttack : Statement .rdAttack := fun _ => bus_fits (p := 0x210#11) (m := 0x7FF#11) _ rfl rfl (by decide)

theorem rdDecay : Statement .rdDecay := fun _ => bus_fits (p := 0x214#11) (m := 0x7FF#11) _ rfl rfl (by decide)

theorem rdSustain : Statement .rdSustain := fun _ => bus_fits (p := 0x218#11) (m := 0x7FF#11) _ rfl rfl (by decide)

theorem rdRelease : Statement .rdRelease := fun _ => bus_fits (p := 0x21C#11) (m := 0x7FF#11) _ rfl rfl (by decide)

theorem rdCutoff : Statement .rdCutoff := fun _ => bus_fits (p := 0x220#11) (m := 0x7FF#11) _ rfl rfl (by decide)

theorem rdResonance : Statement .rdResonance :=
  fun _ => bus_fits (p := 0x224#11) (m := 0x7FF#11) _ rfl rfl (by decide)

theorem rdVolume : Statement .rdVolume := fun _ => bus_fits (p := 0x228#11) (m := 0x7FF#11) _ rfl rfl (by decide)

theorem rdWave : Statement .rdWave := fun _ => bus_fits (p := 0x22C#11) (m := 0x7FF#11) _ rfl rfl (by decide)

theorem rdNote : Statement .rdNote := fun _ => bus_fits (p := 0x230#11) (m := 0x7FF#11) _ rfl rfl (by decide)

theorem rdOctave : Statement .rdOctave := fun _ => bus_fits (p := 0x234#11) (m := 0x7FF#11) _ rfl rfl (by decide)

theorem rdVoiceState : Statement .rdVoiceState :=
  fun _ => bus_fits (p := 0x238#11) (m := 0x7FF#11) _ rfl rfl (by decide)

theorem wrRoVoiceState (data : Word) : Statement (.wrRoVoiceState data) :=
  fun _ => bus_fits (p := 0x638#11) (m := 0x7FF#11) _ rfl rfl (by decide)

theorem rdTick : Statement .rdTick := fun _ => bus_fits (p := 0x23C#11) (m := 0x7FF#11) _ rfl rfl (by decide)

theorem wrRoTick (data : Word) : Statement (.wrRoTick data) :=
  fun _ => bus_fits (p := 0x63C#11) (m := 0x7FF#11) _ rfl rfl (by decide)

theorem wrKeymap (key : BitVec 4) (data : Word) : Statement (.wrKeymap key data) := by
  intro h
  clear h
  exact bus_fits (p := 0x640#11) (m := 0x7C3#11) _ rfl rfl (by revert key; decide)

theorem rdKeymap (key : BitVec 4) : Statement (.rdKeymap key) := by
  intro h
  clear h
  exact bus_fits (p := 0x240#11) (m := 0x7C3#11) _ rfl rfl (by revert key; decide)

theorem wrRsvd (offset : BitVec 8) (data : Word) : Statement (.wrRsvd offset data) :=
  fun h => bus_fits (p := 0x680#11) (m := 0x783#11) _ rfl rfl (by
  have : ∀ o : BitVec 8, isReservedOffset o = true → (1#1 ++ 0b10#2 ++ o) &&& 0x783#11 = 0x680#11 := by decide
  exact this offset h)

theorem rdRsvd (offset : BitVec 8) : Statement (.rdRsvd offset) :=
  fun h => bus_fits (p := 0x280#11) (m := 0x783#11) _ rfl rfl (by
  have : ∀ o : BitVec 8, isReservedOffset o = true → (0#1 ++ 0b10#2 ++ o) &&& 0x783#11 = 0x280#11 := by decide
  exact this offset h)

theorem busErrSize8 (we : BitVec 1) (offset : BitVec 8) (data : Word) : Statement (.busErrSize8 we offset data) := by
  intro h
  clear h
  exact bus_fits (p := 0x0#11) (m := 0x300#11) _ rfl rfl (by revert we offset; decide +kernel)

theorem busErrSize16 (we : BitVec 1) (offset : BitVec 8) (data : Word)
    : Statement (.busErrSize16 we offset data) := by
  intro h
  clear h
  exact bus_fits (p := 0x100#11) (m := 0x300#11) _ rfl rfl (by revert we offset; decide +kernel)

theorem busErrSizeRsvd (we : BitVec 1) (offset : BitVec 8) (data : Word)
    : Statement (.busErrSizeRsvd we offset data) := by
  intro h
  clear h
  exact bus_fits (p := 0x300#11) (m := 0x300#11) _ rfl rfl (by revert we offset; decide +kernel)

theorem busErrAlignB0 (we : BitVec 1) (offset : BitVec 8) (data : Word) : Statement (.busErrAlignB0 we offset data) :=
  fun h => bus_fits (p := 0x1#11) (m := 0x1#11) _ rfl rfl (by
  have : ∀ (w : BitVec 1) (o : BitVec 8), o.getLsbD 0 = true → (w ++ 0b10#2 ++ o) &&& 0x1#11 = 0x1#11 := by decide +kernel
  exact this we offset h)

theorem busErrAlignB1 (we : BitVec 1) (offset : BitVec 8) (data : Word) : Statement (.busErrAlignB1 we offset data) :=
  fun h => bus_fits (p := 0x2#11) (m := 0x2#11) _ rfl rfl (by
  have : ∀ (w : BitVec 1) (o : BitVec 8), (o.getLsbD 1 && !o.getLsbD 0) = true → (w ++ 0b10#2 ++ o) &&& 0x2#11 = 0x2#11 := by
    decide +kernel
  exact this we offset h)

theorem encAb (stamp : Word) (index : BitVec 4) (ab : BitVec 2) : Statement (.encAb stamp index ab) :=
  fun _ => raw_fits _ _ _ rfl rfl

theorem encBtn (stamp : Word) (index : BitVec 4) (level : BitVec 1) : Statement (.encBtn stamp index level) :=
  fun _ => raw_fits _ _ _ rfl rfl

theorem keyScan (stamp : Word) (mask : BitVec 16) : Statement (.keyScan stamp mask) := fun _ => raw_fits _ _ _ rfl rfl

theorem rawRsvd (stamp : Word) (low : BitVec 30) : Statement (.rawRsvd stamp low) := by
  intro _
  show (stamp ++ 0b11#2 ++ low) &&& (0xC0000000#64) = 0xC0000000#64
  rw [show (0xC0000000#64) = 0#32 ++ 0b11#2 ++ 0#30 by rfl, and_append, and_append, BitVec.and_zero, BitVec.and_zero]
  rfl

theorem host (access : BitVec 43) : Statement (.host access) := fun _ => (by decide : _ &&& _ = _)

theorem capture (record : Word) : Statement (.capture record) := fun _ => (by decide : _ &&& _ = _)

theorem dmaHt : Statement .dmaHt := fun _ => (by decide : _ &&& _ = _)

theorem dmaTc : Statement .dmaTc := fun _ => (by decide : _ &&& _ = _)

theorem tick : Statement .tick := fun _ => (by decide : _ &&& _ = _)

theorem reset (pins : Word) : Statement (.reset pins) := fun _ => (by decide : _ &&& _ = _)

theorem decode : Statement .decode := fun _ => (by decide : _ &&& _ = _)

theorem passStart : Statement .passStart := fun _ => (by decide : _ &&& _ = _)

theorem frame : Statement .frame := fun _ => (by decide : _ &&& _ = _)

theorem envIdle (v : BitVec 3) : Statement (.envIdle v) := fun _ => trivial

theorem envAttack (v : BitVec 3) : Statement (.envAttack v) := fun _ => trivial

theorem envDecay (v : BitVec 3) : Statement (.envDecay v) := fun _ => trivial

theorem envSustain (v : BitVec 3) : Statement (.envSustain v) := fun _ => trivial

theorem envRelease (v : BitVec 3) : Statement (.envRelease v) := fun _ => trivial

theorem oscTune (v : BitVec 3) (note : BitVec 3) : Statement (.oscTune v note) := fun _ => trivial

theorem oscLookup (v : BitVec 3) : Statement (.oscLookup v) := fun _ => trivial

theorem oscAdvance (v : BitVec 3) : Statement (.oscAdvance v) := fun _ => trivial

theorem voiceSelect : Statement .voiceSelect := fun _ => trivial

theorem genRebase : Statement .genRebase := fun _ => trivial

theorem filtUpdate : Statement .filtUpdate := fun _ => trivial

theorem filtProcess (x : F32) : Statement (.filtProcess x) := fun _ => trivial

theorem detentCheck (e : BitVec 4) (stamp : Word) : Statement (.detentCheck e stamp) := fun _ => trivial

theorem keyAction (key : BitVec 4) (pressed : Bool) : Statement (.keyAction key pressed) := fun _ => trivial

end Sys2Proof.Laws.TableMatch
end

