-- ==== Sys2Proof/Laws/Queues.lean ====
section
/-! SUPPORT. What the three pushes and the oldest record's removal do, once: whoever pushes cites these. -/

namespace Sys2Proof.Machine

theorem pushCmd_pushed (r : Cmd) (s : State) : PushedCmd r s (pushCmd r s) := by
  constructor
  · intro h; simp [pushCmd, h]
  · intro h; simp [pushCmd, Nat.not_lt.2 h, setSticky, bitCmdqOvf]

theorem pushEvent_pushed (r : Event) (s : State) : PushedEvent r s (pushEvent r s) := by
  constructor
  · intro h; simp [pushEvent, h]
  · intro h; simp [pushEvent, Nat.not_lt.2 h, setSticky, bitEvqOvf]

theorem pushRaw_pushed (r : BitVec 64) (s : State) : PushedRaw r s (pushRaw r s) := by
  constructor
  · intro h; simp [pushRaw, h]
  · intro h; simp [pushRaw, Nat.not_lt.2 h, setSticky, bitRawqOvf]

theorem pushCmd_frame (r : Cmd) (s : State) :
    pushCmd r s = { s with cmdq := (pushCmd r s).cmdq, sticky := (pushCmd r s).sticky } := by
  unfold pushCmd; split <;> rfl

theorem pushEvent_frame (r : Event) (s : State) :
    pushEvent r s = { s with evq := (pushEvent r s).evq, sticky := (pushEvent r s).sticky } := by
  unfold pushEvent; split <;> rfl

theorem pushRaw_frame (r : BitVec 64) (s : State) :
    pushRaw r s = { s with rawq := (pushRaw r s).rawq, sticky := (pushRaw r s).sticky } := by
  unfold pushRaw; split <;> rfl

/-- A push leaves what the queue held at its front, and adds one record at most at its end. -/
theorem pushCmd_grows (r : Cmd) (s : State) : ∃ new, (pushCmd r s).cmdq = s.cmdq ++ new := by
  unfold pushCmd; split
  · exact ⟨[r], rfl⟩
  · exact ⟨[], by simp⟩

theorem pushEvent_grows (r : Event) (s : State) : ∃ new, (pushEvent r s).evq = s.evq ++ new := by
  unfold pushEvent; split
  · exact ⟨[r], rfl⟩
  · exact ⟨[], by simp⟩

theorem pushRaw_grows (r : BitVec 64) (s : State) : ∃ new, (pushRaw r s).rawq = s.rawq ++ new := by
  unfold pushRaw; split
  · exact ⟨[r], rfl⟩
  · exact ⟨[], by simp⟩

/-- Bytes read the same in two states with one configuration and one PCM buffer. -/
theorem sameMemory_of {s t : State} (hc : t.cfg = s.cfg) (hp : t.pcm = s.pcm) : SameMemory s t := by
  intro a; unfold memRead; rw [hc, hp]

end Sys2Proof.Machine
end

