-- ==== Sys2Proof/Tests/Slice0.lean ====
section
/-! SUPPORT. Tests: one step each, on small states, the expected results taken from the rules' examples and from
spec/95_test_vectors.md; and for every statement with hypotheses a witness that meets them, at the bounds of its clauses. -/

namespace Sys2Proof.Tests

set_option Elab.async false

open Sys2Proof Sys2Proof.Machine

/-! ### The states the tests start from -/

/-- The parameters of spec/95 §3: one sample a UI unit, eight frames of buffer. -/
def cfg : Params := { Config.reference with samplesPerUnit := 1, bufFrames := 8 }

/-- Right after reset, the encoders' pins at 00. -/
def st : State := State.launch cfg 0#32

/-- The next state of a row, `st` itself where there is none. -/
def after (i : Instr) (s : State) : State :=
  match exec i s with
  | .next t => t
  | .fault _ => s
  | .refused _ => s

/-- Whether a row gives a next state. -/
def runs (i : Instr) (s : State) : Bool :=
  match exec i s with
  | .next _ => true
  | .fault _ => false
  | .refused _ => false

theorem exec_after {i : Instr} {s : State} (h : runs i s = true) : exec i s = .next (after i s) := by
  unfold runs at h
  unfold after
  split at h
  · assumption
  · cases h
  · cases h

/-- The next state of a step. -/
def stepped (s : State) : State :=
  match step s with
  | .next t => t
  | .fault _ => s
  | .refused _ => s

/-- Whether a step gives a next state. -/
def steps (s : State) : Bool :=
  match step s with
  | .next _ => true
  | .fault _ => false
  | .refused _ => false

theorem step_stepped {s : State} (h : steps s = true) : step s = .next (stepped s) := by
  unfold steps at h
  unfold stepped
  split at h
  · assumption
  · cases h
  · cases h

/-- A voice in a given state with a given level, step and count, its stage counts 4 and its sustain level 0.5. -/
def voice (env : Env) (level step : F32) (left : Word) (gen : Nat) : Voice :=
  { env, level, step, left, atk := 4#32, dec := 4#32, sus := 0x3F000000#32, rel := 4#32, freq := 0#32, tw := 0#32, phase := 0#32, gen }

/-- `st` with three voices. -/
def withVoices (x y z : Voice) : State := { st with voices := [x, y, z] }

/-- Three sounding voices, generations as in the example of R291. -/
def gens291 : State :=
  { withVoices (voice .sustain 0x3F000000#32 0#32 0#32 250) (voice .attack 0#32 0x3E800000#32 4#32 253)
      (voice .release 0x3F000000#32 0x3E000000#32 4#32 254) with
    nextGen := 256
    keyGen := [250, 253, 254, 200] ++ List.replicate 12 0 }

/-- The example of R292. -/
def gens292 : State :=
  { withVoices (voice .sustain 0x3F000000#32 0#32 0#32 1) (voice .attack 0#32 0x3E800000#32 4#32 255) (voice .idle 0#32 0#32 0#32 254)
    with
    nextGen := 256
    keyGen := [1, 255, 254, 0, 0, 100] ++ List.replicate 10 0 }

/-- A pass under way, `j` frames of half 0 written. -/
def busy (j : BitVec 16) : State := { st with seq := { st.seq with busy := true, j := j } }

/-- Encoder 0 with a pin pair and an accumulator. -/
def enc (prev : BitVec 2) (acc : BitVec 8) : State :=
  { st with encs := [⟨prev, acc, false, 0xFFFFFFEC#32⟩, ⟨0#2, 0#8, false, 0xFFFFFFEC#32⟩] }

/-- Key `k` with an integrator and a stable state. -/
def key (k n : Nat) (b : Bool) : State := { st with keys := st.keys.set k ⟨n, b⟩ }

/-- The state of program P1 at its first frame: registers written, NOTE_ON(0, 5) queued, the fs/4 set loaded. -/
def p1 : State :=
  { busy 0#16 with
    regs := { st.regs with attack := 2#8, decay := 2#8, sustain := 50#8, release := 4#8, wave := 1#2, volume := 100#8 }
    cmdq := [⟨.noteOn, 0#4, 5#3⟩]
    filt := { st.filt with b0 := 0x3E95F3B3#32, b1 := 0x3F15F3B3#32, b2 := 0x3E95F3B3#32, a1 := 0#32, a2 := 0x3E2F9D96#32,
                           dirty := false } }

/-! ### Well-formedness: an ill-formed term for each check -/

theorem test_wf_rsvd :
    (Instr.wrRsvd 0x7C#8 0#32).wf = false ∧ (Instr.wrRsvd 0x81#8 0#32).wf = false ∧ (Instr.rdRsvd 0x40#8).wf = false ∧
    (Instr.rdRsvd 0xFE#8).wf = false ∧ (Instr.wrRsvd 0x80#8 0#32).wf = true ∧ (Instr.rdRsvd 0xFC#8).wf = true := by decide

theorem test_wf_align :
    (Instr.busErrAlignB0 1#1 0x10#8 0#32).wf = false ∧ (Instr.busErrAlignB0 1#1 0x12#8 0#32).wf = false ∧
    (Instr.busErrAlignB1 1#1 0x10#8 0#32).wf = false ∧ (Instr.busErrAlignB1 0#1 0x13#8 0#32).wf = false ∧
    (Instr.busErrAlignB0 0#1 0x13#8 0#32).wf = true ∧ (Instr.busErrAlignB1 0#1 0x12#8 0#32).wf = true := by decide

theorem test_wf_note : (Instr.oscTune 0#3 7#3).wf = false ∧ (Instr.oscTune 0#3 6#3).wf = true := by decide

/-! ### Decoding: every constructor with an encoding, by words written out from R141, R143 with R40, R155, R148 -/

theorem test_decode_cmd :
    decode (.cmd 0x00000551#32) = .ok (.noteOn 5#4 5#3) ∧ decode (.cmd 0x000007F1#32) = .ok (.noteOn 15#4 7#3) ∧
    decode (.cmd 0x00000052#32) = .ok (.noteOff 5#4) ∧ decode (.cmd 0xFFFFF802#32) = .ok (.noteOff 0#4) ∧
    decode (.cmd 0x00000000#32) = .ok .cmdRsvd0 ∧ decode (.cmd 0x00000003#32) = .ok .cmdRsvd3 ∧
    decode (.cmd 0x00000006#32) = .ok (.cmdRsvd47 2#2) ∧ decode (.cmd 0x0000000D#32) = .ok (.cmdRsvd8F 5#3) := by decide

theorem test_decode_bus_writes :
    decode (.bus 0x60000000501#43) = .ok (.wrCmd 0x501#32) ∧ decode (.bus 0x60400000002#43) = .ok (.wrStatus 2#32) ∧
    decode (.bus 0x60800000001#43) = .ok (.wrIrqEn 1#32) ∧ decode (.bus 0x60C00000000#43) = .ok (.wrRoEvent 0#32) ∧
    decode (.bus 0x61000000002#43) = .ok (.wrAttack 2#32) ∧ decode (.bus 0x61400000002#43) = .ok (.wrDecay 2#32) ∧
    decode (.bus 0x61800000032#43) = .ok (.wrSustain 50#32) ∧ decode (.bus 0x61C00000004#43) = .ok (.wrRelease 4#32) ∧
    decode (.bus 0x62000000032#43) = .ok (.wrCutoff 50#32) ∧ decode (.bus 0x62400000064#43) = .ok (.wrResonance 100#32) ∧
    decode (.bus 0x62800000064#43) = .ok (.wrVolume 100#32) ∧ decode (.bus 0x62C00000001#43) = .ok (.wrWave 1#32) ∧
    decode (.bus 0x63000000009#43) = .ok (.wrNote 9#32) ∧ decode (.bus 0x634FFFFFFFB#43) = .ok (.wrOctave 0xFFFFFFFB#32) ∧
    decode (.bus 0x63800000000#43) = .ok (.wrRoVoiceState 0#32) ∧ decode (.bus 0x63C00000000#43) = .ok (.wrRoTick 0#32) ∧
    decode (.bus 0x65C00000047#43) = .ok (.wrKeymap 7#4 0x47#32) ∧ decode (.bus 0x6FC00000001#43) = .ok (.wrRsvd 0xFC#8 1#32) := by
  decide

theorem test_decode_bus_reads :
    decode (.bus 0x20000000000#43) = .ok .rdCmd ∧ decode (.bus 0x20400000000#43) = .ok .rdStatus ∧
    decode (.bus 0x20800000000#43) = .ok .rdIrqEn ∧ decode (.bus 0x20C00000000#43) = .ok .rdEvent ∧
    decode (.bus 0x21000000000#43) = .ok .rdAttack ∧ decode (.bus 0x21400000000#43) = .ok .rdDecay ∧
    decode (.bus 0x21800000000#43) = .ok .rdSustain ∧ decode (.bus 0x21C00000000#43) = .ok .rdRelease ∧
    decode (.bus 0x22000000000#43) = .ok .rdCutoff ∧ decode (.bus 0x22400000000#43) = .ok .rdResonance ∧
    decode (.bus 0x22800000000#43) = .ok .rdVolume ∧ decode (.bus 0x22C00000000#43) = .ok .rdWave ∧
    decode (.bus 0x23000000000#43) = .ok .rdNote ∧ decode (.bus 0x23400000000#43) = .ok .rdOctave ∧
    decode (.bus 0x23800000000#43) = .ok .rdVoiceState ∧ decode (.bus 0x23C00000000#43) = .ok .rdTick ∧
    decode (.bus 0x25C00000000#43) = .ok (.rdKeymap 7#4) ∧ decode (.bus 0x28000000000#43) = .ok (.rdRsvd 0x80#8) := by decide

theorem test_decode_bus_errors :
    decode (.bus 0x41000000005#43) = .ok (.busErrSize8 1#1 0x10#8 5#32) ∧
    decode (.bus 0x52800000007#43) = .ok (.busErrSize16 1#1 0x28#8 7#32) ∧
    decode (.bus 0x30000000000#43) = .ok (.busErrSizeRsvd 0#1 0x00#8 0#32) ∧
    decode (.bus 0x20100000000#43) = .ok (.busErrAlignB0 0#1 0x01#8 0#32) ∧
    decode (.bus 0x60600000000#43) = .ok (.busErrAlignB1 1#1 0x06#8 0#32) ∧
    decode (.bus 0x60700000000#43) = .ok (.busErrAlignB0 1#1 0x07#8 0#32) := by decide

theorem test_decode_raw :
    decode (.raw 0x0000000000010002#64) = .ok (.encAb 0#32 1#4 2#2) ∧
    decode (.raw 0x0000001740000001#64) = .ok (.encBtn 0x17#32 0#4 1#1) ∧
    decode (.raw 0x0000001780000200#64) = .ok (.keyScan 0x17#32 0x200#16) ∧
    decode (.raw 0x00000001C0000005#64) = .ok (.rawRsvd 1#32 5#30) ∧
    decode (.raw 0x0000000000100000#64) = .error .rawNoRow ∧ decode (.raw 0x00000000A0000000#64) = .error .rawNoRow := by decide

theorem test_decode_step :
    decode (.step 0x0#4 0x60000000501#64) = .ok (.host 0x60000000501#43) ∧
    decode (.step 0x1#4 0x80000020#64) = .ok (.capture 0x80000020#32) ∧
    decode (.step 0x2#4 0#64) = .ok .dmaHt ∧ decode (.step 0x3#4 0#64) = .ok .dmaTc ∧ decode (.step 0x4#4 0#64) = .ok .tick ∧
    decode (.step 0x5#4 0b1101#64) = .ok (.reset 0b1101#32) ∧ decode (.step 0x8#4 0#64) = .ok .decode ∧
    decode (.step 0x9#4 0#64) = .ok .passStart ∧ decode (.step 0xA#4 0#64) = .ok .frame ∧
    decode (.step 0x6#4 0#64) = .error (.reservedLabel 0x6#4) ∧ decode (.step 0xB#4 0#64) = .error (.reservedLabel 0xB#4) := by decide

theorem test_decode_table :
    decodeTableWord 8 0x4 = some .tick ∧ decodeTableWord 48 0x61000000002 = some (.wrAttack 2#32) ∧
    decodeTableWord 32 0x80000020 = some (.keyScan 0#32 0x20#16) ∧
    decodeTableWord 32 0x40010001 = some (.encBtn 0#32 1#4 1#1) ∧ decodeTableWord 32 0x551 = some (.noteOn 5#4 5#3) ∧
    decodeTableWord 64 0x0000001780000200 = some (.keyScan 0x17#32 0x200#16) := by decide

/-! ### Stepping -/

theorem test_reset_is_legal : State.reset.cfg.legal = true := by decide +kernel

theorem test_step_runs_the_line : (stepped (st.withFetchWord 8 0x4)).tick = 1#32 ∧ (stepped (st.withFetchWord 8 0x4)).lines = [] := by
  decide +kernel

theorem test_step_refuses_label_7 :
    step { st with lines := [.step 0x7#4 0#64] } = .refused (.reservedLabel 0x7#4) := by
  have h : st.cfg.legal = true := by decide +kernel
  exact (if_pos h : _ = _)

theorem test_step_discards_no_row : (stepped { st with lines := [.raw 0x0000000000100000#64] }).lines = [] := by decide +kernel

theorem test_step_refuses_config : step { st with cfg := { cfg with nVoices := 9 } } = .refused .illegalConfig := by
  have h : ({ cfg with nVoices := 9 } : Params).legal ≠ true := by decide +kernel
  exact (if_neg h : _ = _)

theorem test_eager_decodes_first :
    (stepped { st with eager := true, rawq := [0x0000000000000002#64], lines := [.step 0x4#4 0#64] }).tick = 0#32 ∧
    (stepped { st with eager := true, rawq := [0x0000000000000002#64], lines := [.step 0x4#4 0#64] }).rawq = [] := by
  decide +kernel

/-! ### Host accesses (spec/95 §2.8 and the examples of 48_host_registers.md) -/

theorem test_host_write : (after (.host 0x62800000100#43) st).regs.volume = 100#8 := by decide +kernel
theorem test_host_wr16 : (after (.host 0x52800000007#43) st).regs.volume = 50#8 ∧
    (after (.host 0x52800000007#43) st).faults.busError = true ∧ (after (.host 0x52800000007#43) st).answer = .busError 0#32 := by
  decide +kernel
theorem test_wrCmd : (after (.wrCmd 0x551#32) st).cmdq = [⟨.noteOn, 5#4, 5#3⟩] ∧
    (after (.wrCmd 0x52#32) st).cmdq = [⟨.noteOff, 5#4, 0#3⟩] := by decide +kernel
theorem test_wrCmd_note7 : (after (.wrCmd 0x721#32) { st with regs := { st.regs with note := 6#3 } }).cmdq = [⟨.noteOn, 2#4, 6#3⟩] := by
  decide +kernel
theorem test_rdCmd : (after .rdCmd { st with cmdq := [⟨.noteOn, 5#4, 5#3⟩] }).answer = .rdata 0#32 := by decide +kernel
theorem test_cmdRsvd : (after .cmdRsvd0 st).sticky = 2#5 ∧ (after .cmdRsvd3 st).sticky = 2#5 ∧ (after (.cmdRsvd47 3#2) st).sticky = 2#5 ∧
    (after (.cmdRsvd8F 7#3) st).sticky = 2#5 ∧ (after (.wrCmd 3#32) st).sticky = 2#5 ∧ (after (.wrCmd 3#32) st).cmdq = [] := by
  decide +kernel
theorem test_cmdq_overflow :
    (after (.wrCmd 0x81#32) { st with cmdq := List.replicate 8 ⟨.noteOn, 0#4, 0#3⟩ }).sticky = 1#5 ∧
    (after (.wrCmd 0x81#32) { st with cmdq := List.replicate 8 ⟨.noteOn, 0#4, 0#3⟩ }).cmdq.length = 8 := by decide +kernel
theorem test_wrStatus : (after (.wrStatus 2#32) { st with sticky := 0b10011#5 }).sticky = 0b10001#5 := by decide +kernel
theorem test_rdStatus : (after .rdStatus st).answer = .rdata 0x900#32 := by decide +kernel
theorem test_rdStatus_bits :
    (after .rdStatus { busy 0#16 with sticky := 0b10001#5, evq := [⟨.key, 5#4, true, 0#16⟩], cmdq := [⟨.noteOff, 0#4, 0#3⟩],
                                      filt := { st.filt with dirty := false } }).answer = .rdata 0x611#32 := by decide +kernel
theorem test_irqEn : (after (.wrIrqEn 0xFFFFFFFF#32) st).irqEn = 3#2 ∧
    (after .rdIrqEn (after (.wrIrqEn 0xFFFFFFFE#32) st)).answer = .rdata 2#32 := by decide +kernel
theorem test_irq : irq { st with irqEn := 1#2, evq := [⟨.key, 5#4, true, 0#16⟩] } = true ∧ irq { st with irqEn := 2#2, sticky := 2#5 } = true ∧
    irq { st with irqEn := 0#2, sticky := 2#5, evq := [⟨.key, 5#4, true, 0#16⟩] } = false ∧ irq { st with irqEn := 3#2 } = false := by
  decide +kernel
theorem test_rdEvent_words :
    (after .rdEvent { st with evq := [⟨.detent, 0#4, true, 0x12#16⟩] }).answer = .rdata 0x80400012#32 ∧
    (after .rdEvent { st with evq := [⟨.key, 5#4, true, 0x100#16⟩] }).answer = .rdata 0x80650100#32 ∧
    (after .rdEvent { st with evq := [⟨.encButton, 1#4, true, 0#16⟩] }).answer = .rdata 0x80510000#32 ∧
    (after .rdEvent { st with evq := [⟨.detent, 0#4, false, 0#16⟩] }).answer = .rdata 0x80000000#32 := by decide +kernel
theorem test_rdEvent_pops :
    (after .rdEvent { st with evq := [⟨.key, 5#4, true, 1#16⟩, ⟨.key, 6#4, true, 2#16⟩] }).evq = [⟨.key, 6#4, true, 2#16⟩] ∧
    (after .rdEvent st).answer = .rdata 0#32 := by decide +kernel
theorem test_wrRo : (after (.wrRoEvent 5#32) { st with evq := [⟨.key, 5#4, true, 1#16⟩] }).evq = [⟨.key, 5#4, true, 1#16⟩] ∧
    (after (.wrRoTick 5#32) { st with tick := 7#32 }).tick = 7#32 ∧ (after (.wrRoVoiceState 5#32) st).voices = st.voices := by
  decide +kernel
theorem test_wrAttack : (after (.wrAttack 0#32) st).regs.attack = 1#8 ∧ (after (.wrAttack 0xFFFFFFFF#32) st).regs.attack = 200#8 := by
  decide +kernel
theorem test_wrDecay : (after (.wrDecay 0#32) st).regs.decay = 1#8 ∧ (after (.wrDecay 57#32) st).regs.decay = 57#8 := by decide +kernel
theorem test_wrSustain : (after (.wrSustain 1000#32) st).regs.sustain = 100#8 ∧ (after (.wrSustain 0#32) st).regs.sustain = 0#8 := by
  decide +kernel
theorem test_wrRelease : (after (.wrRelease 200#32) st).regs.release = 200#8 ∧ (after (.wrRelease 201#32) st).regs.release = 200#8 := by
  decide +kernel
theorem test_wrCutoff : (after (.wrCutoff 0x80000000#32) { st with filt := { st.filt with dirty := false } }).regs.cutoff = 100#8 ∧
    (after (.wrCutoff 100#32) { st with filt := { st.filt with dirty := false } }).filt.dirty = true := by decide +kernel
theorem test_wrResonance : (after (.wrResonance 101#32) { st with filt := { st.filt with dirty := false } }).regs.resonance = 100#8 ∧
    (after (.wrResonance 0#32) { st with filt := { st.filt with dirty := false } }).filt.dirty = true := by decide +kernel
theorem test_wrVolume : (after (.wrVolume 0x100#32) st).regs.volume = 100#8 ∧
    (after (.wrVolume 1#32) { st with filt := { st.filt with dirty := false } }).filt.dirty = false := by decide +kernel
theorem test_wrWave : (after (.wrWave 9#32) st).regs.wave = 3#2 ∧ (after (.wrWave 0xFFFFFFFC#32) st).regs.wave = 3#2 := by decide +kernel
theorem test_wrNote : (after (.wrNote 9#32) st).regs.note = 6#3 ∧ (after (.wrNote 8#32) st).regs.note = 6#3 := by decide +kernel
theorem test_wrOctave : (after (.wrOctave 0x80000000#32) st).regs.octave = -4 ∧ (after (.wrOctave 5#32) st).regs.octave = 4 ∧
    (after (.wrOctave 0xFFFFFFFE#32) st).regs.octave = -2 := by decide +kernel
theorem test_rd_params :
    (after .rdAttack st).answer = .rdata 10#32 ∧ (after .rdDecay st).answer = .rdata 10#32 ∧
    (after .rdSustain st).answer = .rdata 70#32 ∧ (after .rdRelease st).answer = .rdata 20#32 ∧
    (after .rdCutoff st).answer = .rdata 100#32 ∧ (after .rdResonance st).answer = .rdata 0#32 ∧
    (after .rdVolume st).answer = .rdata 50#32 ∧ (after .rdWave st).answer = .rdata 0#32 ∧ (after .rdNote st).answer = .rdata 0#32 := by
  decide +kernel
theorem test_rdOctave : (after .rdOctave { st with regs := { st.regs with octave := -4 } }).answer = .rdata 0xFFFFFFFC#32 := by
  decide +kernel
theorem test_rdVoiceState :
    (after .rdVoiceState (withVoices (voice .sustain 0#32 0#32 0#32 1) (voice .attack 0#32 0#32 1#32 2) (voice .idle 0#32 0#32 0#32 0))).answer =
      .rdata 0xB#32 ∧
    (after .rdVoiceState (withVoices (voice .attack 0#32 0#32 1#32 1) (voice .attack 0#32 0#32 1#32 2) (voice .attack 0#32 0#32 1#32 3))).answer =
      .rdata 0x49#32 := by decide +kernel
theorem test_tick : (after .tick st).tick = 1#32 ∧ (after .tick { st with tick := 0xFFFFFFFF#32 }).tick = 0#32 ∧
    (after .rdTick { st with tick := 3#32 }).answer = .rdata 3#32 := by decide +kernel
theorem test_wrKeymap :
    (after (.wrKeymap 3#4 0xC5#32) st).keymap[3]? = some 0x00#8 ∧ (after (.wrKeymap 7#4 0x47#32) st).keymap[7]? = some 0x46#8 ∧
    (after (.wrKeymap 0#4 0x87#32) st).keymap[0]? = some 0x83#8 ∧ (after (.wrKeymap 0#4 0x05#32) st).keymap[0]? = some 0x00#8 ∧
    (after (.wrKeymap 15#4 0xFFFFFF4A#32) st).keymap[15]? = some 0x42#8 ∧ (after (.wrKeymap 0#4 0x3F#32) st).keymap[0]? = some 0x00#8 := by
  decide +kernel
theorem test_rdKeymap : (after (.rdKeymap 9#4) st).answer = .rdata 0x81#32 ∧ (after (.rdKeymap 7#4) st).answer = .rdata 0#32 := by
  decide +kernel
theorem test_rsvd : (after (.rdRsvd 0x80#8) st).answer = .rdata 0#32 ∧ (after (.wrRsvd 0x80#8 5#32) st).answer = .written := by
  decide +kernel
theorem test_bus_errors :
    (after (.busErrSize8 0#1 0x0C#8 0#32) { st with evq := [⟨.key, 5#4, true, 1#16⟩] }).evq = [⟨.key, 5#4, true, 1#16⟩] ∧
    (after (.busErrSize16 1#1 0x00#8 1#32) st).cmdq = [] ∧ (after (.busErrSizeRsvd 1#1 0x00#8 1#32) st).faults.busError = true ∧
    (after (.busErrAlignB0 1#1 0x01#8 1#32) st).sticky = 0#5 ∧ (after (.busErrAlignB1 0#1 0x02#8 1#32) st).answer = .busError 0#32 := by
  decide +kernel

/-! ### Input (spec/95 §2.6, §2.7) -/

theorem test_capture : (after (.capture 0x00010002#32) { st with tick := 0x12#32 }).rawq = [0x0000001200010002#64] := by decide +kernel
theorem test_capture_overflow : (after (.capture 0#32) { st with rawq := List.replicate 32 0#64 }).sticky = 8#5 ∧
    (after (.capture 0#32) { st with rawq := List.replicate 32 0#64 }).rawq.length = 32 := by decide +kernel
theorem test_decode_pops : (after .decode { st with rawq := [0x0000000000000002#64, 5#64] }).rawq = [5#64] ∧
    (after .decode { st with rawq := [0x0000000000000002#64, 5#64] }).encs.map Encoder.acc = [1#8, 0#8] := by decide +kernel
theorem test_decode_discards : (after .decode { st with rawq := [0x0000000000100002#64] }).encs = st.encs ∧
    (after (.rawRsvd 0#32 2#30) st).encs = st.encs := by decide +kernel
theorem test_encAb_up : (after (.encAb 0#32 0#4 0#2) (enc 1#2 3#8)).evq = [⟨.detent, 0#4, true, 0#16⟩] ∧
    (after (.encAb 0#32 0#4 0#2) (enc 1#2 3#8)).encs.map Encoder.acc = [0#8, 0#8] := by decide +kernel
theorem test_encAb_down : (after (.encAb 0x10012#32 0#4 0#2) (enc 2#2 0xFD#8)).evq = [⟨.detent, 0#4, false, 0x12#16⟩] ∧
    (after (.encAb 0#32 0#4 3#2) (enc 0#2 2#8)).encs.map Encoder.acc = [2#8, 0#8] := by decide +kernel
theorem test_detentCheck : (after (.detentCheck 0#4 7#32) (enc 0#2 4#8)).evq = [⟨.detent, 0#4, true, 7#16⟩] ∧
    (after (.detentCheck 0#4 7#32) (enc 0#2 3#8)).evq = [] := by decide +kernel
theorem test_encBtn_accepts :
    (after (.encBtn 0#32 0#4 1#1) st).evq = [⟨.encButton, 0#4, true, 0#16⟩] ∧
    (after (.encBtn 0#32 0#4 1#1) st).encs.map Encoder.btick = [0#32, 0xFFFFFFEC#32] := by decide +kernel
theorem test_encBtn_drops : (after (.encBtn 19#32 0#4 0#1) (after (.encBtn 0#32 0#4 1#1) st)).evq.length = 1 ∧
    (after (.encBtn 20#32 0#4 0#1) (after (.encBtn 0#32 0#4 1#1) st)).evq.length = 2 := by decide +kernel
theorem test_keyScan_press :
    (after (.keyScan 0#32 1#16) (key 0 3 false)).evq = [⟨.key, 0#4, true, 0#16⟩] ∧
    (after (.keyScan 0#32 1#16) (key 0 3 false)).cmdq = [⟨.noteOn, 0#4, 0#3⟩] := by decide +kernel
theorem test_keyScan_release :
    (after (.keyScan 0x17#32 0x200#16) { key 5 1 true with keys := (key 5 1 true).keys.set 9 ⟨3, false⟩ }).evq =
      [⟨.key, 5#4, false, 0x17#16⟩, ⟨.key, 9#4, true, 0x17#16⟩] ∧
    (after (.keyScan 0x17#32 0x200#16) { key 5 1 true with keys := (key 5 1 true).keys.set 9 ⟨3, false⟩ }).regs.wave = 1#2 := by
  decide +kernel
theorem test_keyAction : (after (.keyAction 5#4 true) st).regs.note = 5#3 ∧ (after (.keyAction 9#4 true) st).regs.wave = 1#2 ∧
    (after (.keyAction 5#4 false) st).cmdq = [⟨.noteOff, 5#4, 0#3⟩] ∧ (after (.keyAction 12#4 true) st).cmdq = [] := by decide +kernel

/-! ### The renderer (spec/95 §2.4, §2.5, §3) -/

theorem test_dmaHt : (after .dmaHt st).seq.notify0 = true ∧ (after .dmaHt st).sticky = 0#5 ∧
    (after .dmaHt (after .dmaHt st)).sticky = 0x10#5 ∧ (after .dmaHt (after .dmaHt st)).faults.deadlineMiss = true := by decide +kernel
theorem test_dmaTc : (after .dmaTc (busy 2#16)).sticky = 0x10#5 ∧ (after .dmaTc st).sticky = 0#5 ∧
    (after .dmaHt (after .dmaTc st)).faults.deadlineMiss = true := by decide +kernel
theorem test_passStart : (after .passStart (after .dmaHt st)).seq = ⟨true, 0#1, 0#16, 0#1, false, false⟩ ∧
    (after .passStart (after .dmaHt st)).filt.b0 = 0x3E95F3B3#32 ∧ (after .passStart (after .dmaHt st)).filt.dirty = false := by
  decide +kernel
theorem test_passStart_waits : (after .passStart (after .dmaTc st)).seq.busy = false := by decide +kernel
theorem test_filtUpdate :
    (after .filtUpdate { st with regs := { st.regs with cutoff := 50#8 } }).filt =
      ⟨0x3DC7F039#32, 0x3E47F039#32, 0x3DC7F039#32, 0xBF7158D3#32, 0x3EAAA1DE#32, 0#32, 0#32, 0#32, 0#32, false⟩ := by decide +kernel
theorem test_filtProcess : (after (.filtProcess 0x3F800000#32) p1).answer = .sample 0x3E95F3B3#32 ∧
    (after (.filtProcess 0#32) (after (.filtProcess 0x3F800000#32) p1)).answer = .sample 0x3F15F3B3#32 := by decide +kernel
theorem test_frame_p1 : (after .frame p1).filt.x1 = 0xC67FFE00#32 ∧ (after .frame p1).filt.y1 = 0xC595F287#32 ∧
    (after .frame p1).voices.map Voice.level = [0x3F000000#32, 0#32, 0#32] ∧
    (renderMix (applyCommands p1)).2 = 0xED42#16 := by decide +kernel
theorem test_frame_sequence : (after .frame (busy 3#16)).seq = ⟨false, 0#1, 0#16, 1#1, false, false⟩ ∧
    frameIndex (busy 3#16) = 3 := by decide +kernel

/-- Frame 3's bytes, whatever the buffer held (R101, R368), and the canonical form where the power-up byte comes back. -/
theorem test_pcm_bytes (m : List Host.Cell) :
    memLookup 12 (pcmAfterFrame 3 0xED42#16 m) = 0x42#8 ∧ memLookup 13 (pcmAfterFrame 3 0xED42#16 m) = 0xED#8 ∧
    memLookup 14 (pcmAfterFrame 3 0xED42#16 m) = 0x42#8 ∧ memLookup 15 (pcmAfterFrame 3 0xED42#16 m) = 0xED#8 ∧
    memLookup 11 (pcmAfterFrame 3 0xED42#16 m) = memLookup 11 m ∧ memLookup 16 (pcmAfterFrame 3 0xED42#16 m) = memLookup 16 m := by
  simp [pcmAfterFrame_lookup]

theorem test_pcm_canonical (y : Byte) : memStore 5 (Config.pcmPowerUp 5) [(3, 1#8), (5, y), (9, 2#8)] = [(3, 1#8), (9, 2#8)] := by
  simp [memStore, memErase]

/-- binary32 arithmetic (R10): two ties to even, an overflow, a subnormal quotient, and a sum that 2^24 + 1 rounds. -/
theorem test_binary32 :
    fadd 0x4B800000#32 0x3F800000#32 = 0x4B800000#32 ∧ fadd 0x4B800001#32 0x3F800000#32 = 0x4B800002#32 ∧
    fadd 0x7F7FFFFF#32 0x7F7FFFFF#32 = 0x7F800000#32 ∧ fdiv 0x00000003#32 0x40000000#32 = 0x00000002#32 ∧
    fofNat 16777217 = 0x4B800000#32 ∧ fofInt (-16777219) = 0xCB800002#32 := by decide +kernel

theorem test_clip16 : clip16 0xBF666666#32 = 0 ∧ clip16 0xC7000080#32 = -32768 ∧ clip16 0x7FC00000#32 = 0 ∧
    clip16 0xC694C736#32 = -19043 ∧ clip16 0x7F800000#32 = 32767 := by decide +kernel

/-! ### Envelopes (spec/95 §1.2, §2.1) -/

theorem test_envAttack : ((after (.envAttack 0#3) (withVoices
      { voice .attack 0x3F7D7099#32 0x3C23D70A#32 1#32 1 with dec := 100#32 } (voice .idle 0#32 0#32 0#32 0)
      (voice .idle 0#32 0#32 0#32 0))).voices.map (fun x => (x.env, x.level, x.step, x.left))).head? =
    some (.decay, 0x3F800000#32, 0x3BA3D70A#32, 100#32) := by decide +kernel
theorem test_envDecay : ((after (.envDecay 0#3) (withVoices (voice .decay 0x3F800000#32 0x3BA3D70A#32 100#32 1)
      (voice .idle 0#32 0#32 0#32 0) (voice .idle 0#32 0#32 0#32 0))).voices.map (fun x => (x.env, x.level, x.left))).head? =
    some (.decay, 0x3F7EB852#32, 99#32) := by decide +kernel
theorem test_envRelease : ((after (.envRelease 0#3) (withVoices (voice .release 0x3B23DDDA#32 0x3B23D70A#32 1#32 1)
      (voice .idle 0#32 0#32 0#32 0) (voice .idle 0#32 0#32 0#32 0))).voices.map (fun x => (x.env, x.level, x.step, x.left))).head? =
    some (.idle, 0#32, 0#32, 0#32) := by decide +kernel
theorem test_envIdle_envSustain :
    (after (.envIdle 0#3) (withVoices (voice .idle 5#32 0#32 0#32 0) (voice .idle 0#32 0#32 0#32 0) (voice .idle 0#32 0#32 0#32 0))).voices.map
      Voice.level = [0#32, 0#32, 0#32] ∧
    (after (.envSustain 1#3) gens291).voices = gens291.voices := by decide +kernel

/-! ### Oscillators (spec/95 §2.2) -/

theorem test_oscTune : (after (.oscTune 0#3 5#3) st).voices.map (fun x => (x.freq, x.tw)) =
      [(0x43DC0000#32, 42852281#32), (0#32, 0#32), (0#32, 0#32)] ∧
    (after (.oscTune 0#3 6#3) { st with regs := { st.regs with octave := -4 } }).voices.map Voice.tw = [3006254#32, 0#32, 0#32] := by
  decide +kernel
theorem test_oscTune_clamps :
    (after (.oscTune 0#3 6#3) { st with cfg := { cfg with fs := 8000 }, regs := { st.regs with octave := 4 } }).voices.map
      (fun x => (x.freq, x.tw)) = [(0x457A0000#32, 0x80000000#32), (0#32, 0#32), (0#32, 0#32)] := by decide +kernel
theorem test_oscAdvance : (after (.oscAdvance 1#3) { st with voices := st.voices.map (fun x =>
      { x with tw := 42852281#32, phase := 0xFF6B6444#32 }) }).voices.map Voice.phase = [0xFF6B6444#32, 0x01F943FD#32, 0xFF6B6444#32] := by
  decide +kernel
theorem test_wavetable_sine_saw :
    [0, 1, 63, 64, 127, 128, 129, 191, 192, 255].map (wavetable cfg 0#2) = [0, 804, 32757, 32767, 804, 0, -804, -32757, -32767, -804] ∧
    [0, 1, 63, 64, 127, 128, 129, 191, 192, 255].map (wavetable cfg 1#2) =
      [-32767, -32512, -16640, -16384, -256, 0, 255, 16127, 16383, 32511] := by decide +kernel
theorem test_oscLookup :
    (after (.oscLookup 0#3) { st with voices := st.voices.map (fun x => { x with phase := 0x028DDFB9#32 }), regs := { st.regs with wave := 1#2 } }).answer =
      .raw (-32256) ∧
    [0, 1, 63, 64, 127, 128, 129, 191, 192, 255].map (wavetable cfg 3#2) =
      [-32767, -32256, -512, 0, 32255, 32767, 32256, 512, 0, -32255] := by decide +kernel
theorem test_sine_formula : (List.range 32).map (fun i => sineSample 256 (8 * i + 1)) = (List.range 32).map (fun i => Config.sineTable.getD (8 * i + 1) 0) := by
  decide +kernel

/-! ### The allocator (spec/95 §2.3 and the examples of R283, R291, R292) -/

theorem test_noteOn : (after (.noteOn 0#4 5#3) (State.launch Config.reference 0#32)).voices.head? =
    some ⟨.attack, 0#32, 0x396DC5B8#32, 4410#32, 4410#32, 4410#32, 0x3F333333#32, 8820#32, 0x43DC0000#32, 42852281#32, 0#32, 1⟩ := by
  decide +kernel
theorem test_noteOn_rebases : (after (.noteOn 4#4 0#3) gens291).voices.map Voice.gen = [7, 4, 5] ∧
    (after (.noteOn 4#4 0#3) gens291).keyGen.take 5 = [1, 4, 5, 0, 7] ∧ (after (.noteOn 4#4 0#3) gens291).nextGen = 8 := by
  decide +kernel
theorem test_noteOff : (after (.noteOff 0#4) { gens291 with voices := gens291.voices.map (fun x => { x with rel := 200#32 }) }).voices.map
      (fun x => (x.env, x.step, x.left)) =
    [(.release, 0x3B23D70A#32, 200#32), (.attack, 0x3E800000#32, 4#32), (.release, 0x3E000000#32, 4#32)] := by decide +kernel
theorem test_noteOff_noop : (after (.noteOff 3#4) gens291).voices = gens291.voices ∧ (after (.noteOff 2#4) gens292).voices = gens292.voices := by
  decide +kernel
theorem test_voiceSelect : (after .voiceSelect gens291).answer = .voice 0 ∧ (after .voiceSelect gens292).answer = .voice 2 := by
  decide +kernel
theorem test_genRebase : (after .genRebase gens291).voices.map Voice.gen = [1, 4, 5] ∧ (after .genRebase gens291).nextGen = 7 ∧
    (after .genRebase gens292).voices.map Voice.gen = [1, 2, 0] ∧ (after .genRebase gens292).keyGen.take 6 = [1, 2, 0, 0, 0, 0] ∧
    (after .genRebase gens292).nextGen = 3 := by decide +kernel

/-! ### Reset -/

theorem test_reset : (after (.reset 0b0110#32) { p1 with faults := ⟨true, false⟩, pcm := [(3, 9#8)] }).seq.busy = false ∧
    (after (.reset 0b0110#32) p1).encs.map Encoder.prev = [2#2, 1#2] ∧
    (after (.reset 0b0110#32) { p1 with faults := ⟨true, false⟩, pcm := [(3, 9#8)] }).pcm = [(3, 9#8)] ∧
    (after (.reset 0b0110#32) { p1 with faults := ⟨true, false⟩, pcm := [(3, 9#8)] }).faults = ⟨true, false⟩ := by decide +kernel

/-! ### Witnesses: for every statement with hypotheses, states and operands that meet them, at the bounds of its clauses -/

theorem test_st_legal : st.cfg.legal = true := by decide +kernel

theorem test_witness_DecodeOfEncode :
    (Instr.wrKeymap 15#4 0xFFFFFFFF#32).wf = true ∧ encode (.wrKeymap 15#4 0xFFFFFFFF#32) = some (.bus 0x67CFFFFFFFF#43) ∧
    (Instr.busErrAlignB1 0#1 0x02#8 7#32).wf = true ∧ encode (.busErrAlignB1 0#1 0x02#8 7#32) = some (.bus 0x20200000007#43) := by
  decide

theorem test_witness_EncodeOfDecodeBus :
    encode (decodeBus (busWord 0#1 2#2 0x04#8 9#32)) = some (.bus (busWord 0#1 2#2 0x04#8 0#32)) ∧
    encode (decodeBus (busWord 1#1 2#2 0x04#8 9#32)) = some (.bus (busWord 1#1 2#2 0x04#8 9#32)) ∧
    encode (decodeBus (busWord 0#1 3#2 0x04#8 9#32)) = some (.bus (busWord 0#1 3#2 0x04#8 9#32)) := by decide

theorem test_witness_NoWordSelectsMicro : decode (.step 0xA#4 0#64) = .ok .frame ∧ decode (.cmd 1#32) = .ok (.noteOn 0#4 0#3) := by
  decide

theorem test_witness_StepRunsDecoded :
    st.cfg.legal = true ∧ st.eager = false ∧ st.lines = [] ∧ decode (.step 0x4#4 0#64) = .ok .tick ∧
    decode (.raw 0x3FF00000#64) = .error .rawNoRow ∧
    (∀ n ∈ [6, 7, 11, 15], decode (.step (BitVec.ofNat 4 n) 0#64) = .error (.reservedLabel (BitVec.ofNat 4 n))) ∧
    (∀ n ∈ [0, 5, 8, 10], ∃ i ∈ [Instr.host 0#43, .reset 0#32, .decode, .frame], decode (.step (BitVec.ofNat 4 n) 0#64) = .ok i) ∧
    decodeTableWord 8 0xA = some .frame := by decide +kernel

/-- One state for each clause. -/
theorem test_witness_EagerSchedule :
    ({ st with eager := true, rawq := [0#64] }).rawq ≠ [] ∧
    (notify 0#1 { st.seq with notify0 := true } = true ∧ st.seq.busy = false ∧ st.seq.nextHalf = 0#1 ∧ st.rawq = []) ∧
    ((busy 0#16).rawq = [] ∧ (busy 0#16).seq.busy = true) ∧
    (notify st.seq.nextHalf st.seq = false ∧ decode (.step 0x4#4 0#64) = .ok .tick) := by decide +kernel

theorem test_witness_RegisterMap : 0x80 ≤ (0x80#8).toNat ∧ (0x80#8).toNat % 4 = 0 ∧ 0x80 ≤ (0xFC#8).toNat ∧ (0xFC#8).toNat % 4 = 0 := by
  decide

theorem test_witness_ReadEvent : st.evq = [] ∧
    ({ st with evq := [⟨.detent, 1#4, true, 0xFFFF#16⟩, ⟨.key, 15#4, false, 0#16⟩] }).evq =
      ⟨.detent, 1#4, true, 0xFFFF#16⟩ :: [⟨.key, 15#4, false, 0#16⟩] := by decide +kernel

theorem test_witness_ReadParameter : -2 ^ 31 ≤ st.regs.octave ∧ st.regs.octave < 2 ^ 31 ∧ gens291.voices.length ≤ 8 ∧
    (∃ x, gens291.voices[0]? = some x) ∧ ({ st with voices := List.replicate 8 Voice.reset }).voices.length ≤ 8 := by
  refine ⟨?_, ?_, ?_, ⟨_, rfl⟩, ?_⟩ <;> decide +kernel

theorem test_witness_KeymapAccess :
    (0x7F#32).extractLsb' 6 2 = 1#2 ∧ (0x87#32).extractLsb' 6 2 = 2#2 ∧ (0x07#32).extractLsb' 6 2 = 0#2 ∧
    (0xC7#32).extractLsb' 6 2 = 3#2 ∧ st.keymap[(15#4).toNat]? = some 0#8 := by decide +kernel

theorem test_witness_BusErrors : (0#2 ≠ 0b10#2) ∧ ((0x01#8).extractLsb' 0 2 ≠ 0#2) ∧ ((0x02#8).extractLsb' 0 2 ≠ 0#2) := by decide

/-- Every OP, and CMDQ at its last free place and full. -/
theorem test_witness_WriteCmd :
    (0x701#32).extractLsb' 0 4 = 1#4 ∧ (0x601#32).extractLsb' 0 4 = 1#4 ∧ (0xFF2#32).extractLsb' 0 4 = 2#4 ∧ (0x3#32).extractLsb' 0 4 ≠ 1#4 ∧
    (0x3#32).extractLsb' 0 4 ≠ 2#4 ∧ (List.replicate 7 (⟨.noteOff, 0#4, 0#3⟩ : Cmd)).length < st.cfg.cmdqDepth ∧
    st.cfg.cmdqDepth ≤ (List.replicate 8 (⟨.noteOff, 0#4, 0#3⟩ : Cmd)).length := by decide +kernel

theorem test_witness_ReservedCommands : ∀ w ∈ [0x0#32, 0x3#32, 0x4#32, 0x7#32, 0x8#32, 0xF#32],
    w.extractLsb' 0 4 ≠ 1#4 ∧ w.extractLsb' 0 4 ≠ 2#4 := by simp

theorem test_witness_CaptureRecord :
    ({ st with rawq := List.replicate 31 0#64 }).rawq.length < st.cfg.rawqDepth ∧
    st.cfg.rawqDepth ≤ ({ st with rawq := List.replicate 32 0#64 }).rawq.length := by decide +kernel

theorem test_witness_DecodeRunsRecord :
    ({ st with rawq := [0xC0000000#64] }).rawq = 0xC0000000#64 :: [] ∧ (0xC0000000#64).extractLsb' 30 2 = 3#2 ∧
    (0x00100000#64).extractLsb' 20 10 ≠ 0#10 ∧ (0x20000000#64).extractLsb' 20 10 ≠ 0#10 ∧
    (∀ r ∈ [0x000F0003#64, 0x400F0001#64, 0x8000FFFF#64], r.extractLsb' 20 10 = 0#10) ∧ (0x000F0003#64).extractLsb' 30 2 = 0#2 ∧
    (0x400F0001#64).extractLsb' 30 2 = 1#2 ∧ (0x8000FFFF#64).extractLsb' 30 2 = 2#2 := by
  simp

/-- An encoder one sub-step below either threshold, and sums at and below them; and an encoder that is not there. -/
theorem test_witness_EncoderSample :
    st.encs.length ≤ (2#4).toNat ∧ (enc 1#2 3#8).encs[(0#4).toNat]? = some ⟨1#2, 3#8, false, 0xFFFFFFEC#32⟩ ∧
    (-(st.cfg.detentSubsteps : Int) < (3#8).toInt ∧ (3#8).toInt < st.cfg.detentSubsteps) ∧
    (st.cfg.detentSubsteps : Int) ≤ (3#8).toInt + qtab 1#2 0#2 ∧
    (enc 2#2 0xFD#8).encs[(0#4).toNat]? = some ⟨2#2, 0xFD#8, false, 0xFFFFFFEC#32⟩ ∧
    (-(st.cfg.detentSubsteps : Int) < (0xFD#8).toInt ∧ (0xFD#8).toInt < st.cfg.detentSubsteps) ∧
    (0xFD#8).toInt + qtab 2#2 0#2 ≤ -(st.cfg.detentSubsteps : Int) ∧
    (-(st.cfg.detentSubsteps : Int) < (3#8).toInt + qtab 1#2 2#2 ∧ (3#8).toInt + qtab 1#2 2#2 < st.cfg.detentSubsteps) ∧
    st.evq.length < st.cfg.evqDepth := by decide +kernel

theorem test_witness_DetentCheck :
    st.encs.length ≤ (2#4).toNat ∧ (enc 1#2 4#8).encs[(0#4).toNat]? = some ⟨1#2, 4#8, false, 0xFFFFFFEC#32⟩ ∧
    (st.cfg.detentSubsteps : Int) ≤ (4#8).toInt ∧ (0xFC#8).toInt ≤ -(st.cfg.detentSubsteps : Int) ∧
    -(st.cfg.detentSubsteps : Int) < (0xFD#8).toInt ∧ (3#8).toInt < st.cfg.detentSubsteps := by decide +kernel

theorem test_witness_CleanCycle : (enc 0#2 0#8).cfg.detentSubsteps = 4 ∧
    (enc 0#2 0#8).encs[(0#4).toNat]? = some ⟨0#2, 0#8, false, 0xFFFFFFEC#32⟩ ∧ (enc 0#2 0#8).evq.length < (enc 0#2 0#8).cfg.evqDepth := by
  decide +kernel

/-- A change 20 ticks after the last one, by stamps that wrap, a change after 19, and no change. -/
theorem test_witness_EncoderButton :
    st.encs.length ≤ (2#4).toNat ∧ st.encs[(0#4).toNat]?.map (fun x => (x.blvl, x.btick)) = some (false, 0xFFFFFFEC#32) ∧
    decide ((1#1 : BitVec 1) = 1#1) ≠ false ∧ decide ((0#1 : BitVec 1) = 1#1) = false ∧
    st.cfg.btnDebounceTicks ≤ (((0#32).toNat : Int) - (0xFFFFFFEC#32).toNat) % 2 ^ 32 ∧
    (((0xFFFFFFFF#32).toNat : Int) - (0xFFFFFFEC#32).toNat) % 2 ^ 32 < st.cfg.btnDebounceTicks := by decide +kernel

theorem test_witness_ScanIntegrates :
    (key 15 4 true).keys[15]? = some ⟨4, true⟩ ∧ (0x8000#16).getLsbD 15 = true ∧ (0x7FFF#16).getLsbD 15 = false ∧
    (key 15 3 false).keys[15]? = some ⟨3, false⟩ ∧ 3 < st.cfg.debounceMax ∧ (key 0 1 true).keys[0]? = some ⟨1, true⟩ := by decide +kernel

theorem test_witness_ScanReportsEdges : (key 0 3 false).cfg.legal = true ∧ exec (.keyScan 0#32 1#16) (key 0 3 false) =
      .next (after (.keyScan 0#32 1#16) (key 0 3 false)) ∧
    ({ key 0 3 false with cfg := { cfg with evqDepth := 16 } }).evq.length + 16 ≤ 16 :=
  ⟨by decide +kernel, exec_after (by decide +kernel), by decide +kernel⟩

theorem test_witness_DebounceExact :
    st.keys[15]? = some ⟨0, false⟩ ∧ (∀ p ∈ [(0#32, 0xFFFF#16), (1#32, 0x8000#16)], p.2.getLsbD 15 = true) ∧
    (key 15 4 true).keys[15]? = some ⟨st.cfg.debounceMax, true⟩ ∧ (∀ p ∈ [(0#32, 0x7FFF#16)], p.2.getLsbD 15 = false) :=
  ⟨by decide +kernel, by simp, by decide +kernel, by simp⟩

theorem test_witness_KeyActions :
    st.keymap[(6#4).toNat]? = some 0x46#8 ∧ (0x46#8).extractLsb' 6 2 = 1#2 ∧ st.keymap[(11#4).toNat]? = some 0x83#8 ∧
    (0x83#8).extractLsb' 6 2 = 2#2 ∧ st.keymap[(7#4).toNat]? = some 0#8 ∧ (0#8).extractLsb' 6 2 = 0#2 := by decide +kernel

/-- Each of the three miss conditions alone, and none. -/
theorem test_witness_DmaNotify :
    notify 0#1 { st.seq with notify0 := true } = true ∧ notify 1#1 { st.seq with notify1 := true } = true ∧
    ((busy 0#16).seq.busy = true ∧ (busy 0#16).seq.cur = ~~~1#1) ∧
    ¬ (notify 0#1 st.seq = true ∨ notify 1#1 st.seq = true ∨ st.seq.busy = true) := by decide +kernel

/-- A ROM that has one row, for the setting 7, 0. -/
def rom : Params := { cfg with coefRom := [⟨7, 0, ⟨1#32, 2#32, 3#32, 4#32, 5#32⟩⟩] }

/-- A setting without a row, at both ends of the range, and one with a row; the floor of 1 Hz acts at 0. -/
theorem test_witness_FiltUpdate : st.filt.dirty = true ∧ p1.filt.dirty = false ∧ cfg.legal = true ∧ rom.legal = true ∧
    filterFc cfg 0 = ⟨1, 1⟩ ∧ filterFc cfg 100 = ⟨4410000, 400⟩ ∧ filterQ cfg 0 = ⟨7070, 10000⟩ ∧
    (∀ r ∈ rom.coefRom, r.cutoff ≠ 0 ∨ r.resonance ≠ 0) ∧ (∀ r ∈ rom.coefRom, r.cutoff ≠ 100 ∨ r.resonance ≠ 100) ∧
    (∃ r ∈ rom.coefRom, r.cutoff = 7 ∧ r.resonance = 0) := by decide +kernel

theorem test_witness_PassStart : st.seq.busy = false ∧ notify st.seq.nextHalf { st.seq with notify0 := true } = true := by decide +kernel

theorem test_witness_WaitingAgents : st.rawq = [] ∧ (busy 0#16).seq.busy = true ∧ notify st.seq.nextHalf st.seq = false ∧
    st.seq.busy = false ∧ (∀ x ∈ gens291.voices, x.env ≠ .idle ∧ x.env ≠ .decay) ∧ (∀ x ∈ st.voices, x.env ≠ .attack) ∧
    (∃ x ∈ gens291.voices, x.env ≠ .sustain ∧ x.env ≠ .release) ∧ st.voices.length ≤ (3#3).toNat := by decide +kernel

/-- A FRAME in the middle of a half, the last one of it, and commands of both kinds. -/
theorem test_witness_FrameRenders :
    p1.cfg.legal = true ∧ SeqOk p1 ∧ SeqOk (busy 3#16) ∧
    (∀ r ∈ [(⟨.noteOn, 0#4, 6#3⟩ : Cmd), ⟨.noteOff, 0#4, 0#3⟩], CmdOk r) ∧ (∀ r ∈ p1.cmdq, CmdOk r) ∧ p1.seq.busy = true ∧
    p1.seq.j.toNat + 1 < p1.cfg.half ∧ (busy 3#16).seq.j.toNat + 1 = (busy 3#16).cfg.half ∧
    (∃ x, st.voices[(2#3).toNat]? = some x ∧ x.env = .idle) ∧ (∃ x, gens291.voices[(0#3).toNat]? = some x ∧ x.env = .sustain) :=
  ⟨by decide +kernel, ⟨by decide +kernel, by decide +kernel⟩, ⟨by decide +kernel, by decide +kernel⟩, by simp [CmdOk], by simp [p1, CmdOk],
    by decide +kernel, by decide +kernel, by decide +kernel, ⟨_, rfl, rfl⟩, ⟨_, rfl, rfl⟩⟩

theorem test_witness_FrameWritesSample :
    (busy 3#16).cfg.legal = true ∧ SeqOk (busy 3#16) ∧ (busy 3#16).seq.busy = true ∧
    exec .frame (busy 3#16) = .next (after .frame (busy 3#16)) ∧
    3 = (busy 3#16).seq.cur.toNat * (busy 3#16).cfg.half + (busy 3#16).seq.j.toNat :=
  ⟨by decide +kernel, ⟨by decide +kernel, by decide +kernel⟩, by decide +kernel, exec_after (by decide +kernel), by decide +kernel⟩

/-- 32767.0, the float below it, -32768.0, the float above it, and a NaN. -/
theorem test_witness_ClipRule :
    isNan 0x7FC00000#32 = true ∧ isNan 0x46FFFE00#32 = false ∧ 32767 * 2 ^ 149 ≤ fval 0x46FFFE00#32 ∧
    fval 0xC7000000#32 ≤ -(32768 * 2 ^ 149) ∧ isNan 0xC7000000#32 = false ∧
    (-(32768 * 2 ^ 149) < fval 0x46FFFDFF#32 ∧ fval 0x46FFFDFF#32 < 32767 * 2 ^ 149) ∧
    (-(32768 * 2 ^ 149) < fval 0xC6FFFFFF#32 ∧ fval 0xC6FFFFFF#32 < 32767 * 2 ^ 149) := by decide +kernel

theorem test_witness_EnvIdleSustain :
    (gens292.voices[(2#3).toNat]?.map Voice.env = some .idle) ∧ (gens291.voices[(0#3).toNat]?.map Voice.env = some .sustain) := by
  decide +kernel

/-- The last step of Attack by its count, one that reaches 1.0 early, and one that does neither. -/
theorem test_witness_EnvAttack :
    (voice .attack 0#32 0x3E800000#32 4#32 1).env = .attack ∧ (voice .attack 0#32 0x3E800000#32 4#32 1).left ≠ 0#32 ∧
    fle 0x3F800000#32 (fadd 0x3F400000#32 0x3E800000#32) = true ∧ fle 0x3F800000#32 (fadd 0#32 0x3E800000#32) = false ∧
    (voice .attack 0#32 0x3E800000#32 1#32 1).left = 1#32 ∧ (withVoices (voice .attack 0#32 0x3E800000#32 4#32 1) (voice .idle 0#32 0#32 0#32 0)
      (voice .idle 0#32 0#32 0#32 0)).voices[(0#3).toNat]? = some (voice .attack 0#32 0x3E800000#32 4#32 1) := by decide +kernel

theorem test_witness_EnvFalling :
    (withVoices (voice .decay 0x3F800000#32 0x3E800000#32 4#32 1) (voice .release 0x3E800000#32 0x3E800000#32 1#32 2)
      (voice .idle 0#32 0#32 0#32 0)).voices[(1#3).toNat]? = some (voice .release 0x3E800000#32 0x3E800000#32 1#32 2) ∧
    (voice .decay 0x3F800000#32 0x3E800000#32 4#32 1).env = .decay ∧
    fle (fsub 0x3F800000#32 0x3E800000#32) 0x3F000000#32 = false ∧ fle (fsub 0x3F400000#32 0x3E800000#32) 0x3F000000#32 = true ∧
    fle (fsub 0x3E800000#32 0x3E800000#32) 0#32 = true ∧ fle (fsub 0x3F800000#32 0x3E800000#32) 0#32 = false := by decide +kernel

theorem test_st_inv : st.Inv := inv_launch _ (by decide +kernel)

/-- A state with two sounding voices that meets the invariant, NEXT_GEN at GEN_MAX + 1. -/
def sounding : State :=
  { st with
    voices := [voice .attack 0x3F000000#32 0x3E800000#32 2#32 250, voice .release 0x3F000000#32 0x3E000000#32 4#32 254, Voice.reset]
    nextGen := 256
    keyGen := [250, 254, 200] ++ List.replicate 13 0 }

theorem test_sounding_inv : sounding.Inv :=
  { cfg := test_st_legal
    seq := ⟨test_st_inv.seq.inHalf, test_st_inv.seq.rest⟩
    queues := ⟨test_st_inv.queues.cmdq, test_st_inv.queues.evq, test_st_inv.queues.rawq, test_st_inv.queues.cmds⟩
    regs := by constructor <;> decide +kernel
    keymap := ⟨test_st_inv.keymap.count, test_st_inv.keymap.each⟩
    keys := ⟨test_st_inv.keys.count, test_st_inv.keys.each⟩
    encs := ⟨test_st_inv.encs.count, test_st_inv.encs.each⟩
    pcm := ⟨test_st_inv.pcm.form, test_st_inv.pcm.within⟩
    voices := ⟨rfl, by
      intro x hx
      have hx : x = voice .attack 0x3F000000#32 0x3E800000#32 2#32 250 ∨ x = voice .release 0x3F000000#32 0x3E000000#32 4#32 254 ∨
          x = Voice.reset := by simpa [sounding] using hx
      obtain rfl | rfl | rfl := hx
      · constructor <;> decide +kernel
      · constructor <;> decide +kernel
      · exact voiceReset_ok _⟩
    gens := by constructor <;> decide +kernel }

theorem test_witness_LevelBounds : VoicesOk sounding ∧ sounding.Inv := ⟨test_sounding_inv.voices, test_sounding_inv⟩

theorem test_witness_StageLength :
    (voice .attack 0#32 0x3E800000#32 1#32 1).left ≠ 0#32 ∧ (voice .attack 0#32 0x3E800000#32 1#32 1).env = .attack ∧
    (voice .decay 0#32 0x3E800000#32 4#32 1).env = .decay ∧ (voice .release 0#32 0#32 0xFFFFFFFF#32 1).env = .release := by decide +kernel

theorem test_witness_OscTune :
    (6#3).toNat ≤ 6 ∧ ({ st.regs with octave := 4 }).octave ≤ st.cfg.octaveMax ∧ st.cfg.octaveMin ≤ -4 ∧
    st.voices[(2#3).toNat]? = some Voice.reset ∧ st.cfg.octaveMin ≤ st.regs.octave ∧ st.regs.octave ≤ st.cfg.octaveMax ∧
    fpow2 (-8) = 0x3B800000#32 ∧ fpow2 8 = 0x43800000#32 ∧ (isFinite 0x00000000#32 = true ∧ isFinite 0x46AC4400#32 = true ∧
    fval 0x00000000#32 ≤ fval 0x46AC4400#32) ∧ fclamp 0x46AC4401#32 0x00000000#32 0x46AC4400#32 = 0x46AC4400#32 := by decide +kernel

/-- The first and the last index, and either side of the middle, of every wave. -/
theorem test_witness_OscLookup :
    (0xFFFFFFFF#32).toNat / 2 ^ (32 - st.cfg.tableLog2) = 255 ∧ (0x7FFFFFFF#32).toNat / 2 ^ (32 - st.cfg.tableLog2) = 127 ∧
    (0x80000000#32).toNat / 2 ^ (32 - st.cfg.tableLog2) = 128 ∧ (256 : Int) = 2 ^ st.cfg.tableLog2 ∧
    (∀ w ∈ [0#2, 1#2, 2#2, 3#2], ({ st.regs with wave := w }).wave = w) ∧ st.voices[(0#3).toNat]? = some Voice.reset := by decide +kernel

theorem test_witness_OscPeriod : (p1.voices[(0#3).toNat]?.isSome) ∧ (42852281#32) ≠ 0#32 := by decide +kernel

theorem test_witness_VoiceSelect : st.voices ≠ [] ∧ (∃ y ∈ gens292.voices, y.env = .idle) ∧ (∀ y ∈ gens291.voices, y.env ≠ .idle) := by
  decide +kernel

theorem test_witness_NoteOn : RegsOk sounding ∧ sounding.voices ≠ [] ∧ sounding.voices.length ≤ 8 ∧
    sounding.nextGen = sounding.cfg.genMax + 1 ∧ st.nextGen ≠ st.cfg.genMax + 1 ∧ (6#3).toNat ≤ 6 ∧ ¬ (7#3).toNat ≤ 6 :=
  ⟨test_sounding_inv.regs, by decide +kernel, by decide +kernel, by decide +kernel, by decide +kernel, by decide, by decide⟩

theorem test_witness_NoteOff : GensOk sounding ∧ sounding.keyGen[(0#4).toNat]? = some 250 ∧
    sounding.voices[0]?.map (fun x => (x.gen, x.env)) = some (250, .attack) ∧ sounding.keyGen[(15#4).toNat]? = some 0 ∧
    (sounding.keyGen[(2#4).toNat]? = some 200 ∧ ∀ x ∈ sounding.voices, x.gen ≠ 200) ∧
    gens292.keyGen[(2#4).toNat]? = some 254 ∧ gens292.voices[2]?.map (fun x => (x.gen, x.env)) = some (254, .idle) :=
  ⟨test_sounding_inv.gens, by decide +kernel, by decide +kernel, by decide +kernel, by decide +kernel, by decide +kernel, by decide +kernel⟩

/-- The common offset, the ranks, and no sounding voice. -/
theorem test_witness_GenRebase :
    ((gens291.voices.filter (fun x => decide (x.env ≠ .idle))).map Voice.gen).toFinset = (([250, 253, 254] : List Nat).toFinset) ∧
    ((gens292.voices.filter (fun x => decide (x.env ≠ .idle))).map Voice.gen).toFinset = (([1, 255] : List Nat).toFinset) ∧
    ((st.voices.filter (fun x => decide (x.env ≠ .idle))).map Voice.gen).toFinset = (∅ : Finset Nat) := by decide +kernel

theorem test_witness_RebaseKeepsOrder : sounding.Inv ∧ exec .genRebase sounding = .next (after .genRebase sounding) ∧
    sounding.nextGen = sounding.cfg.genMax + 1 ∧ (∃ x, sounding.voices[0]? = some x ∧ x.env ≠ .idle) ∧ sounding.keyGen[0]? = some 250 :=
  ⟨test_sounding_inv, exec_after (by decide +kernel), by decide +kernel, ⟨_, rfl, by decide +kernel⟩, by decide +kernel⟩

theorem test_witness_StealsOldest : st.voices ≠ [] ∧ (∀ x ∈ st.voices, x.env = .idle) ∧
    ({ st with nextGen := 252 }).nextGen + st.voices.length ≤ st.cfg.genMax ∧
    [(0#4, 0#3), (1#4, 1#3), (2#4, 6#3), (3#4, 7#3)].length = st.voices.length + 1 := by decide +kernel

/-- The first and the last frame of the buffer, and the first past it. -/
theorem test_witness_ResetInv : 0 < cfg.bufFrames ∧ 7 < cfg.bufFrames ∧ cfg.bufFrames ≤ 8 := by decide +kernel

theorem test_witness_ResetStep : st.cfg.btnDebounceTicks < 2 ^ 32 ∧ st.cfg.numEnc ≤ 16 := by decide +kernel

/-- A row of every agent that the statement speaks of, and a step, on a state that meets the invariant. -/
theorem test_witness_StepKeepsInv :
    st.Inv ∧ step (st.withFetchWord 8 0x4) = .next (stepped (st.withFetchWord 8 0x4)) ∧ exec .tick st = .next (after .tick st) :=
  ⟨test_st_inv, step_stepped (by decide +kernel), exec_after (by decide +kernel)⟩

theorem test_witness_SingleWriters :
    exec (.wrVolume 1#32) st = .next (after (.wrVolume 1#32) st) ∧ agentOf (.wrVolume 1#32) = .host ∧
    exec .decode st = .next (after .decode st) ∧ agentOf .decode = .decoder ∧ exec .frame st = .next (after .frame st) ∧
    agentOf .frame = .renderer ∧ agentOf (.capture 0#32) ≠ .reset := 
  ⟨exec_after (by decide +kernel), rfl, exec_after (by decide +kernel), rfl, exec_after (by decide +kernel), rfl, by decide⟩

theorem test_witness_FifoEnds :
    exec (.capture 0#32) st = .next (after (.capture 0#32) st) ∧ agentOf (.capture 0#32) ≠ .reset ∧
    exec (.wrCmd 1#32) st = .next (after (.wrCmd 1#32) st) ∧ agentOf (.wrCmd 1#32) = .host ∧
    exec .rdEvent st = .next (after .rdEvent st) := 
  ⟨exec_after (by decide +kernel), by decide, exec_after (by decide +kernel), rfl, exec_after (by decide +kernel)⟩

theorem test_witness_FaultsForGood :
    ({ st with faults := ⟨true, true⟩ }).faults.busError = true ∧ ({ st with faults := ⟨true, true⟩ }).faults.deadlineMiss = true ∧
    exec .dmaHt st = .next (after .dmaHt st) ∧ agentOf .dmaHt = .dma := ⟨rfl, rfl, exec_after (by decide +kernel), rfl⟩

/-- The greatest and the least finite values, a NaN, a zero divisor and one that is none, and both ends of the exact integers. -/
theorem test_witness_Binary32 :
    isFinite 0x7F7FFFFF#32 = true ∧ isFinite 0x80000001#32 = true ∧ isFinite 0x7F800000#32 = false ∧ isNan 0x7F800001#32 = true ∧
    isNan 0xFF800000#32 = false ∧ fval 0x80000000#32 = 0 ∧ fval 0x80000001#32 ≠ 0 ∧ (16777216 : ℤ).natAbs ≤ 2 ^ 24 ∧
    (-16777216 : ℤ).natAbs ≤ 2 ^ 24 ∧ fval 0x3F800000#32 = 2 ^ 149 := by decide +kernel

end Sys2Proof.Tests
end

/-! PROOF of O60, the arithmetic of R10. Every operation ends in one rounding of an exact fraction, which `isNearest_fpack` shows to be
RN; what is left is that the sign and the fraction each operation hands to it make up the exact result. -/

namespace Sys2Proof.Machine

/-! ### The fields of a bit pattern -/

/-- The exponent field. -/
theorem fcode_div (x : F32) : fcode x / 2 ^ 23 = (x.extractLsb' 23 8).toNat := by
  unfold fcode
  rw [BitVec.extractLsb'_toNat, Nat.shiftRight_eq_div_pow]
  omega

/-- The fraction field. -/
theorem fcode_mod (x : F32) : fcode x % 2 ^ 23 = (x.extractLsb' 0 23).toNat := by
  unfold fcode
  rw [BitVec.extractLsb'_toNat, Nat.shiftRight_zero]
  omega

theorem fval_eq_sign_mul (x : F32) : fval x = (if fneg? x then -1 else 1) * (funits x : ℤ) := by
  unfold fval
  split <;> simp

theorem funits_eq_fields (x : F32) : funits x =
    if x.extractLsb' 23 8 = 0#8 then (x.extractLsb' 0 23).toNat
    else ((x.extractLsb' 0 23).toNat + 2 ^ 23) * 2 ^ ((x.extractLsb' 23 8).toNat - 1) := by
  unfold funits
  simp only [fcode_div, fcode_mod, BitVec.toNat_eq, BitVec.toNat_ofNat, Nat.zero_mod]

/-- All ones in the exponent field mean infinity or a NaN. -/
theorem isFinite_iff_exponent (x : F32) : isFinite x = true ↔ x.extractLsb' 23 8 ≠ 0xFF#8 := by
  have he := fcode_div x
  have hlt := (x.extractLsb' 23 8).isLt
  unfold isFinite infCode
  rw [decide_eq_true_iff, ne_eq, BitVec.toNat_eq, BitVec.toNat_ofNat]
  omega

theorem isNan_iff_fields (x : F32) :
    isNan x = true ↔ x.extractLsb' 23 8 = 0xFF#8 ∧ x.extractLsb' 0 23 ≠ 0#23 := by
  have he := fcode_div x
  have hm := fcode_mod x
  have hlt := (x.extractLsb' 23 8).isLt
  unfold isNan infCode
  rw [decide_eq_true_iff, ne_eq, BitVec.toNat_eq, BitVec.toNat_eq, BitVec.toNat_ofNat, BitVec.toNat_ofNat]
  omega

/-! ### Finite operands -/

theorem isNan_of_isFinite {x : F32} (h : isFinite x = true) : isNan x = false :=
  decide_eq_false (Nat.not_lt_of_lt (of_decide_eq_true h))

theorem isInf_of_isFinite {x : F32} (h : isFinite x = true) : isInf x = false :=
  decide_eq_false (Nat.ne_of_lt (of_decide_eq_true h))

theorem isFinite_fnegate (x : F32) : isFinite (fnegate x) = isFinite x := by simp [isFinite, fcode_fnegate]

theorem fval_eq_zero_iff (x : F32) : fval x = 0 ↔ fcode x = 0 := by
  rw [← funits_eq_zero_iff]
  unfold fval
  split <;> omega

theorem fadd_of_isFinite {a b : F32} (ha : isFinite a = true) (hb : isFinite b = true) :
    fadd a b = if fval a + fval b = 0 then fpack (fneg? a && fneg? b) 0
      else fpack (decide (fval a + fval b < 0)) (rnCode (fval a + fval b).natAbs 1) := by
  simp [fadd, isNan_of_isFinite, isInf_of_isFinite, ha, hb]

theorem fsub_of_isFinite {a b : F32} (ha : isFinite a = true) (hb : isFinite b = true) : fsub a b = fadd a (fnegate b) := by
  simp [fsub, isNan_of_isFinite, ha, hb]

theorem fmul_of_isFinite {a b : F32} (ha : isFinite a = true) (hb : isFinite b = true) :
    fmul a b = fpack (fneg? a != fneg? b) (rnCode (funits a * funits b) (2 ^ 149)) := by
  simp [fmul, isNan_of_isFinite, isInf_of_isFinite, ha, hb]

theorem fdiv_of_isFinite {a b : F32} (ha : isFinite a = true) (hb : isFinite b = true) (h0 : fcode b ≠ 0) :
    fdiv a b = fpack (fneg? a != fneg? b) (rnCode (funits a * 2 ^ 149) (funits b)) := by
  simp [fdiv, isNan_of_isFinite, isInf_of_isFinite, ha, hb, h0]

/-! ### Each operation is RN of the exact result -/

/-- `isNearest_fpack` for a whole number of units, `s * k`, that comes with its own sign. -/
theorem isNearest_fpack_int (s : ℤ) (k : ℕ) :
    IsNearest (fpack (decide (s < 0)) (rnCode (s.natAbs * k) 1)) ((s : ℚ) * k) := by
  have h := isNearest_fpack (decide (s < 0)) (s.natAbs * k) Nat.one_pos
  have hs : (if decide (s < 0) then (-1 : ℚ) else 1) * s.natAbs = s := by
    simp only [decide_eq_true_eq, Nat.cast_natAbs]
    split_ifs with hn
    · rw [abs_of_neg hn, Int.cast_neg, neg_one_mul, neg_neg]
    · rw [abs_of_nonneg (not_lt.1 hn), one_mul]
  rwa [Nat.cast_mul, Nat.cast_one, div_one, ← mul_assoc, hs] at h

theorem isNearest_fadd {a b : F32} (ha : isFinite a = true) (hb : isFinite b = true) :
    IsNearest (fadd a b) ((fval a : ℚ) + fval b) := by
  rw [fadd_of_isFinite ha hb, ← Int.cast_add]
  split_ifs with hs
  · -- an exact zero sum: either zero is RN of 0
    have h := isNearest_fpack (fneg? a && fneg? b) 0 Nat.one_pos
    have hz : rnCode 0 1 = 0 := by decide
    rw [hz, Nat.cast_zero, zero_div, mul_zero] at h
    rwa [hs, Int.cast_zero]
  · simpa using isNearest_fpack_int (fval a + fval b) 1

theorem isNearest_fsub {a b : F32} (ha : isFinite a = true) (hb : isFinite b = true) :
    IsNearest (fsub a b) ((fval a : ℚ) - fval b) := by
  have h := isNearest_fadd ha ((isFinite_fnegate b).trans hb)
  rwa [fval_fnegate, Int.cast_neg, ← sub_eq_add_neg, ← fsub_of_isFinite ha hb] at h

/-- The sign of a product or a quotient is the product of the signs. -/
theorem sign_bne (p q : Bool) : (if p != q then (-1 : ℚ) else 1) = (if p then -1 else 1) * (if q then -1 else 1) := by
  cases p <;> cases q <;> norm_num

theorem isNearest_fmul {a b : F32} (ha : isFinite a = true) (hb : isFinite b = true) :
    IsNearest (fmul a b) ((fval a : ℚ) * fval b / 2 ^ 149) := by
  have h := isNearest_fpack (fneg? a != fneg? b) (funits a * funits b) (den := 2 ^ 149) (by positivity)
  rw [← fmul_of_isFinite ha hb, sign_bne] at h
  convert h using 1
  rw [fval_eq_sign_mul, fval_eq_sign_mul]
  push_cast
  ring

theorem isNearest_fdiv {a b : F32} (ha : isFinite a = true) (hb : isFinite b = true) (h0 : fval b ≠ 0) :
    IsNearest (fdiv a b) ((fval a : ℚ) * 2 ^ 149 / fval b) := by
  have hc : fcode b ≠ 0 := mt (fval_eq_zero_iff b).2 h0
  have hu : 0 < funits b := Nat.pos_of_ne_zero (mt (funits_eq_zero_iff b).1 hc)
  have h := isNearest_fpack (fneg? a != fneg? b) (funits a * 2 ^ 149) hu
  rw [← fdiv_of_isFinite ha hb hc, sign_bne] at h
  convert h using 1
  rw [fval_eq_sign_mul, fval_eq_sign_mul]
  push_cast
  -- the divisor's sign, 1 or -1, is its own inverse
  cases fneg? b <;> simp only [Bool.false_eq_true, if_true, if_false] <;> ring

/-! ### Comparison -/

/-- Codes with their signs order the values, the two zeros being one. -/
theorem fkey_le_iff (a b : F32) : fkey a ≤ fkey b ↔ fval a ≤ fval b := by
  have hab := funits_le_iff a b
  have hba := funits_le_iff b a
  have ha := funits_eq_zero_iff a
  have hb := funits_eq_zero_iff b
  unfold fkey fval
  cases fneg? a <;> cases fneg? b <;> simp only [Bool.false_eq_true, if_true, if_false] <;> omega

theorem fle_iff_fval_le {a b : F32} (ha : isFinite a = true) (hb : isFinite b = true) : fle a b = true ↔ fval a ≤ fval b := by
  simp [fle, isNan_of_isFinite, ha, hb, fkey_le_iff]

theorem fle_of_isNan {a b : F32} (h : isNan a = true ∨ isNan b = true) : fle a b = false := by
  unfold fle
  rcases h with h | h <;> simp [h]

/-! ### Integers -/

theorem isNearest_fofInt (n : ℤ) : IsNearest (fofInt n) ((n : ℚ) * 2 ^ 149) := by
  have h := isNearest_fpack_int n (2 ^ 149)
  rwa [Nat.cast_pow, Nat.cast_ofNat] at h

/-- `rnCode_exact` at 2^24 itself, whose code is the next exponent with an empty fraction. -/
theorem rnCode_nat_exact {n : ℕ} (h : n ≤ 2 ^ 24) :
    rnCode (n * 2 ^ 149) 1 < infCode ∧ codeUnits (rnCode (n * 2 ^ 149) 1) = n * 2 ^ 149 := by
  rcases Nat.lt_or_eq_of_le h with hlt | rfl
  · exact rnCode_exact hlt (by omega) (le_refl _)
  · decide

theorem fofInt_exact {n : ℤ} (h : n.natAbs ≤ 2 ^ 24) : isFinite (fofInt n) = true ∧ fval (fofInt n) = n * 2 ^ 149 := by
  obtain ⟨hfin, hunits⟩ := rnCode_nat_exact h
  unfold fofInt fround
  constructor
  · unfold isFinite
    rw [fcode_fpack _ (rnCode_lt _ _)]
    exact decide_eq_true hfin
  · rw [fval_fpack _ (rnCode_lt _ _), hunits]
    simp only [decide_eq_true_eq]
    split_ifs <;> omega

theorem fofNat_eq_fofInt (n : ℕ) : fofNat n = fofInt n := by
  rw [fofNat, fofInt, Int.natAbs_natCast, decide_eq_false (Int.natCast_nonneg n).not_gt]

end Sys2Proof.Machine

namespace Sys2Proof

open Machine

/-- Settles O60: the exact result of each operation on finite operands, rounded once, is what it gives. -/
theorem binary32 : Obligations.Binary32 := by
  refine ⟨fun x => ?_, fun x => ⟨isFinite_iff_exponent x, isNan_iff_fields x⟩, fun a b ha hb => ?_, fun a b => fle_of_isNan,
    fun n => ⟨isNearest_fofInt n, fofInt_exact⟩, fofNat_eq_fofInt⟩
  · rw [fval_eq_sign_mul, funits_eq_fields]
    push_cast
    rfl
  · exact ⟨isNearest_fadd ha hb, isNearest_fsub ha hb, isNearest_fmul ha hb, isNearest_fdiv ha hb, fle_iff_fval_le ha hb⟩

end Sys2Proof

/-! PROOF of O8, O56, O58 and O59: the register map, the invariant, the FIFOs' ends and FAULTS. Each row is met once per question. A
host row is one of four things (`HostResult`), and so is a bus access; `exec_io` says per agent what a row may do to the FIFOs and to
FAULTS; `step_cases` says that a step is a row on a state that differs from the one before only in the schedule. -/

namespace Sys2Proof.Machine

/-! ### The register window -/

theorem decodeBus_write {o : BitVec 8} (d : Word) (h0 : o.getLsbD 0 = false) (h1 : o.getLsbD 1 = false) :
    decodeBus (busWord 1#1 0b10#2 o d) = decodeWrite o d := by
  rw [decodeBus_busWord, h0, h1]; rfl

theorem decodeBus_read {o : BitVec 8} (d : Word) (h0 : o.getLsbD 0 = false) (h1 : o.getLsbD 1 = false) :
    decodeBus (busWord 0#1 0b10#2 o d) = decodeRead o := by
  rw [decodeBus_busWord, h0, h1]; rfl

/-- KEYMAP[k] lies at 0x40 + 4k (R57). -/
theorem keymapOffset_eq (k : BitVec 4) : BitVec.ofNat 8 (0x40 + 4 * k.toNat) = keymapOffset k := by
  revert k; decide

/-- The bits of a KEYMAP offset that decoding looks at. -/
theorem keymapOffset_bits (k : BitVec 4) :
    (keymapOffset k).getLsbD 0 = false ∧ (keymapOffset k).getLsbD 1 = false ∧ (keymapOffset k).getLsbD 6 = true ∧
      (keymapOffset k).getLsbD 7 = false ∧ (keymapOffset k).extractLsb' 2 4 = k := by
  revert k; decide

/-- The bits of an aligned offset in the reserved range 0x80..0xFC (R58). -/
theorem reservedOffset_bits {o : BitVec 8} (hlo : 0x80 ≤ o.toNat) (hal : o.toNat % 4 = 0) :
    o.getLsbD 0 = false ∧ o.getLsbD 1 = false ∧ o.getLsbD 7 = true := by
  revert o; decide

theorem decodeWrite_keymap (k : BitVec 4) (d : Word) : decodeWrite (keymapOffset k) d = .wrKeymap k d := by
  obtain ⟨_, _, h6, h7, hk⟩ := keymapOffset_bits k
  rw [decodeWrite, h6, h7, hk]; rfl

theorem decodeRead_keymap (k : BitVec 4) : decodeRead (keymapOffset k) = .rdKeymap k := by
  obtain ⟨_, _, h6, h7, hk⟩ := keymapOffset_bits k
  rw [decodeRead, h6, h7, hk]; rfl

theorem writeAt_keymap (k : BitVec 4) (d : Word) (s : State) : writeAt (keymapOffset k) d s = writeKeymap k d s := by
  obtain ⟨_, _, h6, h7, hk⟩ := keymapOffset_bits k
  rw [writeAt, h6, h7, hk]; rfl

theorem readAt_keymap (k : BitVec 4) (s : State) : readAt (keymapOffset k) s = readKeymap k s := by
  obtain ⟨_, _, h6, h7, hk⟩ := keymapOffset_bits k
  rw [readAt, h6, h7, hk]; rfl

/-! ### Host rows -/

/-- A row that completes in `u` completes in no other state: what holds of `u` holds of the `t` that the hypothesis names. -/
theorem of_next (P : State → Prop) {u t : State} (ht : (.next u : StepOutcome) = .next t) (h : P u) : P t :=
  Host.Outcome.next.inj ht ▸ h

/-- What a row of the host can end in: CMD_ERR set by a reserved OP (R461), the write or read rule of some offset (R460), the bus
error (R468). -/
inductive HostResult (s : State) : State → Prop where
  | cmdErr : HostResult s (setSticky bitCmdErr s)
  | write (o : BitVec 8) (d : Word) : HostResult s (writeAt o d s)
  | read (o : BitVec 8) : HostResult s (readAt o s)
  | error : HostResult s (busError s)

theorem busAccess_hostResult (w : BitVec 43) (s : State) : HostResult s (busAccess w s) := by
  unfold busAccess
  split
  · exact .error
  · split
    · exact .write _ _
    · exact .read _

theorem exec_hostResult {i : Instr} (hi : agentOf i = .host) (s : State) : ∃ t, exec i s = .next t ∧ HostResult s t := by
  cases i with
  | cmdRsvd0 | cmdRsvd3 | cmdRsvd47 | cmdRsvd8F => exact ⟨_, rfl, .cmdErr⟩
  | busErrSize8 | busErrSize16 | busErrSizeRsvd | busErrAlignB0 | busErrAlignB1 => exact ⟨_, rfl, .error⟩
  | host w => exact ⟨_, rfl, busAccess_hostResult w s⟩
  | wrCmd d => exact ⟨_, rfl, .write 0x00#8 d⟩
  | wrStatus d => exact ⟨_, rfl, .write 0x04#8 d⟩
  | wrIrqEn d => exact ⟨_, rfl, .write 0x08#8 d⟩
  | wrRoEvent d => exact ⟨_, rfl, .write 0x0C#8 d⟩
  | wrAttack d => exact ⟨_, rfl, .write 0x10#8 d⟩
  | wrDecay d => exact ⟨_, rfl, .write 0x14#8 d⟩
  | wrSustain d => exact ⟨_, rfl, .write 0x18#8 d⟩
  | wrRelease d => exact ⟨_, rfl, .write 0x1C#8 d⟩
  | wrCutoff d => exact ⟨_, rfl, .write 0x20#8 d⟩
  | wrResonance d => exact ⟨_, rfl, .write 0x24#8 d⟩
  | wrVolume d => exact ⟨_, rfl, .write 0x28#8 d⟩
  | wrWave d => exact ⟨_, rfl, .write 0x2C#8 d⟩
  | wrNote d => exact ⟨_, rfl, .write 0x30#8 d⟩
  | wrOctave d => exact ⟨_, rfl, .write 0x34#8 d⟩
  | wrRoVoiceState d => exact ⟨_, rfl, .write 0x38#8 d⟩
  | wrRoTick d => exact ⟨_, rfl, .write 0x3C#8 d⟩
  | wrKeymap k d => exact ⟨_, rfl, writeAt_keymap k d s ▸ .write (keymapOffset k) d⟩
  | wrRsvd o d => exact ⟨_, rfl, .write 0x80#8 d⟩
  | rdCmd => exact ⟨_, rfl, .read 0x00#8⟩
  | rdStatus => exact ⟨_, rfl, .read 0x04#8⟩
  | rdIrqEn => exact ⟨_, rfl, .read 0x08#8⟩
  | rdEvent => exact ⟨_, rfl, .read 0x0C#8⟩
  | rdAttack => exact ⟨_, rfl, .read 0x10#8⟩
  | rdDecay => exact ⟨_, rfl, .read 0x14#8⟩
  | rdSustain => exact ⟨_, rfl, .read 0x18#8⟩
  | rdRelease => exact ⟨_, rfl, .read 0x1C#8⟩
  | rdCutoff => exact ⟨_, rfl, .read 0x20#8⟩
  | rdResonance => exact ⟨_, rfl, .read 0x24#8⟩
  | rdVolume => exact ⟨_, rfl, .read 0x28#8⟩
  | rdWave => exact ⟨_, rfl, .read 0x2C#8⟩
  | rdNote => exact ⟨_, rfl, .read 0x30#8⟩
  | rdOctave => exact ⟨_, rfl, .read 0x34#8⟩
  | rdVoiceState => exact ⟨_, rfl, .read 0x38#8⟩
  | rdTick => exact ⟨_, rfl, .read 0x3C#8⟩
  | rdKeymap k => exact ⟨_, rfl, readAt_keymap k s ▸ .read (keymapOffset k)⟩
  | rdRsvd o => exact ⟨_, rfl, .read 0x80#8⟩
  | _ => cases hi

theorem hostResult_of_exec {i : Instr} {s t : State} (hi : agentOf i = .host) (ht : exec i s = .next t) : HostResult s t := by
  obtain ⟨u, hu, h⟩ := exec_hostResult hi s
  exact of_next (HostResult s) (hu ▸ ht) h

theorem HostResult.inv {s t : State} (ht : HostResult s t) (h : s.Inv) : t.Inv := by
  cases ht with
  | cmdErr => exact inv_setSticky _ h
  | write o d => exact inv_writeAt o d h
  | read o => exact inv_readAt o h
  | error => exact inv_busError h

/-! ### Steps -/

/-- `u` is `s` but for the schedule: the lines still to come and the count of draws. -/
def OnlySchedule (s u : State) : Prop := u = { s with lines := u.lines, drawn := u.drawn }

theorem OnlySchedule.inv {s u : State} (hu : OnlySchedule s u) (h : s.Inv) : u.Inv := by
  rw [hu]
  exact inv_congr h rfl rfl rfl rfl rfl rfl rfl rfl rfl rfl rfl rfl rfl

theorem OnlySchedule.faults {s u : State} (hu : OnlySchedule s u) : u.faults = s.faults := by rw [hu]

/-- What a fetch finds, with the state it finds it in. -/
theorem fetch_cases (s : State) :
    (∃ i u, fetch s = .run i u ∧ OnlySchedule s u) ∨ (∃ u, fetch s = .discard u ∧ OnlySchedule s u) ∨
      ∃ b, fetch s = .reserved b := by
  unfold fetch
  split
  · exact .inl ⟨_, s, rfl, rfl⟩
  · split
    · unfold fetchLine
      split
      · exact .inl ⟨_, _, rfl, rfl⟩
      · exact .inr (.inl ⟨_, rfl, rfl⟩)
      · exact .inr (.inr ⟨_, rfl⟩)
    · exact .inl ⟨_, _, rfl, rfl⟩

/-- Everything a step can be: a row, the discarding of a RAW line that matches none (R156), a refusal. -/
theorem step_cases (s : State) :
    (∃ i u, step s = exec i u ∧ OnlySchedule s u) ∨ (∃ u, step s = .next u ∧ OnlySchedule s u) ∨
      ∃ r, step s = .refused r := by
  unfold step
  split
  · rcases fetch_cases s with ⟨i, u, hf, hu⟩ | ⟨u, hf, hu⟩ | ⟨b, hf⟩
    · exact .inl ⟨i, u, by rw [hf], hu⟩
    · exact .inr (.inl ⟨u, by rw [hf], hu⟩)
    · exact .inr (.inr ⟨_, by rw [hf]⟩)
  · exact .inr (.inr ⟨_, rfl⟩)

/-! ### The invariant through every row -/

theorem inv_execPassStart {s t : State} (h : s.Inv) (ht : execPassStart s = .next t) : t.Inv := by
  unfold execPassStart at ht
  split at ht <;> cases ht
  · exact inv_filtUpdate (inv_startPass h)
  · exact h

theorem inv_execFrame {s t : State} (h : s.Inv) (ht : execFrame s = .next t) : t.Inv := by
  unfold execFrame at ht
  split at ht
  · next hb => exact inv_renderFrame h hb ht
  · cases ht; exact h

theorem inv_execOscLookup {s t : State} (v : BitVec 3) (h : s.Inv) (ht : execOscLookup v s = .next t) : t.Inv := by
  unfold execOscLookup at ht
  split at ht <;> cases ht
  · exact inv_answerWith _ h
  · exact h

theorem inv_exec {i : Instr} {s t : State} (h : s.Inv) (ht : exec i s = .next t) : t.Inv := by
  cases i with
  | noteOn k n => exact of_next State.Inv ht (inv_noteOn k _ h)
  | noteOff k => exact of_next State.Inv ht (inv_noteOff k h)
  | encAb st e ab => exact of_next State.Inv ht (inv_encAb e ab st h)
  | encBtn st e l => exact of_next State.Inv ht (inv_encBtn e l st h)
  | keyScan st m => exact of_next State.Inv ht (inv_keyScan m st h)
  | rawRsvd => exact of_next State.Inv ht h
  | capture r => exact of_next State.Inv ht (inv_pushRaw _ h)
  | dmaHt | dmaTc => exact of_next State.Inv ht (inv_dmaNotify _ h)
  | tick => exact of_next State.Inv ht (inv_congr h rfl rfl rfl rfl rfl rfl rfl rfl rfl rfl rfl rfl rfl)
  | reset pins => exact of_next State.Inv ht (inv_resetCore pins h)
  | decode => exact of_next State.Inv ht (inv_decodeStep h)
  | passStart => exact inv_execPassStart h ht
  | frame => exact inv_execFrame h ht
  | envIdle | envAttack | envDecay | envSustain | envRelease =>
    exact of_next State.Inv ht (inv_whenEnv _ _ _ (fun x e => by simp [envAdvance, e]) h)
  | oscTune v n => exact of_next State.Inv ht (inv_oscTune _ n h)
  | oscLookup v => exact inv_execOscLookup v h ht
  | oscAdvance v => exact of_next State.Inv ht (inv_oscAdvance _ h)
  | voiceSelect => exact of_next State.Inv ht (inv_answerWith _ h)
  | genRebase => exact of_next State.Inv ht (inv_genRebase h)
  | filtUpdate => exact of_next State.Inv ht (inv_filtUpdate h)
  | filtProcess x => exact of_next State.Inv ht (inv_congr h rfl rfl rfl rfl rfl rfl rfl rfl rfl rfl rfl rfl rfl)
  | detentCheck e st => exact of_next State.Inv ht (inv_detentCheck e st h)
  | keyAction k p => exact of_next State.Inv ht (inv_keyAction k p h)
  | _ => exact (hostResult_of_exec rfl ht).inv h

/-- FRAME alone can fault, and where the invariant holds its write is within the PCM buffer (R31, R100). -/
theorem exec_ne_fault {i : Instr} {s : State} (h : s.Inv) (f : Fault) : exec i s ≠ .fault f := by
  intro hf
  cases i with
  | frame =>
    change execFrame s = .fault f at hf
    unfold execFrame at hf
    rw [renderFrame_next h.cfg h.seq] at hf
    split at hf <;> cases hf
  | passStart =>
    change execPassStart s = .fault f at hf
    unfold execPassStart at hf
    split at hf <;> cases hf
  | oscLookup v =>
    change execOscLookup v s = .fault f at hf
    unfold execOscLookup at hf
    split at hf <;> cases hf
  | _ => cases hf

/-! ### Records appended to CMDQ and EVQ -/

/-- CMDQ and EVQ of `t` are those of `s` with records at their ends. -/
def Appends (s t : State) : Prop := s.cmdq <+: t.cmdq ∧ s.evq <+: t.evq

theorem appends_of_eq {s t : State} (hc : t.cmdq = s.cmdq) (he : t.evq = s.evq) : Appends s t :=
  ⟨⟨[], by rw [hc, List.append_nil]⟩, ⟨[], by rw [he, List.append_nil]⟩⟩

theorem appends_refl (s : State) : Appends s s := appends_of_eq rfl rfl

theorem appends_trans {s t u : State} (h : Appends s t) (g : Appends t u) : Appends s u :=
  ⟨h.1.trans g.1, h.2.trans g.2⟩

theorem pushCmd_appends (r : Cmd) (s : State) : Appends s (pushCmd r s) := by
  obtain ⟨new, h⟩ := pushCmd_grows r s
  exact ⟨⟨new, h.symm⟩, by simp⟩

theorem pushEvent_appends (r : Event) (s : State) : Appends s (pushEvent r s) := by
  obtain ⟨new, h⟩ := pushEvent_grows r s
  exact ⟨by simp, ⟨new, h.symm⟩⟩

theorem detentCheck_appends (e : BitVec 4) (st : Word) (s : State) : Appends s (detentCheck e st s) := by
  unfold detentCheck
  split
  · exact appends_refl s
  · split
    · exact pushEvent_appends _ s
    · split
      · exact pushEvent_appends _ s
      · exact appends_refl s

theorem encAb_appends (e : BitVec 4) (ab : BitVec 2) (st : Word) (s : State) : Appends s (encAb e ab st s) := by
  unfold encAb
  split
  · exact appends_refl s
  · exact detentCheck_appends e st (modifyEnc e.toNat (encSample ab) s)

theorem encBtn_appends (e : BitVec 4) (l : BitVec 1) (st : Word) (s : State) : Appends s (encBtn e l st s) := by
  unfold encBtn
  dsimp only
  split
  · exact appends_refl s
  · split
    · exact pushEvent_appends _ (modifyEnc e.toNat _ s)
    · exact appends_refl s

theorem keyAction_appends (k : BitVec 4) (p : Bool) (s : State) : Appends s (keyAction k p s) := by
  unfold keyAction
  dsimp only
  split
  · split
    · refine appends_trans (t := { s with regs := _ }) ?_ (pushCmd_appends _ _)
      exact appends_of_eq rfl rfl
    · exact pushCmd_appends _ s
  · split
    · split
      · exact appends_of_eq rfl rfl
      · exact appends_refl s
    · exact appends_refl s

theorem keyEdge_appends (k : BitVec 4) (p : Bool) (st : Word) (s : State) : Appends s (keyEdge k p st s) :=
  appends_trans (pushEvent_appends _ s) (keyAction_appends k p _)

theorem scanKey_appends (mask : BitVec 16) (st : Word) (s : State) (k : Nat) : Appends s (scanKey mask st s k) := by
  rw [scanKey_eq]
  split
  · exact appends_refl s
  · next x _ =>
    dsimp only
    split
    · exact keyEdge_appends _ _ st (setKey k (keyAfter s.cfg.debounceMax (mask.getLsbD k) x) s)
    · exact appends_of_eq rfl rfl

theorem foldl_scanKey_appends (mask : BitVec 16) (st : Word) (ks : List Nat) (s : State) :
    Appends s (ks.foldl (scanKey mask st) s) := by
  induction ks generalizing s with
  | nil => exact appends_refl s
  | cons k ks ih => exact appends_trans (scanKey_appends mask st s k) (ih _)

theorem keyScan_appends (mask : BitVec 16) (st : Word) (s : State) : Appends s (keyScan mask st s) :=
  foldl_scanKey_appends mask st _ s

theorem decodeRecord_appends (r : BitVec 64) (s : State) : Appends s (decodeRecord r s) := by
  unfold decodeRecord
  split
  · exact appends_refl s
  · split
    · exact encAb_appends _ _ _ s
    · split
      · exact encBtn_appends _ _ _ s
      · exact keyScan_appends _ _ s

/-! ### FIFOs and FAULTS, agent by agent -/

/-- What a row of an agent may do to the FIFOs and to FAULTS (R39, R63, R503); a RESET empties the FIFOs (R541). -/
def AgentIo (a : Agent) (s t : State) : Prop :=
  match a with
  | .host => s.cmdq <+: t.cmdq ∧ (t.evq = s.evq ∨ t.evq = s.evq.tail) ∧ t.rawq = s.rawq ∧
      (t.faults = s.faults ∨ t.faults = { s.faults with busError := true })
  | .input => t.cmdq = s.cmdq ∧ t.evq = s.evq ∧ s.rawq <+: t.rawq ∧ t.faults = s.faults
  | .dma => t.cmdq = s.cmdq ∧ t.evq = s.evq ∧ t.rawq = s.rawq ∧
      (t.faults = s.faults ∨ t.faults = { s.faults with deadlineMiss := true })
  | .timer => t.cmdq = s.cmdq ∧ t.evq = s.evq ∧ t.rawq = s.rawq ∧ t.faults = s.faults
  | .reset => t.cmdq = [] ∧ t.evq = [] ∧ t.rawq = [] ∧ t.faults = s.faults
  | .decoder => s.cmdq <+: t.cmdq ∧ s.evq <+: t.evq ∧ (t.rawq = s.rawq ∨ t.rawq = s.rawq.tail) ∧ t.faults = s.faults
  | .renderer => (t.cmdq = s.cmdq ∨ t.cmdq = []) ∧ t.evq = s.evq ∧ t.rawq = s.rawq ∧ t.faults = s.faults

theorem ioHost_of_eq {s t : State} (hc : t.cmdq = s.cmdq) (he : t.evq = s.evq) (hr : t.rawq = s.rawq)
    (hf : t.faults = s.faults) : AgentIo .host s t :=
  ⟨(appends_of_eq hc he).1, .inl he, hr, .inl hf⟩

theorem ioHost_ite {c : Prop} [Decidable c] {s a b : State} (ha : AgentIo .host s a) (hb : AgentIo .host s b) :
    AgentIo .host s (if c then a else b) := by
  split <;> assumption

theorem writeCmd_io (d : Word) (s : State) : AgentIo .host s (writeCmd d s) := by
  have push : ∀ r, AgentIo .host s (pushCmd r s) := fun r =>
    ⟨(pushCmd_appends r s).1, .inl (by simp), by simp, .inl (by simp)⟩
  exact ioHost_ite (push _) (ioHost_ite (push _) (ioHost_of_eq rfl rfl rfl rfl))

/-- WR CMD alone of the writes touches a FIFO (R461). -/
theorem writeAt_io (o : BitVec 8) (d : Word) (s : State) : AgentIo .host s (writeAt o d s) := by
  have wr : ∀ f, AgentIo .host s (writeRegs f s) := fun f => ioHost_of_eq rfl rfl rfl rfl
  have wf : ∀ f, AgentIo .host s (writeFilterRegs f s) := fun f => ioHost_of_eq rfl rfl rfl rfl
  have ignored : AgentIo .host s (writeIgnored s) := ioHost_of_eq rfl rfl rfl rfl
  unfold writeAt
  refine ioHost_ite ignored (ioHost_ite ?_ (ioHost_ite (writeCmd_io d s) (ioHost_ite ?_ (ioHost_ite ?_ (ioHost_ite ignored
    (ioHost_ite (wr _) (ioHost_ite (wr _) (ioHost_ite (wr _) (ioHost_ite (wr _) (ioHost_ite (wf _) (ioHost_ite (wf _)
    (ioHost_ite (wr _) (ioHost_ite (wr _) (ioHost_ite (wr _) (ioHost_ite (wr _) ignored)))))))))))))))
  · exact ioHost_of_eq rfl rfl rfl rfl -- KEYMAP
  · exact ioHost_of_eq rfl rfl rfl rfl -- STATUS
  · exact ioHost_of_eq rfl rfl rfl rfl -- IRQ_EN

theorem readEvent_io (s : State) : AgentIo .host s (readEvent s) := by
  unfold readEvent
  split
  · exact ioHost_of_eq rfl rfl rfl rfl
  · next hq => exact ⟨(appends_refl s).1, .inr (by rw [hq]; rfl), rfl, .inl rfl⟩

/-- RD EVENT alone of the reads touches a FIFO (R463). -/
theorem readAt_io (o : BitVec 8) (s : State) : AgentIo .host s (readAt o s) := by
  have rd : ∀ w, AgentIo .host s (readWord w s) := fun w => ioHost_of_eq rfl rfl rfl rfl
  unfold readAt
  refine ioHost_ite (rd _) (ioHost_ite (rd _) (ioHost_ite (rd _) (ioHost_ite (rd _) (ioHost_ite (rd _)
    (ioHost_ite (readEvent_io s) (ioHost_ite (rd _) (ioHost_ite (rd _) (ioHost_ite (rd _) (ioHost_ite (rd _)
    (ioHost_ite (rd _) (ioHost_ite (rd _) (ioHost_ite (rd _) (ioHost_ite (rd _) (ioHost_ite (rd _) (ioHost_ite (rd _)
    (ioHost_ite (rd _) (rd _)))))))))))))))))

theorem HostResult.io {s t : State} (ht : HostResult s t) : AgentIo .host s t := by
  cases ht with
  | cmdErr => exact ioHost_of_eq rfl rfl rfl rfl
  | write o d => exact writeAt_io o d s
  | read o => exact readAt_io o s
  | error => exact ⟨(appends_refl s).1, .inl rfl, rfl, .inr rfl⟩

theorem ioDecoder_of_frame {s t : State} (hf : OnlyDecoder s t) (ha : Appends s t) : AgentIo .decoder s t :=
  ⟨ha.1, ha.2, .inl hf.rawq, hf.faults⟩

theorem decodeStep_io (s : State) : AgentIo .decoder s (decodeStep s) := by
  unfold decodeStep
  split
  · exact ioDecoder_of_frame (onlyDecoder_refl s) (appends_refl s)
  · next r rest hq =>
    have hf := decodeRecord_frame r { s with rawq := rest }
    have ha := decodeRecord_appends r { s with rawq := rest }
    exact ⟨ha.1, ha.2, .inr (by rw [hf.rawq, hq]; rfl), hf.faults⟩

theorem dmaNotify_io (b : BitVec 1) (s : State) : AgentIo .dma s (dmaNotify b s) := by
  unfold dmaNotify
  dsimp only
  split
  · exact ⟨rfl, rfl, rfl, .inr rfl⟩
  · exact ⟨rfl, rfl, rfl, .inl rfl⟩

theorem ioRenderer_of_eq {s t : State} (hc : t.cmdq = s.cmdq) (he : t.evq = s.evq) (hr : t.rawq = s.rawq)
    (hf : t.faults = s.faults) : AgentIo .renderer s t :=
  ⟨.inl hc, he, hr, hf⟩

theorem ioRenderer_of_frame {s t : State} (h : OnlyVoices s t) : AgentIo .renderer s t :=
  ioRenderer_of_eq h.cmdq h.evq h.rawq h.faults

theorem filtUpdate_io (s : State) : AgentIo .renderer s (filtUpdate s) := by
  rw [filtUpdate_frame]
  exact ioRenderer_of_eq rfl rfl rfl rfl

theorem execPassStart_io {s t : State} (ht : execPassStart s = .next t) : AgentIo .renderer s t := by
  unfold execPassStart at ht
  split at ht <;> cases ht
  · exact filtUpdate_io { s with seq := startPass s.seq }
  · exact ioRenderer_of_eq rfl rfl rfl rfl

theorem execOscLookup_io {v : BitVec 3} {s t : State} (ht : execOscLookup v s = .next t) : AgentIo .renderer s t := by
  unfold execOscLookup at ht
  split at ht <;> cases ht <;> exact ioRenderer_of_eq rfl rfl rfl rfl

/-- A frame empties CMDQ (R365). -/
theorem execFrame_io {s t : State} (ht : execFrame s = .next t) : AgentIo .renderer s t := by
  unfold execFrame at ht
  split at ht
  · rw [renderFrame_eq] at ht
    dsimp only at ht
    have hf := applyCommands_frame s
    split at ht <;> cases ht
    exact ⟨.inr hf.cmdq, hf.evq, hf.rawq, hf.faults⟩
  · cases ht; exact ioRenderer_of_eq rfl rfl rfl rfl

theorem exec_io {i : Instr} {s t : State} (ht : exec i s = .next t) : AgentIo (agentOf i) s t := by
  cases i with
  | noteOn k n => exact of_next (AgentIo _ s) ht (ioRenderer_of_frame (noteOn_frame k _ s))
  | noteOff k => exact of_next (AgentIo _ s) ht (ioRenderer_of_frame (noteOff_frame k s).1)
  | encAb st e ab => exact of_next (AgentIo _ s) ht (ioDecoder_of_frame (encAb_frame e ab st s).1 (encAb_appends e ab st s))
  | encBtn st e l => exact of_next (AgentIo _ s) ht (ioDecoder_of_frame (encBtn_frame e l st s).1 (encBtn_appends e l st s))
  | keyScan st m => exact of_next (AgentIo _ s) ht (ioDecoder_of_frame (keyScan_frame m st s).1 (keyScan_appends m st s))
  | rawRsvd => exact of_next (AgentIo _ s) ht (ioDecoder_of_frame (onlyDecoder_refl s) (appends_refl s))
  | capture r =>
    obtain ⟨new, h⟩ := pushRaw_grows (s.tick ++ r) s
    exact of_next (AgentIo _ s) ht ⟨pushRaw_cmdq _ s, pushRaw_evq _ s, ⟨new, h.symm⟩, pushRaw_faults _ s⟩
  | dmaHt | dmaTc => exact of_next (AgentIo _ s) ht (dmaNotify_io _ s)
  | tick | reset => exact of_next (AgentIo _ s) ht ⟨rfl, rfl, rfl, rfl⟩
  | decode => exact of_next (AgentIo _ s) ht (decodeStep_io s)
  | passStart => exact execPassStart_io ht
  | frame => exact execFrame_io ht
  | oscLookup v => exact execOscLookup_io ht
  | envIdle | envAttack | envDecay | envSustain | envRelease | oscTune | oscAdvance | voiceSelect | filtProcess =>
    exact of_next (AgentIo _ s) ht (ioRenderer_of_eq rfl rfl rfl rfl)
  | genRebase => exact of_next (AgentIo _ s) ht (ioRenderer_of_frame (genRebase_frame s))
  | filtUpdate => exact of_next (AgentIo _ s) ht (filtUpdate_io s)
  | detentCheck e st => exact of_next (AgentIo _ s) ht (ioDecoder_of_frame (detentCheck_frame e st s).1 (detentCheck_appends e st s))
  | keyAction k p => exact of_next (AgentIo _ s) ht (ioDecoder_of_frame (keyAction_frame k p s).1 (keyAction_appends k p s))
  | _ => exact (hostResult_of_exec rfl ht).io

/-- FAULTS after a row: as before, or with the one fault its agent raises (R63, R503). -/
theorem exec_faults {i : Instr} {s t : State} (ht : exec i s = .next t) :
    t.faults = s.faults ∨ (agentOf i = .host ∧ t.faults = { s.faults with busError := true }) ∨
      (agentOf i = .dma ∧ t.faults = { s.faults with deadlineMiss := true }) := by
  have io := exec_io ht
  cases ha : agentOf i <;> rw [ha] at io <;> obtain ⟨_, _, _, hf⟩ := io
  case host => exact hf.imp_right fun h => .inl ⟨rfl, h⟩
  case dma => exact hf.imp_right fun h => .inr ⟨rfl, h⟩
  all_goals exact .inl hf

theorem exec_faults_mono {i : Instr} {s t : State} (ht : exec i s = .next t) :
    (s.faults.busError = true → t.faults.busError = true) ∧ (s.faults.deadlineMiss = true → t.faults.deadlineMiss = true) := by
  rcases exec_faults ht with hf | ⟨_, hf⟩ | ⟨_, hf⟩ <;> rw [hf]
  · exact ⟨id, id⟩
  · exact ⟨fun _ => rfl, id⟩
  · exact ⟨id, fun _ => rfl⟩

/-- A FIFO that is unchanged grew by nothing. -/
theorem grows_of_eq {α : Type} {P : Prop} {l m : List α} (h : m = l) : ∃ new, m = l ++ new ∧ (new ≠ [] → P) :=
  ⟨[], by rw [h, List.append_nil], fun hn => absurd rfl hn⟩

theorem grows_of_appended {α : Type} {P : Prop} {l m : List α} (h : l <+: m) (hP : P) : ∃ new, m = l ++ new ∧ (new ≠ [] → P) := by
  obtain ⟨new, rfl⟩ := h
  exact ⟨new, rfl, fun _ => hP⟩

end Sys2Proof.Machine

namespace Sys2Proof

open Machine

/-- Settles O56: rows keep the invariant part by part, and a step is a row on a state that differs in the schedule alone. -/
theorem stepKeepsInv : Obligations.StepKeepsInv := by
  refine ⟨fun s t h ht => ?_, fun s f h hf => ?_, fun i s t => inv_exec⟩
  · rcases step_cases s with ⟨i, u, he, hu⟩ | ⟨u, he, hu⟩ | ⟨r, he⟩ <;> rw [he] at ht
    · exact inv_exec (hu.inv h) ht
    · cases ht; exact hu.inv h
    · cases ht
  · rcases step_cases s with ⟨i, u, he, hu⟩ | ⟨u, he, hu⟩ | ⟨r, he⟩ <;> rw [he] at hf
    · exact exec_ne_fault (hu.inv h) f hf
    · cases hf
    · cases hf

/-- Settles O58, from what each agent's rows do to the FIFOs. -/
theorem fifoEnds : Obligations.FifoEnds := by
  intro i s t ht hreset
  have io := exec_io ht
  cases ha : agentOf i <;> rw [ha] at io hreset <;> obtain ⟨hc, he, hr, _⟩ := io
  case host => exact ⟨.inl (grows_of_appended hc (.inl rfl)), he.imp grows_of_eq (⟨·, rfl⟩), .inl (grows_of_eq hr)⟩
  case input => exact ⟨.inl (grows_of_eq hc), .inl (grows_of_eq he), .inl (grows_of_appended hr rfl)⟩
  case dma | timer => exact ⟨.inl (grows_of_eq hc), .inl (grows_of_eq he), .inl (grows_of_eq hr)⟩
  case reset => exact absurd rfl hreset
  case decoder => exact ⟨.inl (grows_of_appended hc (.inr rfl)), .inl (grows_of_appended he rfl), hr.imp grows_of_eq (⟨·, rfl⟩)⟩
  case renderer => exact ⟨hc.imp grows_of_eq (⟨·, rfl⟩), .inl (grows_of_eq he), .inl (grows_of_eq hr)⟩

/-- Settles O59: a row leaves FAULTS as it is or adds the one fault its agent raises. -/
theorem faultsForGood : Obligations.FaultsForGood := by
  refine ⟨fun _ _ => rfl, fun s t ht => ?_, fun i s t ht => ?_⟩
  · rcases step_cases s with ⟨i, u, he, hu⟩ | ⟨u, he, hu⟩ | ⟨r, he⟩ <;> rw [he] at ht
    · rw [← hu.faults]; exact exec_faults_mono ht
    · cases ht; rw [hu.faults]; exact ⟨id, id⟩
    · cases ht
  · rcases exec_faults ht with hf | ⟨ha, hf⟩ | ⟨ha, hf⟩ <;> rw [hf]
    · exact ⟨.inl, .inl⟩
    · exact ⟨fun _ => .inr ha, .inl⟩
    · exact ⟨.inl, fun _ => .inr ha⟩

/-- Settles O8: SIZE 10 and an aligned offset select the register's own row, written out offset by offset. -/
theorem registerMap : Obligations.RegisterMap := by
  intro d k
  obtain ⟨h0, h1, _⟩ := keymapOffset_bits k
  rw [keymapOffset_eq, decodeBus_write d h0 h1, decodeBus_read d h0 h1, decodeWrite_keymap, decodeRead_keymap]
  have wr {o} := decodeBus_write (o := o) d
  have rd {o} := decodeBus_read (o := o) d
  refine ⟨wr rfl rfl, rd rfl rfl, wr rfl rfl, rd rfl rfl, wr rfl rfl, rd rfl rfl, wr rfl rfl, rd rfl rfl, wr rfl rfl, rd rfl rfl,
    wr rfl rfl, rd rfl rfl, wr rfl rfl, rd rfl rfl, wr rfl rfl, rd rfl rfl, wr rfl rfl, rd rfl rfl, wr rfl rfl, rd rfl rfl,
    wr rfl rfl, rd rfl rfl, wr rfl rfl, rd rfl rfl, wr rfl rfl, rd rfl rfl, wr rfl rfl, rd rfl rfl, wr rfl rfl, rd rfl rfl,
    wr rfl rfl, rd rfl rfl, rfl, rfl, fun o hlo hal => ?_⟩
  obtain ⟨b0, b1, b7⟩ := reservedOffset_bits hlo hal
  exact ⟨(wr b0 b1).trans (if_pos b7), (rd b0 b1).trans (if_pos b7)⟩

end Sys2Proof

/-! PROOF of O57, single writers. A row writes nothing but what its agent owns (R109): `exec_writes` says so agent by agent, as a
state equal to the one before but for the fields the agent may write. -/

namespace Sys2Proof.Machine

/-! ### What each agent may write -/

/-- `t` differs from `s` at most in what a HOST access may write: the parameter registers and KEYMAP, STATUS, IRQ_EN, `F.dirty`, CMDQ's
new end, EVQ's old one, FAULTS, and the answer (R109). -/
def OnlyHost (s t : State) : Prop :=
  t = { s with
    filt := { s.filt with dirty := t.filt.dirty }
    cmdq := t.cmdq
    evq := t.evq
    sticky := t.sticky
    irqEn := t.irqEn
    regs := t.regs
    keymap := t.keymap
    faults := t.faults
    answer := t.answer }

/-- `t` differs from `s` at most in what a RENDERER row may write: sequencer, voices and generations, filter, the emptied CMDQ, the PCM
buffer, and the answer (R109). -/
def OnlyRenderer (s t : State) : Prop :=
  t = { s with
    seq := t.seq
    voices := t.voices
    nextGen := t.nextGen
    keyGen := t.keyGen
    filt := t.filt
    cmdq := t.cmdq
    pcm := t.pcm
    answer := t.answer }

/-- `t` differs from `s` at most in what CAPTURE, a DMA notification or TICK may write: `R.notify`, RAWQ's new end, the sticky bits,
TICK and FAULTS (R109). -/
def OnlyPlatform (s t : State) : Prop :=
  t = { s with seq := t.seq, rawq := t.rawq, sticky := t.sticky, tick := t.tick, faults := t.faults }

/-- What a row of an agent may write (R109); a RESET writes everything (R541). -/
def AgentWrites (a : Agent) (s t : State) : Prop :=
  match a with
  | .host => OnlyHost s t
  | .renderer => OnlyRenderer s t
  | .decoder => OnlyDecoder { s with rawq := t.rawq } t
  | .input | .dma | .timer => OnlyPlatform s t
  | .reset => True

/-! ### HOST -/

theorem onlyHost_ite {c : Prop} [Decidable c] {s a b : State} (ha : OnlyHost s a) (hb : OnlyHost s b) :
    OnlyHost s (if c then a else b) := by
  split <;> assumption

theorem writeCmd_onlyHost (d : Word) (s : State) : OnlyHost s (writeCmd d s) := by
  have push : ∀ r, OnlyHost s (answerWith .written (pushCmd r s)) := fun r => by rw [pushCmd_frame]; rfl
  unfold writeCmd cmdPush
  dsimp only
  split
  · exact push _
  · split
    · exact push _
    · rfl

/-- WR CMD aside, which pushes, a write rule is one update of fields that are the host's. -/
theorem writeAt_onlyHost (o : BitVec 8) (d : Word) (s : State) : OnlyHost s (writeAt o d s) := by
  unfold writeAt
  repeat' apply onlyHost_ite
  on_goal 3 => exact writeCmd_onlyHost d s
  all_goals rfl

theorem readEvent_onlyHost (s : State) : OnlyHost s (readEvent s) := by
  unfold readEvent
  split <;> rfl

/-- A read latches its answer; RD EVENT pops as well. -/
theorem readAt_onlyHost (o : BitVec 8) (s : State) : OnlyHost s (readAt o s) := by
  unfold readAt
  repeat' apply onlyHost_ite
  on_goal 6 => exact readEvent_onlyHost s
  all_goals rfl

theorem HostResult.onlyHost {s t : State} (ht : HostResult s t) : OnlyHost s t := by
  cases ht with
  | cmdErr => rfl
  | write o d => exact writeAt_onlyHost o d s
  | read o => exact readAt_onlyHost o s
  | error => rfl

/-! ### INPUT and DMA -/

theorem pushRaw_onlyPlatform (r : BitVec 64) (s : State) : OnlyPlatform s (pushRaw r s) := by
  rw [pushRaw_frame]; rfl

theorem dmaNotify_onlyPlatform (b : BitVec 1) (s : State) : OnlyPlatform s (dmaNotify b s) := by
  unfold dmaNotify
  dsimp only
  split <;> rfl

/-! ### DECODER -/

/-- The frame of a record's rule, started on `s` with any RAWQ: DECODE starts it on the one it has popped from. -/
theorem agentWrites_of_onlyDecoder {s t : State} {q : List (BitVec 64)} (h : OnlyDecoder { s with rawq := q } t) :
    AgentWrites .decoder s t := by
  rw [AgentWrites, h.rawq]
  exact h

theorem decodeStep_agentWrites (s : State) : AgentWrites .decoder s (decodeStep s) := by
  unfold decodeStep
  split
  · exact agentWrites_of_onlyDecoder (onlyDecoder_refl s)
  · exact agentWrites_of_onlyDecoder (decodeRecord_frame _ _)

/-! ### RENDERER -/

theorem OnlyVoices.onlyRenderer {s t : State} (h : OnlyVoices s t) : OnlyRenderer s t :=
  State.ext h.cfg rfl rfl rfl rfl rfl h.encs h.keys rfl h.evq h.rawq h.sticky h.irqEn h.regs h.keymap h.tick h.faults rfl rfl h.lines
    h.eager h.drawn

theorem onlyRenderer_trans {s t u : State} (h : OnlyRenderer s t) (g : OnlyRenderer t u) : OnlyRenderer s u := by
  rw [OnlyRenderer, g, h]

theorem filtUpdate_onlyRenderer (s : State) : OnlyRenderer s (filtUpdate s) := by
  rw [filtUpdate_frame]; rfl

theorem execPassStart_onlyRenderer {s t : State} (ht : execPassStart s = .next t) : OnlyRenderer s t := by
  unfold execPassStart at ht
  split at ht <;> cases ht
  · exact onlyRenderer_trans (t := { s with seq := startPass s.seq }) rfl (filtUpdate_onlyRenderer _)
  · rfl

theorem execOscLookup_onlyRenderer {v : BitVec 3} {s t : State} (ht : execOscLookup v s = .next t) : OnlyRenderer s t := by
  unfold execOscLookup at ht
  split at ht <;> cases ht <;> rfl

/-- A frame is the commands, which write voices, then one update of fields that are the renderer's (R364). -/
theorem execFrame_onlyRenderer {s t : State} (ht : execFrame s = .next t) : OnlyRenderer s t := by
  have commands : OnlyRenderer s (applyCommands s) :=
    onlyRenderer_trans (t := { s with cmdq := [] }) rfl (applyCommands_frame s).onlyRenderer
  unfold execFrame at ht
  split at ht
  · rw [renderFrame_eq] at ht
    dsimp only at ht
    split at ht <;> cases ht
    exact onlyRenderer_trans commands rfl
  · cases ht; rfl

/-! ### Every row -/

theorem exec_writes {i : Instr} {s t : State} (ht : exec i s = .next t) : AgentWrites (agentOf i) s t := by
  cases i with
  | noteOn k n => exact of_next (OnlyRenderer s) ht (noteOn_frame k _ s).onlyRenderer
  | noteOff k => exact of_next (OnlyRenderer s) ht (noteOff_frame k s).1.onlyRenderer
  | encAb st e ab => exact of_next (AgentWrites .decoder s) ht (agentWrites_of_onlyDecoder (encAb_frame e ab st s).1)
  | encBtn st e l => exact of_next (AgentWrites .decoder s) ht (agentWrites_of_onlyDecoder (encBtn_frame e l st s).1)
  | keyScan st m => exact of_next (AgentWrites .decoder s) ht (agentWrites_of_onlyDecoder (keyScan_frame m st s).1)
  | rawRsvd => exact of_next (AgentWrites .decoder s) ht (agentWrites_of_onlyDecoder (onlyDecoder_refl s))
  | capture r => exact of_next (OnlyPlatform s) ht (pushRaw_onlyPlatform _ s)
  | dmaHt | dmaTc => exact of_next (OnlyPlatform s) ht (dmaNotify_onlyPlatform _ s)
  | tick => exact of_next (OnlyPlatform s) ht rfl
  | reset => exact trivial
  | decode => exact of_next (AgentWrites .decoder s) ht (decodeStep_agentWrites s)
  | passStart => exact execPassStart_onlyRenderer ht
  | frame => exact execFrame_onlyRenderer ht
  | oscLookup v => exact execOscLookup_onlyRenderer ht
  | envIdle | envAttack | envDecay | envSustain | envRelease | oscTune | oscAdvance | voiceSelect | filtProcess =>
    exact of_next (OnlyRenderer s) ht rfl
  | genRebase => exact of_next (OnlyRenderer s) ht (genRebase_frame s).onlyRenderer
  | filtUpdate => exact of_next (OnlyRenderer s) ht (filtUpdate_onlyRenderer s)
  | detentCheck e st => exact of_next (AgentWrites .decoder s) ht (agentWrites_of_onlyDecoder (detentCheck_frame e st s).1)
  | keyAction k p => exact of_next (AgentWrites .decoder s) ht (agentWrites_of_onlyDecoder (keyAction_frame k p s).1)
  | _ => exact (hostResult_of_exec rfl ht).onlyHost

end Sys2Proof.Machine

namespace Sys2Proof

open Machine

/-- Settles O57: what an agent's rows do not write is as before. -/
theorem singleWriters : Obligations.SingleWriters := by
  intro i s t ht hreset
  have w := exec_writes ht
  cases ha : agentOf i <;> rw [ha] at w hreset
  case reset => exact absurd rfl hreset
  case host =>
    rw [w]
    exact ⟨fun _ => ⟨rfl, rfl, rfl, rfl⟩, fun _ => ⟨rfl, rfl⟩, fun h => absurd rfl h, fun h => absurd rfl h⟩
  case renderer =>
    rw [w]
    exact ⟨fun h => absurd rfl h, fun _ => ⟨rfl, rfl⟩, fun _ => rfl, fun _ _ => rfl⟩
  case decoder =>
    exact ⟨fun _ => ⟨w.voices, w.keyGen, w.nextGen, by rw [w.filt]⟩, fun h => absurd rfl h, fun _ => w.regs, fun _ h => absurd rfl h⟩
  case input | dma | timer =>
    rw [w]
    exact ⟨fun _ => ⟨rfl, rfl, rfl, rfl⟩, fun _ => ⟨rfl, rfl⟩, fun _ => rfl, fun _ _ => rfl⟩

end Sys2Proof

/-! PROOF of O1 to O6, O20 and O22: the encodings, what a step fetches, the reserved commands, and DECODE. O1 decodes the line of each
instruction, format by format. O2 and O3 go the other way: an aligned offset is in the reserved range, a KEYMAP entry, or one of sixteen
registers, and in each case the row that a 32-bit access selects encodes to that access. -/

namespace Sys2Proof

/-! ### Register offsets -/

/-- The sixteen registers below KEYMAP (R40). -/
def registerOffsets : List (BitVec 8) :=
  [0x00#8, 0x04#8, 0x08#8, 0x0C#8, 0x10#8, 0x14#8, 0x18#8, 0x1C#8, 0x20#8, 0x24#8, 0x28#8, 0x2C#8, 0x30#8, 0x34#8, 0x38#8, 0x3C#8]

/-- An aligned offset is in the reserved range, a KEYMAP entry or a register (R40). -/
theorem aligned_offset_cases {o : BitVec 8} (h0 : o.getLsbD 0 = false) (h1 : o.getLsbD 1 = false) :
    o.getLsbD 7 = true ∨ (∃ k, o = keymapOffset k) ∨ o ∈ registerOffsets := by
  revert o; decide

theorem isReservedOffset_iff {o : BitVec 8} :
    isReservedOffset o = true ↔ o.getLsbD 7 = true ∧ o.getLsbD 1 = false ∧ o.getLsbD 0 = false := by
  simp [isReservedOffset, and_assoc]

theorem aligned_iff {o : BitVec 8} : o.extractLsb' 0 2 = 0b00#2 ↔ o.getLsbD 0 = false ∧ o.getLsbD 1 = false := by
  revert o; decide

theorem decodeWrite_reserved {o : BitVec 8} (h7 : o.getLsbD 7 = true) (d : Word) : decodeWrite o d = .wrRsvd o d := if_pos h7

theorem decodeRead_reserved {o : BitVec 8} (h7 : o.getLsbD 7 = true) : decodeRead o = .rdRsvd o := if_pos h7

/-! ### Bus errors -/

theorem size_cases (size : BitVec 2) : size = 0b00#2 ∨ size = 0b01#2 ∨ size = 0b11#2 ∨ size = 0b10#2 := by
  revert size; decide

theorem decodeBus_alignB0 {o : BitVec 8} (we : BitVec 1) (d : Word) (h0 : o.getLsbD 0 = true) :
    decodeBus (busWord we 0b10#2 o d) = .busErrAlignB0 we o d := by
  rw [decodeBus_busWord, h0]; rfl

theorem decodeBus_alignB1 {o : BitVec 8} (we : BitVec 1) (d : Word) (h0 : o.getLsbD 0 = false) (h1 : o.getLsbD 1 = true) :
    decodeBus (busWord we 0b10#2 o d) = .busErrAlignB1 we o d := by
  rw [decodeBus_busWord, h0, h1]; rfl

theorem alignB1_wf_iff {o : BitVec 8} (we : BitVec 1) (d : Word) :
    (Instr.busErrAlignB1 we o d).wf = true ↔ o.getLsbD 1 = true ∧ o.getLsbD 0 = false := by
  simp [Instr.wf]

/-! ### What a word selects has an encoding -/

/-- `i` is well formed and `l` is its line. -/
def EncodesTo (i : Instr) (l : Line) : Prop := i.wf = true ∧ encode i = some l

theorem decodeWrite_encodesTo {o : BitVec 8} (d : Word) (h0 : o.getLsbD 0 = false) (h1 : o.getLsbD 1 = false) :
    EncodesTo (decodeWrite o d) (busWrite o d) := by
  rcases aligned_offset_cases h0 h1 with h7 | ⟨k, rfl⟩ | hreg
  · rw [decodeWrite_reserved h7]
    exact ⟨isReservedOffset_iff.2 ⟨h7, h1, h0⟩, rfl⟩
  · rw [Machine.decodeWrite_keymap]
    exact ⟨rfl, rfl⟩
  · have rows : ∀ o ∈ registerOffsets, EncodesTo (decodeWrite o d) (busWrite o d) := by
      simp only [registerOffsets, List.forall_mem_cons]
      exact ⟨⟨rfl, rfl⟩, ⟨rfl, rfl⟩, ⟨rfl, rfl⟩, ⟨rfl, rfl⟩, ⟨rfl, rfl⟩, ⟨rfl, rfl⟩, ⟨rfl, rfl⟩, ⟨rfl, rfl⟩, ⟨rfl, rfl⟩, ⟨rfl, rfl⟩,
        ⟨rfl, rfl⟩, ⟨rfl, rfl⟩, ⟨rfl, rfl⟩, ⟨rfl, rfl⟩, ⟨rfl, rfl⟩, ⟨rfl, rfl⟩, List.forall_mem_nil _⟩
    exact rows o hreg

theorem decodeRead_encodesTo {o : BitVec 8} (h0 : o.getLsbD 0 = false) (h1 : o.getLsbD 1 = false) :
    EncodesTo (decodeRead o) (busRead o) := by
  rcases aligned_offset_cases h0 h1 with h7 | ⟨k, rfl⟩ | hreg
  · rw [decodeRead_reserved h7]
    exact ⟨isReservedOffset_iff.2 ⟨h7, h1, h0⟩, rfl⟩
  · rw [Machine.decodeRead_keymap]
    exact ⟨rfl, rfl⟩
  · have rows : ∀ o ∈ registerOffsets, EncodesTo (decodeRead o) (busRead o) := by unfold EncodesTo; decide
    exact rows o hreg

/-- The BUS word of an access with DATA as the encoder writes it: zero where a read ignores it (R143). -/
theorem decodeBus_encodesTo (we : BitVec 1) (size : BitVec 2) (o : BitVec 8) (d : Word) :
    EncodesTo (decodeBus (busWord we size o d))
      (.bus (busWord we size o (if size = 0b10#2 ∧ o.extractLsb' 0 2 = 0b00#2 ∧ we = 0#1 then 0#32 else d))) := by
  by_cases hread : size = 0b10#2 ∧ o.extractLsb' 0 2 = 0b00#2 ∧ we = 0#1
  · rw [if_pos hread]
    obtain ⟨rfl, ho, rfl⟩ := hread
    obtain ⟨h0, h1⟩ := aligned_iff.1 ho
    rw [Machine.decodeBus_read d h0 h1]
    exact decodeRead_encodesTo h0 h1
  · rw [if_neg hread]
    rcases size_cases size with rfl | rfl | rfl | rfl
    iterate 3
      · rw [decodeBus_busWord]
        exact ⟨rfl, rfl⟩
    · cases h0 : o.getLsbD 0 with
      | true =>
        rw [decodeBus_alignB0 we d h0]
        exact ⟨h0, rfl⟩
      | false =>
        cases h1 : o.getLsbD 1 with
        | true =>
          rw [decodeBus_alignB1 we d h0 h1]
          exact ⟨(alignB1_wf_iff we d).2 ⟨h1, h0⟩, rfl⟩
        | false =>
          have hwe : we = 1#1 := (BitVec.eq_zero_or_eq_one we).resolve_left fun h => hread ⟨rfl, aligned_iff.2 ⟨h0, h1⟩, h⟩
          rw [hwe, Machine.decodeBus_write d h0 h1]
          exact decodeWrite_encodesTo d h0 h1

/-- `i` is well formed and has an encoding. -/
def Encodable (i : Instr) : Prop := i.wf = true ∧ ∃ l, encode i = some l

theorem EncodesTo.encodable {i : Instr} {l : Line} (h : EncodesTo i l) : Encodable i := ⟨h.1, l, h.2⟩

theorem decodeBus_encodable (w : BitVec 43) : Encodable (decodeBus w) := by
  rw [← busWord_fields w]
  exact (decodeBus_encodesTo _ _ _ _).encodable

theorem decodeCmd_encodable (w : Word) : Encodable (decodeCmd w) := by
  unfold decodeCmd
  dsimp only
  split_ifs <;> exact ⟨rfl, _, rfl⟩

theorem decodeRaw_encodable {w : BitVec 64} {i : Instr} (h : decodeRaw w = .ok i) : Encodable i := by
  unfold decodeRaw at h
  dsimp only at h
  split_ifs at h <;> cases h <;> exact ⟨rfl, _, rfl⟩

theorem instrOfLabel_encodable (a : Label) (operand : BitVec 64) : Encodable (instrOfLabel a operand) := by
  cases a <;> exact ⟨rfl, _, rfl⟩

theorem decode_step {label : BitVec 4} {a : Label} (h : decodeLabel label = some a) (operand : BitVec 64) :
    decode (.step label operand) = .ok (instrOfLabel a operand) := by
  simp only [decode, h]

theorem decode_step_reserved {label : BitVec 4} (h : decodeLabel label = none) (operand : BitVec 64) :
    decode (.step label operand) = .error (.reservedLabel label) := by
  simp only [decode, h]

theorem decode_encodable {l : Line} {i : Instr} (h : decode l = .ok i) : Encodable i := by
  cases l with
  | cmd w => cases h; exact decodeCmd_encodable w
  | bus w => cases h; exact decodeBus_encodable w
  | raw w => exact decodeRaw_encodable h
  | step label operand =>
    cases ha : decodeLabel label with
    | none => rw [decode_step_reserved ha] at h; cases h
    | some a => rw [decode_step ha] at h; cases h; exact instrOfLabel_encodable a operand

/-- Settles O2: the line that the selected row encodes to is the word, DATA aside. -/
theorem encodeOfDecodeBus : Obligations.EncodeOfDecodeBus :=
  fun we size offset data => (decodeBus_encodesTo we size offset data).2

/-- Settles O3, format by format; that the MICRO rows have no line is read off the encoder. -/
theorem noWordSelectsMicro : Obligations.NoWordSelectsMicro := by
  refine ⟨fun _ _ => decode_encodable, fun v n e st x p => ?_⟩
  simp only [List.forall_mem_cons]
  exact ⟨rfl, rfl, rfl, rfl, rfl, rfl, rfl, rfl, rfl, rfl, rfl, rfl, rfl, rfl, List.forall_mem_nil _⟩

/-! ### The decoder on the encoder's lines -/

/-- The decoder on the fields of a CMD word (R141). -/
theorem decode_cmdWord (op key : BitVec 4) (note : BitVec 3) :
    decode (.cmd (cmdWord op key note)) = .ok (
      if op = 0x1#4 then .noteOn key note
      else if op = 0x2#4 then .noteOff key
      else if op = 0x0#4 then .cmdRsvd0
      else if op = 0x3#4 then .cmdRsvd3
      else if op.getLsbD 3 then .cmdRsvd8F (op.extractLsb' 0 3)
      else .cmdRsvd47 (op.extractLsb' 0 2)) := by
  have low (len : Nat) (h : len ≤ 4) : (cmdWord op key note).extractLsb' 0 len = op.extractLsb' 0 len := by
    unfold cmdWord
    rw [extract_low _ _ _ _ (by omega)]
  rw [decode, decodeCmd, cmdWord_op, cmdWord_key, cmdWord_note, low 2 (by omega), low 3 (by omega)]

theorem decode_busWrite {o : BitVec 8} (d : Word) (h0 : o.getLsbD 0 = false) (h1 : o.getLsbD 1 = false) :
    decode (busWrite o d) = .ok (decodeWrite o d) := congrArg _ (Machine.decodeBus_write d h0 h1)

theorem decode_busRead {o : BitVec 8} (h0 : o.getLsbD 0 = false) (h1 : o.getLsbD 1 = false) :
    decode (busRead o) = .ok (decodeRead o) := congrArg _ (Machine.decodeBus_read 0#32 h0 h1)

/-- The decoder on the fields of a RAW record of INPUT (R155). -/
theorem decode_rawWord {kind : BitVec 2} (h : kind ≠ 0b11#2) (st : Word) (index : BitVec 4) (data : BitVec 16) :
    decode (.raw (rawWord st kind index data)) = .ok (
      if kind = 0b00#2 then .encAb st index (data.extractLsb' 0 2)
      else if kind = 0b01#2 then .encBtn st index (data.extractLsb' 0 1)
      else .keyScan st data) := by
  rw [decode, decodeRaw, rawWord_stamp, rawWord_kind, rawWord_zero, rawWord_index, rawWord_data _ _ _ _ 0 2 (by omega),
    rawWord_data _ _ _ _ 0 1 (by omega), rawWord_data _ _ _ _ 0 16 (by omega), extract_all, if_neg h, if_neg (not_not.2 rfl)]
  split_ifs <;> rfl

theorem extract_operand {n m : Nat} (h : BitVec n) (x : BitVec m) : (h ++ x).extractLsb' 0 m = x := by
  rw [extract_low _ _ _ _ (by omega), extract_all]

theorem decode_rawRsvd (st : Word) (low : BitVec 30) : decode (.raw (st ++ 0b11#2 ++ low)) = .ok (.rawRsvd st low) := by
  have stamp : (st ++ 0b11#2 ++ low).extractLsb' 32 32 = st := by
    rw [extract_high _ _ _ _ (by omega), extract_high _ _ _ _ (by omega), extract_all]
  have kind : (st ++ 0b11#2 ++ low).extractLsb' 30 2 = 0b11#2 := by
    rw [extract_high _ _ _ _ (by omega), extract_low _ _ _ _ (by omega), extract_all]
  rw [decode, decodeRaw, stamp, kind, extract_operand, if_pos rfl]

/-- The line of `i`, if it has one, decodes to `i`. -/
def RoundTrips (i : Instr) : Prop := ∀ l, encode i = some l → decode l = .ok i

theorem RoundTrips.of_encode {i : Instr} {l : Line} (he : encode i = some l) (hd : decode l = .ok i) : RoundTrips i := by
  intro l' hl'
  cases he.symm.trans hl'
  exact hd

theorem roundTrips_of_wf {i : Instr} (h : i.wf = true) : RoundTrips i := by
  cases i with
  | noteOn | noteOff | cmdRsvd0 | cmdRsvd3 => exact .of_encode rfl (decode_cmdWord _ _ _)
  | cmdRsvd47 lo => exact .of_encode rfl ((decode_cmdWord _ _ _).trans (by clear h; revert lo; decide))
  | cmdRsvd8F lo => exact .of_encode rfl ((decode_cmdWord _ _ _).trans (by clear h; revert lo; decide))
  | wrCmd | wrStatus | wrIrqEn | wrRoEvent | wrAttack | wrDecay | wrSustain | wrRelease | wrCutoff | wrResonance | wrVolume | wrWave
  | wrNote | wrOctave | wrRoVoiceState | wrRoTick => exact .of_encode rfl (decode_busWrite _ rfl rfl)
  | rdCmd | rdStatus | rdIrqEn | rdEvent | rdAttack | rdDecay | rdSustain | rdRelease | rdCutoff | rdResonance | rdVolume | rdWave
  | rdNote | rdOctave | rdVoiceState | rdTick => exact .of_encode rfl (decode_busRead rfl rfl)
  | wrKeymap k d =>
    obtain ⟨h0, h1, _⟩ := Machine.keymapOffset_bits k
    exact .of_encode rfl (by rw [decode_busWrite d h0 h1, Machine.decodeWrite_keymap])
  | rdKeymap k =>
    obtain ⟨h0, h1, _⟩ := Machine.keymapOffset_bits k
    exact .of_encode rfl (by rw [decode_busRead h0 h1, Machine.decodeRead_keymap])
  | wrRsvd o d =>
    obtain ⟨h7, h1, h0⟩ := isReservedOffset_iff.1 h
    exact .of_encode rfl (by rw [decode_busWrite d h0 h1, decodeWrite_reserved h7])
  | rdRsvd o =>
    obtain ⟨h7, h1, h0⟩ := isReservedOffset_iff.1 h
    exact .of_encode rfl (by rw [decode_busRead h0 h1, decodeRead_reserved h7])
  | busErrSize8 | busErrSize16 | busErrSizeRsvd => exact .of_encode rfl (congrArg _ (decodeBus_busWord _ _ _ _))
  | busErrAlignB0 we o d => exact .of_encode rfl (congrArg Except.ok (decodeBus_alignB0 we d h))
  | busErrAlignB1 we o d =>
    obtain ⟨h1, h0⟩ := (alignB1_wf_iff we d).1 h
    exact .of_encode rfl (congrArg Except.ok (decodeBus_alignB1 we d h0 h1))
  | encAb | encBtn =>
    exact .of_encode rfl ((decode_rawWord (by decide) _ _ _).trans (by rw [extract_operand]; rfl))
  | keyScan => exact .of_encode rfl (decode_rawWord (by decide) _ _ _)
  | rawRsvd st low => exact .of_encode rfl (decode_rawRsvd st low)
  | host | capture | reset => exact .of_encode rfl ((decode_step rfl _).trans (by rw [instrOfLabel, extract_operand]))
  | dmaHt | dmaTc | tick | decode | passStart | frame => exact .of_encode rfl ((decode_step rfl _).trans rfl)
  | _ => intro l hl; cases hl -- the MICRO rows have no line

/-- Settles O1, row by row: each line is decoded through the fields it was built from. -/
theorem decodeOfEncode : Obligations.DecodeOfEncode := fun _ l h => roundTrips_of_wf h l

/-- Settles O4: the decoder evaluates each word to its row. -/
theorem decodesSpecWords : Obligations.DecodesSpecWords := ⟨rfl, rfl, rfl, rfl, rfl, rfl, rfl, rfl, rfl, rfl⟩

end Sys2Proof

namespace Sys2Proof.Machine

/-! ### Fetching -/

theorem decodeLabel_eq_none_iff (label : BitVec 4) :
    decodeLabel label = none ↔ label = 0x6#4 ∨ label = 0x7#4 ∨ 0xB ≤ label.toNat := by
  revert label; decide

section
variable {s t : State} {l : Line} {rest : List Line} {i : Instr}

theorem fetch_eager (h : eagerChoice s = some i) : fetch s = .run i s := by
  unfold fetch; rw [h]

theorem fetch_cons (h : eagerChoice s = none) (hl : s.lines = l :: rest) : fetch s = fetchLine l { s with lines := rest } := by
  unfold fetch; rw [h, hl]

theorem fetch_nil (h : eagerChoice s = none) (hl : s.lines = []) :
    fetch s = .run (drawnInstr s.drawn) { s with drawn := s.drawn + 1 } := by
  unfold fetch; rw [h, hl]

theorem fetchLine_ok (h : decode l = .ok i) : fetchLine l s = .run i s := by
  unfold fetchLine; rw [h]

theorem fetchLine_rawNoRow (h : decode l = .error .rawNoRow) : fetchLine l s = .discard s := by
  unfold fetchLine; rw [h]

theorem fetchLine_reserved {label : BitVec 4} (h : decode l = .error (.reservedLabel label)) : fetchLine l s = .reserved label := by
  unfold fetchLine; rw [h]

theorem step_of_run (hc : s.cfg.legal = true) (h : fetch s = .run i t) : step s = exec i t := by
  unfold step; rw [if_pos hc, h]

theorem step_of_discard (hc : s.cfg.legal = true) (h : fetch s = .discard t) : step s = .next t := by
  unfold step; rw [if_pos hc, h]

theorem step_of_reserved {label : BitVec 4} (hc : s.cfg.legal = true) (h : fetch s = .reserved label) :
    step s = .refused (.reservedLabel label) := by
  unfold step; rw [if_pos hc, h]

/-- A line that decodes runs where the eager schedule has no choice to make. -/
theorem step_line (hc : s.cfg.legal = true) (he : eagerChoice s = none) (hl : s.lines = l :: rest) (hd : decode l = .ok i) :
    step s = exec i { s with lines := rest } :=
  step_of_run hc ((fetch_cons he hl).trans (fetchLine_ok hd))

theorem step_eager (hc : s.cfg.legal = true) (h : eagerChoice s = some i) : step s = exec i s :=
  step_of_run hc (fetch_eager h)

theorem eagerChoice_off (h : s.eager = false) : eagerChoice s = none := by
  unfold eagerChoice; rw [h]; rfl

/-- The order of R172. -/
theorem eagerChoice_on (h : s.eager = true) :
    eagerChoice s =
      if decodeEnabled s then some .decode
      else if passStartEnabled s then some .passStart
      else if frameEnabled s then some .frame
      else none := by
  unfold eagerChoice; rw [h]; rfl

theorem decodeEnabled_iff : decodeEnabled s = true ↔ s.rawq ≠ [] := by simp [decodeEnabled]

theorem decode_of_decodeTableWord {nbits w : Nat} (h : decodeTableWord nbits w = some i) : decode (tableLine nbits w) = .ok i := by
  unfold decodeTableWord at h
  split at h
  · next hd => rw [hd]; cases h; rfl
  · cases h

end

end Sys2Proof.Machine

namespace Sys2Proof

open Machine

/-- Settles O5, by what the fetch finds: a row, a record of no row, a reserved label, a draw. -/
theorem stepRunsDecoded : Obligations.StepRunsDecoded := by
  refine ⟨fun s l rest hc he hl => ⟨fun i => step_line hc (eagerChoice_off he) hl, fun hd => ?_, fun label operand hstep => ?_⟩,
    fun s hc he hl => step_of_run hc (fetch_nil (eagerChoice_off he) hl),
    fun s nbits w i hc hw => step_line (s := s.withFetchWord nbits w) hc (eagerChoice_off rfl) rfl (decode_of_decodeTableWord hw)⟩
  · exact step_of_discard hc ((fetch_cons (eagerChoice_off he) hl).trans (fetchLine_rawNoRow hd))
  · subst hstep
    rw [← decodeLabel_eq_none_iff]
    constructor
    · intro hr
      exact step_of_reserved hc
        ((fetch_cons (eagerChoice_off he) hl).trans (fetchLine_reserved (decode_step_reserved hr operand)))
    · intro hr
      obtain ⟨a, ha⟩ := Option.ne_none_iff_exists'.1 hr
      exact ⟨_, decode_step ha operand⟩

/-- Settles O6: each clause is one branch of the eager choice. -/
theorem eagerSchedule : Obligations.EagerSchedule := by
  intro s hc he
  have choice := eagerChoice_on he
  refine ⟨fun hq => step_eager hc ?_, fun hq hb hn => step_eager hc ?_, fun hq hb => step_eager hc ?_,
    fun l rest i hq hb hn hl hd => step_line hc ?_ hl hd⟩
  · rw [choice, if_pos (decodeEnabled_iff.2 hq)]
  · simp [choice, decodeEnabled, passStartEnabled, hq, hb, hn]
  · simp [choice, decodeEnabled, passStartEnabled, frameEnabled, hq, hb]
  · simp [choice, decodeEnabled, passStartEnabled, frameEnabled, hq, hb, hn]

end Sys2Proof

namespace Sys2Proof.Machine

/-! ### Reserved commands and records -/

/-- The four rows of the reserved OPs, at the low bits of a CMD word. -/
theorem decodeCmd_reserved {w : Word} (h1 : w.extractLsb' 0 4 ≠ 0x1#4) (h2 : w.extractLsb' 0 4 ≠ 0x2#4) :
    decodeCmd w ∈ [Instr.cmdRsvd0, .cmdRsvd3, .cmdRsvd47 (w.extractLsb' 0 2), .cmdRsvd8F (w.extractLsb' 0 3)] := by
  unfold decodeCmd
  dsimp only
  rw [if_neg h1, if_neg h2]
  split_ifs <;> simp

theorem decodeStep_cons {r : BitVec 64} {rest : List (BitVec 64)} {s : State} (h : s.rawq = r :: rest) :
    decodeStep s = decodeRecord r { s with rawq := rest } := by
  unfold decodeStep; rw [h]

theorem exec_decode (s : State) : exec .decode s = .next (decodeStep s) := rfl

theorem decodeRecord_discarded {r : BitVec 64} (s : State) (h : r.extractLsb' 20 10 ≠ 0#10 ∨ r.extractLsb' 30 2 = 0b11#2) :
    decodeRecord r s = s := if_pos h

/-- The rule that a record of KIND 00, 01 or 10 with bits 29:20 zero runs (R155, R400). -/
theorem decodeRecord_of_kind {r : BitVec 64} (s : State) (hz : r.extractLsb' 20 10 = 0#10) (hk : r.extractLsb' 30 2 ≠ 0b11#2) :
    decodeRecord r s =
      if r.extractLsb' 30 2 = 0b00#2 then encAb (r.extractLsb' 16 4) (r.extractLsb' 0 2) (r.extractLsb' 32 32) s
      else if r.extractLsb' 30 2 = 0b01#2 then encBtn (r.extractLsb' 16 4) (r.extractLsb' 0 1) (r.extractLsb' 32 32) s
      else keyScan (r.extractLsb' 0 16) (r.extractLsb' 32 32) s := by
  have data (len : Nat) (h : len ≤ 16) : (rawData r).extractLsb' 0 len = r.extractLsb' 0 len := by
    ext i hi
    simp [rawData, show i < 16 by omega]
  unfold decodeRecord
  rw [data 2 (by omega), data 1 (by omega)]
  exact if_neg (by simp [rawZero, rawKind, hz, hk])

end Sys2Proof.Machine

namespace Sys2Proof

open Machine

/-- Settles O20: the four rows run one rule, and a reserved OP leaves the decoder only these. -/
theorem reservedCommands : Obligations.ReservedCommands := by
  refine ⟨fun lo2 lo3 s => ?_, fun w h1 h2 => ⟨_, _, decodeCmd_reserved h1 h2⟩⟩
  have hm : SameMemory s (setSticky bitCmdErr s) := sameMemory_of rfl rfl
  simp only [List.forall_mem_cons]
  exact ⟨⟨_, rfl, rfl, hm⟩, ⟨_, rfl, rfl, hm⟩, ⟨_, rfl, rfl, hm⟩, ⟨_, rfl, rfl, hm⟩, List.forall_mem_nil _⟩

/-- Settles O22: the record leaves RAWQ, and KIND and the zero bits choose the rule. -/
theorem decodeRunsRecord : Obligations.DecodeRunsRecord := by
  intro r rest s hq
  rw [exec_decode, decodeStep_cons hq]
  refine ⟨⟨_, rfl⟩, fun h => by rw [decodeRecord_discarded _ h.symm], fun hz => ⟨fun hk => ?_, fun hk => ?_, fun hk => ?_⟩,
    fun _ _ _ => rfl⟩
  all_goals
    rw [decodeRecord_of_kind _ hz (by rw [hk]; decide), hk]
    rfl

end Sys2Proof

/-! PROOF of O40 to O44, the envelopes. An ENV row is an advance of its voice where the voice is in the row's state, so each statement
is read off what an advance does in one state (R202-R206). -/

namespace Sys2Proof.Machine

/-! ### The ENV rows -/

/-- The row that R200 dispatches a voice in state `e` to. -/
def envRow (v : BitVec 3) : Env → Instr
  | .idle => .envIdle v
  | .attack => .envAttack v
  | .decay => .envDecay v
  | .sustain => .envSustain v
  | .release => .envRelease v

theorem whenEnv_congr {e : Env} {f g : Voice → Voice} (h : ∀ x, x.env = e → f x = g x) : whenEnv e f = whenEnv e g := by
  funext x
  unfold whenEnv
  split
  · next he => exact h x he
  · rfl

/-- ENV_ADVANCE through its row (R200). -/
theorem exec_envRow (v : BitVec 3) (e : Env) (s : State) :
    exec (envRow v e) s = .next (modifyVoice v.toNat (whenEnv e envAdvance) s) := by
  have row {f : Voice → Voice} (h : ∀ x, x.env = e → f x = envAdvance x) :
      (.next (modifyVoice v.toNat (whenEnv e f) s) : StepOutcome) = .next (modifyVoice v.toNat (whenEnv e envAdvance) s) := by
    rw [whenEnv_congr h]
  cases e <;> exact row fun x he => by simp only [envAdvance, he]

section
variable {v : BitVec 3} {e : Env} {s : State} {x : Voice}

theorem exec_envRow_of_env (hx : s.voices[v.toNat]? = some x) (he : x.env = e) :
    exec (envRow v e) s = .next { s with voices := s.voices.set v.toNat (envAdvance x) } := by
  rw [exec_envRow, modifyVoice, modify_eq_set _ hx, whenEnv, if_pos he]

theorem envWrites_envAdvance (v : Nat) (x : Voice) (s : State) :
    EnvWrites v x (envAdvance x) s { s with voices := s.voices.set v (envAdvance x) } :=
  ⟨rfl, envAdvance_frame x, sameMemory_of rfl rfl⟩

theorem exec_envRow_voicesOk (v : BitVec 3) (e : Env) (h : VoicesOk s) : ∃ t, exec (envRow v e) s = .next t ∧ VoicesOk t :=
  ⟨_, exec_envRow v e s, voicesOk_modify _ _ h fun x hx =>
    whenEnv_ok e envAdvance (h.each x (List.mem_of_getElem? hx)) fun _ => rfl⟩

end

/-! ### The ramping stages -/

/-- The common form of R203, R204 and R206: an advance in state `e` that has `reached` the stage's bound, or counts the last step, gives
`last`; any other moves the level on and counts one step. -/
def RampRule (e : Env) (level : Voice → F32) (reached : Voice → Bool) (last : Voice → Voice) : Prop :=
  ∀ x : Voice, x.env = e → envAdvance x =
    if reached x = true ∨ x.left = 1#32 then last x else { x with level := level x, left := x.left - 1#32 }

theorem pred_beq_zero_iff (n : Word) : (n - 1#32 == 0#32) = true ↔ n = 1#32 := by
  rw [beq_iff_eq]
  exact sub_eq_zero

/-- R203. -/
theorem attackRule : RampRule .attack (fun x => fadd x.level x.step) (fun x => fle fone (fadd x.level x.step))
    (fun x => beginStage (fsub fone x.sus) x.dec { x with env := .decay, level := fone }) := by
  intro x he
  simp only [envAdvance, he, envAttack, Bool.or_eq_true, pred_beq_zero_iff]
  rfl

/-- R204. -/
theorem decayRule : RampRule .decay (fun x => fsub x.level x.step) (fun x => fle (fsub x.level x.step) x.sus)
    (fun x => { x with env := .sustain, level := x.sus, step := fzero, left := 0#32 }) := by
  intro x he
  simp only [envAdvance, he, envDecay, Bool.or_eq_true, pred_beq_zero_iff]

/-- R206. -/
theorem releaseRule : RampRule .release (fun x => fsub x.level x.step) (fun x => fle (fsub x.level x.step) fzero)
    (fun x => { x with env := .idle, level := fzero, step := fzero, left := 0#32 }) := by
  intro x he
  simp only [envAdvance, he, envRelease, Bool.or_eq_true, pred_beq_zero_iff]

namespace RampRule

variable {e : Env} {level : Voice → F32} {reached : Voice → Bool} {last : Voice → Voice} {x : Voice}

theorem ends (h : RampRule e level reached last) (he : x.env = e) (hend : reached x = true ∨ x.left = 1#32) :
    envAdvance x = last x := (h x he).trans (if_pos hend)

theorem counts (h : RampRule e level reached last) (he : x.env = e) (hl : x.left ≠ 0#32) (hr : reached x = false)
    (h1 : x.left ≠ 1#32) :
    (envAdvance x).level = level x ∧ (envAdvance x).env = e ∧ (envAdvance x).step = x.step ∧
      (envAdvance x).left.toNat = x.left.toNat - 1 := by
  rw [h x he, if_neg (not_or.2 ⟨Bool.eq_false_iff.1 hr, h1⟩)]
  exact ⟨rfl, he, rfl, toNat_left_pred hl⟩

/-- R207: a stage is over within as many advances as its counter holds, by induction on the counter. -/
theorem length (h : RampRule e level reached last) {e' : Env} {bound : F32} (he : x.env = e) (hl : x.left ≠ 0#32)
    (hlast : ∀ z, z.sus = x.sus → (last z).env = e' ∧ (last z).level = bound) :
    ∃ k, 1 ≤ k ∧ k ≤ x.left.toNat ∧ (∀ j < k, (envAdvance^[j] x).env = e) ∧
      (envAdvance^[k] x).env = e' ∧ (envAdvance^[k] x).level = bound := by
  induction hn : x.left.toNat generalizing x with
  | zero => exact absurd (BitVec.eq_of_toNat_eq hn) hl
  | succ n ih =>
    by_cases hend : reached x = true ∨ x.left = 1#32
    · refine ⟨1, le_rfl, by omega, fun j hj => by rwa [Nat.lt_one_iff.1 hj], ?_⟩
      rw [Function.iterate_one, h.ends he hend]
      exact hlast x rfl
    · obtain ⟨hr, h1⟩ := not_or.1 hend
      obtain ⟨_, he', _, hcount⟩ := h.counts he hl (Bool.eq_false_iff.2 hr) h1
      have hne : (envAdvance x).left ≠ 0#32 := by bv_omega
      have hsus : (envAdvance x).sus = x.sus := by rw [envAdvance_frame]
      obtain ⟨k, _, hk, hstay, hdone⟩ := ih he' hne (fun z hz => hlast z (hz.trans hsus)) (by omega)
      refine ⟨k + 1, by omega, by omega, fun j hj => ?_, hdone⟩
      cases j with
      | zero => exact he
      | succ j => exact hstay j (by omega)

end RampRule

/-! ### Levels -/

theorem inUnit.fle_bounds {a : F32} (h : inUnit a) : fle fzero a = true ∧ fle a fone = true :=
  ⟨(fle_iff inUnit_fzero.notNegative h.notNegative).2 (Nat.zero_le _), (fle_iff h.notNegative inUnit_fone.notNegative).2 h⟩

theorem exec_frame_completes {s : State} (h : s.Inv) : ∃ t, exec .frame s = .next t := by
  show ∃ t, execFrame s = .next t
  unfold execFrame
  split
  · exact ⟨_, renderFrame_next h.cfg h.seq⟩
  · exact ⟨_, rfl⟩

end Sys2Proof.Machine

namespace Sys2Proof

open Machine

/-- Settles O41, from R203 and the count that the ramping stages share. -/
theorem envAttack : Obligations.EnvAttack := by
  rintro v s x _ _ hx he hl rfl rfl
  refine ⟨_, _, exec_envRow_of_env hx he, envWrites_envAdvance _ x s, fun hend => ?_, attackRule.counts he hl⟩
  rw [attackRule.ends he hend, ← toNat_atLeastOne]
  exact ⟨rfl, rfl, rfl, rfl⟩

/-- Settles O42, from R204, R206 and the count that the ramping stages share. -/
theorem envFalling : Obligations.EnvFalling := by
  rintro v s x _ hx hl rfl
  refine ⟨fun he => ⟨_, _, exec_envRow_of_env hx he, envWrites_envAdvance _ x s, fun hend => ?_, decayRule.counts he hl⟩,
    fun he => ⟨_, _, exec_envRow_of_env hx he, envWrites_envAdvance _ x s, fun hend => ?_, releaseRule.counts he hl⟩⟩
  · rw [decayRule.ends he hend]
    exact ⟨rfl, rfl, rfl, rfl⟩
  · rw [releaseRule.ends he hend]
    exact ⟨rfl, rfl, rfl, rfl⟩

/-- Settles O43: an ENV row and a FRAME keep the voices legal, and a legal level lies in [0, 1]. -/
theorem levelBounds : Obligations.LevelBounds := by
  refine ⟨fun v s h => ?_, fun s h => ?_⟩
  · have row (e : Env) : ∃ t, exec (envRow v e) s = .next t ∧ ∀ x ∈ t.voices, fle fzero x.level = true ∧ fle x.level fone = true := by
      obtain ⟨t, ht, hv⟩ := exec_envRow_voicesOk v e h
      exact ⟨t, ht, fun x hx => (hv.each x hx).level.fle_bounds⟩
    simp only [List.forall_mem_cons]
    exact ⟨row .idle, row .attack, row .decay, row .sustain, row .release, List.forall_mem_nil _⟩
  · obtain ⟨t, ht⟩ := exec_frame_completes h
    exact ⟨t, ht, fun x hx => ((inv_exec h ht).voices.each x hx).level.fle_bounds⟩

/-- Settles O44: each of the three stages ends within its counter, and an advance keeps the sustain level Decay ends at. -/
theorem stageLength : Obligations.StageLength := fun _ hl =>
  ⟨fun he => attackRule.length he hl fun _ _ => ⟨rfl, rfl⟩, fun he => decayRule.length he hl fun _ hsus => ⟨rfl, hsus⟩,
    fun he => releaseRule.length he hl fun _ _ => ⟨rfl, rfl⟩⟩

/-- Settles O40: an advance of an Idle voice writes its level, one of a voice in Sustain nothing. -/
theorem envIdleSustain : Obligations.EnvIdleSustain := by
  intro v s x hx
  refine ⟨fun he => (exec_envRow_of_env hx he).trans ?_, fun he => (exec_envRow_of_env hx he).trans ?_⟩
  · simp only [envAdvance, he, envIdle, fzero]
  · have hset : s.voices.set v.toNat x = s.voices := (modify_eq_set id hx).symm.trans (List.modify_id _ _)
    simp only [envAdvance, he, envSustain, hset]

end Sys2Proof

/-! PROOF of O45 to O47, the oscillator. An OSC row is its rule on one voice, so each statement comes down to numbers: FS/2 and the
octaves' factors are exact and a tuning word is a floor (R242, R243), a table entry is a floor of a fraction (R249), and k advances
are one addition modulo 2^32 (R248). -/

namespace Sys2Proof.Machine

/-! ### A row on one voice -/

section
variable {v : BitVec 3} {s : State} {x : Voice}

theorem modifyVoice_of_getElem? {u : Nat} (f : Voice → Voice) (hx : s.voices[u]? = some x) :
    modifyVoice u f s = { s with voices := s.voices.set u (f x) } := by
  rw [modifyVoice, modify_eq_set f hx]

theorem exec_oscTune (n : BitVec 3) (hx : s.voices[v.toNat]? = some x) :
    exec (.oscTune v n) s = .next { s with voices := s.voices.set v.toNat (oscTune s.cfg n s.regs.octave x) } :=
  congrArg Host.Outcome.next (modifyVoice_of_getElem? _ hx)

theorem exec_oscAdvance (hx : s.voices[v.toNat]? = some x) :
    exec (.oscAdvance v) s = .next { s with voices := s.voices.set v.toNat (oscAdvance x) } :=
  congrArg Host.Outcome.next (modifyVoice_of_getElem? _ hx)

theorem exec_oscLookup (hx : s.voices[v.toNat]? = some x) :
    exec (.oscLookup v) s = .next { s with answer := .raw (oscLookup s.cfg s.regs.wave x) } := by
  show execOscLookup v s = _
  rw [execOscLookup, hx]
  rfl

end

/-! ### Frequencies -/

/-- RN keeps a number that binary32 holds, whatever fraction it is written as. -/
theorem fval_fround_exact {num den n e : ℕ} (hden : 0 < den) (h : num * 2 ^ 149 = n * 2 ^ e * den) (hn : n < 2 ^ 24)
    (he : 23 ≤ e) (he' : e ≤ 149) : fval (fround false num den) = n * 2 ^ e := by
  obtain ⟨-, hunits⟩ := rnCode_exact hn he he'
  rw [fround, h, rnCode_scale _ hden, fval_fpack _ (rnCode_lt _ _), hunits]
  simp

/-- The factor of an octave is exact (R240). -/
theorem fval_fpow2 {o : ℤ} (h1 : -8 ≤ o) (h2 : o ≤ 8) : (fval (fpow2 o) : ℚ) = 2 ^ o * 2 ^ 149 := by
  unfold fpow2
  split_ifs with h0
  · obtain ⟨n, rfl⟩ := Int.eq_ofNat_of_zero_le h0
    have hlt : 2 ^ n < 2 ^ 24 := Nat.pow_lt_pow_right (by omega) (by omega)
    rw [Int.natAbs_natCast, fval_fround_exact (n := 2 ^ n) (e := 149) one_pos (by ring) hlt (by omega) le_rfl,
      zpow_natCast]
    norm_cast
  · obtain ⟨n, rfl⟩ := Int.exists_eq_neg_ofNat (not_le.1 h0).le
    have hsplit : 2 ^ 149 = 2 ^ (149 - n) * 2 ^ n := by rw [← pow_add]; congr 1; omega
    rw [Int.natAbs_neg, Int.natAbs_natCast, fval_fround_exact (n := 1) (e := 149 - n) (by positivity)
      (by rw [one_mul, one_mul, hsplit]) (by omega) (by omega) (by omega)]
    push_cast
    rw [zpow_neg, zpow_natCast, one_mul, eq_inv_mul_iff_mul_eq₀ (by positivity), mul_comm]
    exact_mod_cast hsplit.symm

/-- The maximum and the minimum of two finite values, as R9's clamp chooses them. -/
theorem fval_max_min {a b : F32} (ha : isFinite a = true) (hb : isFinite b = true) :
    (isFinite (if fle a b then b else a) = true ∧ fval (if fle a b then b else a) = max (fval a) (fval b)) ∧
      isFinite (if fle a b then a else b) = true ∧ fval (if fle a b then a else b) = min (fval a) (fval b) := by
  by_cases h : fle a b = true
  · have hle := (fle_iff_fval_le ha hb).1 h
    simp [h, ha, hb, hle]
  · have hle := (not_le.1 (mt (fle_iff_fval_le ha hb).2 h)).le
    simp [h, ha, hb, hle]

theorem fclamp_of_isFinite {x lo hi : F32} (hx : isFinite x = true) (hlo : isFinite lo = true) (hhi : isFinite hi = true) :
    isFinite (fclamp x lo hi) = true ∧ fval (fclamp x lo hi) = min (max (fval x) (fval lo)) (fval hi) := by
  obtain ⟨hmax, hval⟩ := (fval_max_min hlo hx).1
  rw [max_comm, ← hval]
  exact (fval_max_min hmax hhi).2

/-- The tuning word is the nearest integer to `f 2^32 / FS`, ties upward, in exact arithmetic (R243). -/
theorem tuningWord_floor {c : Params} {f : F32} (h0 : 0 < c.fs) (hu : funits f ≤ c.fs * 2 ^ 148) :
    ((tuningWord c f).toNat : ℤ) = ⌊(funits f : ℚ) / 2 ^ 149 * 2 ^ 32 / c.fs + 1 / 2⌋ := by
  have hfrac : (funits f : ℚ) / 2 ^ 149 * 2 ^ 32 / c.fs + 1 / 2 =
      (2 * funits f * 2 ^ 32 + c.fs * 2 ^ 149 : ℕ) / (2 * c.fs * 2 ^ 149 : ℕ) := by
    have : (c.fs : ℚ) ≠ 0 := by exact_mod_cast h0.ne'
    push_cast
    field_simp
    ring
  rw [hfrac, Rat.floor_natCast_div_natCast, (tuningWord_exact h0 hu).1, Int.natCast_ediv]

/-- The frequency of a note, as a number of units, lies between 0 and FS/2 (R242). -/
theorem noteFrequency_units {c : Params} (hl : c.legal = true) (n : BitVec 3) {o : ℤ} (h1 : -8 ≤ o) (h2 : o ≤ 8) :
    fval (noteFrequency c n o) = funits (noteFrequency c n o) ∧ funits (noteFrequency c n o) ≤ c.fs * 2 ^ 148 := by
  obtain ⟨-, hfs, -, hnotes⟩ := legal_rates hl
  obtain ⟨hsign, hle⟩ := noteFrequency_range hfs hnotes n h1 h2
  obtain ⟨hnyq, -, hunits⟩ := nyquist_exact hfs
  refine ⟨fval_of_sign hsign.sign, ?_⟩
  rwa [← hunits, funits_le_iff, hsign.code, hnyq.code]

/-! ### The wavetable bank -/

theorem legal_bank {c : Params} (h : c.legal = true) :
    1 ≤ c.tableLog2 ∧ c.tableLog2 ≤ 16 ∧ c.sine.length = c.tableLen ∧ ∀ y ∈ c.sine, -32767 ≤ y ∧ y ≤ 32767 := by
  simp only [Params.legal, Bool.and_eq_true, decide_eq_true_eq, List.all_eq_true] at h
  obtain ⟨_, _, _, _, _, h1, h2, _, _, _, _, _, _, _, _, _, _, _, _, _, _, _, _, _, _, _, _, _, _, _, _, _, _, _, _, _, _, _, _,
    h3, h4⟩ := h
  exact ⟨h1, h2, h3, h4⟩

/-- T is even, so that the square and the triangle turn at its middle. -/
theorem two_dvd_tableLen {c : Params} (h : c.legal = true) : 2 ∣ c.tableLen :=
  dvd_pow_self 2 (Nat.one_le_iff_ne_zero.1 (legal_bank h).1)

theorem tableIndex_lt {c : Params} (h : c.legal = true) (p : Word) : tableIndex c p < c.tableLen := by
  obtain ⟨-, h16, -⟩ := legal_bank h
  refine Nat.div_lt_of_lt_mul ?_
  rw [Params.tableLen, ← pow_add, Nat.sub_add_cancel (by omega)]
  exact p.isLt

theorem wavetable_sine {c : Params} {i : ℕ} (h : c.legal = true) (hi : i < c.tableLen) : c.sine[i]? = some (wavetable c 0#2 i) := by
  obtain ⟨-, -, hlen, -⟩ := legal_bank h
  have hi' : i < c.sine.length := hlen ▸ hi
  simp [wavetable, hi']

theorem wavetable_saw (c : Params) (i : ℕ) : wavetable c 1#2 i = ⌊((2 * i - c.tableLen) * 32767 : ℚ) / c.tableLen⌋ := by
  have h := Rat.floor_intCast_div_natCast ((2 * i - c.tableLen) * 32767) c.tableLen
  push_cast at h
  exact h.symm

theorem wavetable_square {c : Params} (h : c.legal = true) (i : ℕ) :
    wavetable c 2#2 i = if 2 * (i : ℤ) < c.tableLen then 32767 else -32767 := by
  have := two_dvd_tableLen h
  show (if i < c.tableLen / 2 then (32767 : ℤ) else -32767) = _
  congr 1
  apply propext
  omega

theorem wavetable_triangle {c : Params} (h : c.legal = true) (i : ℕ) :
    wavetable c 3#2 i = if 2 * (i : ℤ) < c.tableLen then -32767 + ⌊(4 * 32767 * i : ℚ) / c.tableLen⌋
      else 32767 - ⌊(4 * 32767 * (i - c.tableLen / 2) : ℚ) / c.tableLen⌋ := by
  have heven := two_dvd_tableLen h
  have hfloor (j : ℕ) : ((4 * 32767 * j / c.tableLen : ℕ) : ℤ) = ⌊(4 * 32767 * j : ℚ) / c.tableLen⌋ := by
    rw [Int.natCast_ediv, ← Rat.floor_natCast_div_natCast]
    norm_cast
  show (if i < c.tableLen / 2 then (-32767 : ℤ) + (4 * 32767 * i / c.tableLen : ℕ)
    else 32767 - (4 * 32767 * (i - c.tableLen / 2) / c.tableLen : ℕ)) = _
  by_cases hi : 2 * (i : ℤ) < c.tableLen
  · rw [if_pos (by omega), if_pos hi, hfloor]
  · rw [if_neg (by omega), if_neg hi, hfloor, Nat.cast_sub (by omega), Nat.cast_div heven (by norm_num), Nat.cast_ofNat]

/-- Every entry is a signed 16-bit number other than -32768 (R249). -/
theorem wavetable_bounds {c : Params} {i : ℕ} (h : c.legal = true) (hi : i < c.tableLen) (w : BitVec 2) :
    -32767 ≤ wavetable c w i ∧ wavetable c w i ≤ 32767 := by
  have heven := two_dvd_tableLen h
  -- over half the table the triangle moves by at most twice its amplitude
  have hramp {j : ℕ} (hj : 2 * j ≤ c.tableLen) : 4 * 32767 * j / c.tableLen ≤ 2 * 32767 := Nat.div_le_of_le_mul (by omega)
  unfold wavetable
  simp only []
  split_ifs
  · obtain ⟨-, -, hlen, hsine⟩ := legal_bank h
    rw [List.getD_eq_getElem _ _ (hlen ▸ hi)]
    exact hsine _ (List.getElem_mem _)
  · exact ⟨Int.le_ediv_of_mul_le (by omega) (by omega), Int.lt_add_one_iff.1 (Int.ediv_lt_of_lt_mul (by omega) (by omega))⟩
  · decide
  · decide
  · have hq := hramp (j := i) (by omega)
    generalize 4 * 32767 * i / c.tableLen = q at hq
    omega
  · have hq := hramp (j := i - c.tableLen / 2) (by omega)
    generalize 4 * 32767 * (i - c.tableLen / 2) / c.tableLen = q at hq
    omega

/-! ### The period -/

/-- k advances of a voice in one addition (R248). -/
theorem oscAdvance_iterate (k : ℕ) (x : Voice) :
    oscAdvance^[k] x = { x with phase := BitVec.ofNat 32 (x.phase.toNat + k * x.tw.toNat) } := by
  induction k with
  | zero => simp
  | succ k ih =>
    rw [Function.iterate_succ_apply', ih, oscAdvance]
    congr 1
    apply BitVec.eq_of_toNat_eq
    simp only [BitVec.toNat_add, BitVec.toNat_ofNat]
    rw [Nat.mod_add_mod, Nat.add_mul, one_mul, add_assoc]

/-- Rows of OSC_ADVANCE on one voice are as many advances of it. -/
theorem runInstrs_oscAdvance (v : BitVec 3) (k : ℕ) {s : State} {x : Voice} (hx : s.voices[v.toNat]? = some x) :
    runInstrs (List.replicate k (.oscAdvance v)) s = .next { s with voices := s.voices.set v.toNat (oscAdvance^[k] x) } := by
  induction k generalizing s x with
  | zero =>
    have hset : s.voices.set v.toNat x = s.voices := (modify_eq_set id hx).symm.trans (List.modify_id _ _)
    rw [Function.iterate_zero_apply, hset]
    rfl
  | succ k ih =>
    have hlt := (List.getElem?_eq_some_iff.1 hx).1
    rw [List.replicate_succ, runInstrs, exec_oscAdvance hx]
    show runInstrs _ _ = _
    rw [ih (List.getElem?_set_self hlt), List.set_set, Function.iterate_succ_apply]

/-- Adding `d` k times modulo `n` comes back to the start exactly where the order of `d` divides k. -/
theorem add_mul_mod_eq_iff {n p : ℕ} (hp : p < n) (d k : ℕ) : (p + k * d) % n = p ↔ n / d.gcd n ∣ k := by
  have hn : n ≠ 0 := by omega
  calc (p + k * d) % n = p ↔ p + k * d ≡ p [MOD n] := by rw [Nat.ModEq, Nat.mod_eq_of_lt hp]
    _ ↔ n ∣ k * d := Nat.add_modEq_left_iff
    _ ↔ addOrderOf (d : ZMod n) ∣ k := by
      rw [addOrderOf_dvd_iff_nsmul_eq_zero, nsmul_eq_mul, ← Nat.cast_mul, ZMod.natCast_eq_zero_iff]
    _ ↔ n / d.gcd n ∣ k := by rw [ZMod.addOrderOf_coe d hn, Nat.gcd_comm]

end Sys2Proof.Machine

namespace Sys2Proof

open Machine

/-- Settles O45: the clamp bounds the frequency by FS/2, where the tuning word does not wrap and is the floor of an exact fraction. -/
theorem oscTune : Obligations.OscTune := by
  refine ⟨fun o => fval_fpow2, fun x lo hi hx hlo hhi _ => fclamp_of_isFinite hx hlo hhi, fun v n s x f hl _ ho1 ho2 hx hf => ?_⟩
  obtain rfl : f = noteFrequency s.cfg n s.regs.octave := hf
  obtain ⟨hmin, -, -, hmax⟩ := legal_octaves hl
  obtain ⟨hfs, -⟩ := legal_rates hl
  obtain ⟨hval, hu⟩ := noteFrequency_units hl n (hmin.trans ho1) (ho2.trans hmax)
  refine ⟨_, exec_oscTune n hx, ?_, (tuningWord_exact hfs hu).2, ?_⟩ <;> rw [hval]
  · exact tuningWord_floor hfs hu
  · omega

/-- Settles O46: the index lies below T, and each wave's entry is its formula in exact arithmetic. -/
theorem oscLookup : Obligations.OscLookup := by
  rintro v s x i T hl hx rfl rfl
  have hi := tableIndex_lt hl x.phase
  have hT : ((2 : ℤ) ^ s.cfg.tableLog2) = s.cfg.tableLen := by simp [Params.tableLen]
  simp only [hT, Int.cast_natCast]
  refine ⟨_, exec_oscLookup hx, by exact_mod_cast hi, fun hw => ?_, fun hw => ?_, fun hw => ?_, fun hw => ?_,
    wavetable_bounds hl hi _⟩
  · rw [Machine.oscLookup, hw]; exact wavetable_sine hl hi
  · rw [Machine.oscLookup, hw]; exact wavetable_saw _ _
  · rw [Machine.oscLookup, hw]; exact wavetable_square hl _
  · rw [Machine.oscLookup, hw]; exact wavetable_triangle hl _

/-- Settles O47: k advances are one addition of `k tw` modulo 2^32, which gives nothing exactly at the multiples of tw's order. -/
theorem oscPeriod : Obligations.OscPeriod := by
  refine ⟨fun v s x hx => ⟨_, exec_oscAdvance hx, BitVec.toNat_add _ _⟩, fun v s x k hx => ?_⟩
  refine ⟨BitVec.ofNat 32 (x.phase.toNat + k * x.tw.toNat), ?_, BitVec.toNat_ofNat _ _, fun _ => ?_⟩
  · rw [runInstrs_oscAdvance v k hx, oscAdvance_iterate]
  · rw [BitVec.toNat_eq, BitVec.toNat_ofNat]
    exact add_mul_mod_eq_iff x.phase.isLt _ _

end Sys2Proof

/-! PROOF of O48 to O53, the voice allocator. VOICE_SELECT's two scans are read off once for every pool (R281). GEN_REBASE gives a
sounding voice and a key slot that held one generation one new generation, by a map that keeps the order of A (`rebasedGen`). N + 1
NOTE_ONs are followed by what holds after n of them (`NotesStarted`). -/

namespace Sys2Proof.Machine

/-! ### VOICE_SELECT -/

theorem exec_voiceSelect (s : State) : exec .voiceSelect s = .next { s with answer := .voice (voiceSelect s.voices) } := rfl

section
variable {vs : List Voice} {x : Voice}

theorem voiceSelect_of_idle (hx : vs[voiceSelect vs]? = some x) (h : ∃ y ∈ vs, y.env = .idle) :
    x.env = .idle ∧ ∀ u y, vs[u]? = some y → y.env = .idle → voiceSelect vs ≤ u := by
  cases hf : firstIdle 0 vs with
  | none =>
    obtain ⟨y, hy, hidle⟩ := h
    exact absurd hidle (firstIdle_none hf y hy)
  | some v =>
    obtain ⟨n, z, rfl, hz, hidle, hleast⟩ := firstIdle_some hf
    have hsel : voiceSelect vs = n := by simp [voiceSelect, hf]
    rw [hsel] at hx ⊢
    obtain rfl : z = x := Option.some.inj (hz.symm.trans hx)
    exact ⟨hidle, hleast⟩

theorem voiceSelect_of_sounding (hx : vs[voiceSelect vs]? = some x) (h : ∀ y ∈ vs, y.env ≠ .idle) :
    ∀ u y, vs[u]? = some y → x.gen ≤ y.gen ∧ (y.gen = x.gen → voiceSelect vs ≤ u) := by
  cases hf : firstIdle 0 vs with
  | none =>
    have hsel : voiceSelect vs = oldest vs := by simp [voiceSelect, hf]
    rw [hsel] at hx ⊢
    obtain ⟨z, hz, hleast⟩ := oldest_spec (List.ne_nil_of_mem (List.mem_of_getElem? hx))
    obtain rfl : z = x := Option.some.inj (hz.symm.trans hx)
    exact hleast
  | some v =>
    obtain ⟨n, z, -, hz, hidle, -⟩ := firstIdle_some hf
    exact absurd hidle (h z (List.mem_of_getElem? hz))

end

/-! ### NOTE_OFF -/

/-- A generation other than 0 names at most one voice (R293). -/
theorem GensOk.voice_unique {s : State} (h : GensOk s) {v w : Nat} {x y : Voice} (hx : s.voices[v]? = some x)
    (hy : s.voices[w]? = some y) (h0 : x.gen ≠ 0) (hxy : x.gen = y.gen) : v = w := by
  obtain ⟨hv, rfl⟩ := List.getElem?_eq_some_iff.1 hx
  obtain ⟨hw, rfl⟩ := List.getElem?_eq_some_iff.1 hy
  have hd := List.pairwise_iff_getElem.1 h.distinct
  rcases Nat.lt_trichotomy v w with hlt | heq | hgt
  · exact absurd hxy (hd v w hv hw hlt h0)
  · exact heq
  · exact absurd hxy.symm (hd w v hw hv hgt (hxy ▸ h0))

theorem releaseVoice_of_idle {x : Voice} (h : x.env = .idle) : releaseVoice x = x := if_pos h

theorem releaseVoice_of_sounding {x : Voice} (h : x.env ≠ .idle) :
    releaseVoice x = beginStage x.level x.rel { x with env := .release } := if_neg h

section
variable {k : BitVec 4} {s : State} {g : Nat}

/-- NOTE_OFF by what its search for the key's generation finds (R286). -/
theorem noteOff_eq (hk : s.keyGen[k.toNat]? = some g) :
    noteOff k s = if g = 0 then s else (voiceOfGen g 0 s.voices).elim s (fun v => modifyVoice v releaseVoice s) := by
  have hget : s.keyGen.getD k.toNat 0 = g := by simp [List.getD, hk]
  unfold noteOff
  dsimp only
  rw [hget]
  cases voiceOfGen g 0 s.voices <;> rfl

theorem noteOff_of_absent (hk : s.keyGen[k.toNat]? = some g) (h : g = 0 ∨ ∀ x ∈ s.voices, x.gen ≠ g) : noteOff k s = s := by
  rw [noteOff_eq hk]
  split_ifs with h0
  · rfl
  · cases hf : voiceOfGen g 0 s.voices with
    | none => rfl
    | some v =>
      obtain ⟨n, x, -, hx, hxg⟩ := voiceOfGen_some hf
      exact absurd hxg (h.resolve_left h0 x (List.mem_of_getElem? hx))

theorem noteOff_of_present {v : Nat} {x : Voice} (hk : s.keyGen[k.toNat]? = some g) (h : GensOk s) (h0 : g ≠ 0)
    (hx : s.voices[v]? = some x) (hxg : x.gen = g) : noteOff k s = { s with voices := s.voices.set v (releaseVoice x) } := by
  rw [noteOff_eq hk, if_neg h0]
  cases hf : voiceOfGen g 0 s.voices with
  | none => exact absurd hxg (voiceOfGen_none hf x (List.mem_of_getElem? hx))
  | some w =>
    obtain ⟨n, y, rfl, hy, hyg⟩ := voiceOfGen_some hf
    obtain rfl : v = n := h.voice_unique hx hy (hxg ▸ h0) (hxg.trans hyg.symm)
    rw [Nat.zero_add]
    exact modifyVoice_of_getElem? _ hx

end

/-! ### GEN_REBASE -/

theorem exec_genRebase (s : State) : exec .genRebase s = .next (genRebase s) := rfl

theorem genRebase_of_offset {s : State} (h : 0 < rebaseOffset (activeGens s.voices) s.nextGen) :
    genRebase s = rebaseBy (rebaseOffset (activeGens s.voices) s.nextGen) s := if_pos h

theorem genRebase_of_no_offset {s : State} (h : rebaseOffset (activeGens s.voices) s.nextGen = 0) :
    genRebase s = rebaseRanks (activeGens s.voices) s := if_neg (by omega)

theorem rebaseOffset_eq_min' {gens : List Nat} (n : Nat) (h : gens.toFinset.Nonempty) :
    rebaseOffset gens n = gens.toFinset.min' h - 1 := by
  obtain ⟨m, hm, hle, he⟩ := rebaseOffset_spec (n := n) ((List.toFinset_nonempty_iff gens).1 h)
  have hleast : IsLeast (gens.toFinset : Set Nat) m := ⟨by simpa using hm, fun a ha => hle a (by simpa using ha)⟩
  rw [he, hleast.unique (gens.toFinset.isLeast_min' h)]

theorem genRank_eq_card {gens : List Nat} (h : gens.Nodup) (g : Nat) : genRank gens g = (gens.toFinset.filter (· ≤ g)).card := by
  rw [genRank, ← List.toFinset_card_of_nodup (h.filter _), List.toFinset_filter]
  simp only [decide_eq_true_eq]

/-- The generation that GEN_REBASE gives a key slot, and a sounding voice, of generation `g` (R291, R292). -/
def rebasedGen (s : State) (g : Nat) : Nat :=
  if 0 < rebaseOffset (activeGens s.voices) s.nextGen then g - rebaseOffset (activeGens s.voices) s.nextGen
  else if g ∈ activeGens s.voices then genRank (activeGens s.voices) g else 0

theorem genRebase_keyGen (s : State) : (genRebase s).keyGen = s.keyGen.map (rebasedGen s) := by
  rcases Nat.eq_zero_or_pos (rebaseOffset (activeGens s.voices) s.nextGen) with h | h
  · simp [genRebase_of_no_offset h, rebaseRanks, rebasedGen, h]
  · simp [genRebase_of_offset h, rebaseBy, rebasedGen, h]

section
variable {s : State}

theorem genRebase_sounding {v : Nat} {x : Voice} (hx : s.voices[v]? = some x) (he : x.env ≠ .idle) :
    (genRebase s).voices[v]? = some { x with gen := rebasedGen s x.gen } := by
  have hmem : x.gen ∈ activeGens s.voices := mem_activeGens.2 ⟨x, List.mem_of_getElem? hx, he, rfl⟩
  rcases Nat.eq_zero_or_pos (rebaseOffset (activeGens s.voices) s.nextGen) with h | h
  · simp [genRebase_of_no_offset h, rebaseRanks, rebasedGen, h, hx, he, hmem]
  · simp [genRebase_of_offset h, rebaseBy, rebasedGen, h, hx]

/-- Where there is an offset, every element of A exceeds it. -/
theorem rebaseOffset_lt {a : Nat} (ha : a ∈ activeGens s.voices) (h : 0 < rebaseOffset (activeGens s.voices) s.nextGen) :
    rebaseOffset (activeGens s.voices) s.nextGen < a := by
  obtain ⟨m, -, hle, he⟩ := rebaseOffset_spec (n := s.nextGen) (List.ne_nil_of_mem ha)
  have := hle a ha
  omega

theorem rebasedGen_lt_iff {a b : Nat} (ha : a ∈ activeGens s.voices) (hb : b ∈ activeGens s.voices) :
    a < b ↔ rebasedGen s a < rebasedGen s b := by
  have hmono : StrictMonoOn (rebasedGen s) {g | g ∈ activeGens s.voices} := by
    intro a ha b hb hab
    rw [Set.mem_ofPred_eq] at ha hb
    unfold rebasedGen
    split_ifs with h
    · have := rebaseOffset_lt ha h
      omega
    · exact genRank_lt hb hab
  exact (hmono.lt_iff_lt ha hb).symm

/-- No generation outside A is given the new generation of one in A. -/
theorem rebasedGen_eq_iff {a g : Nat} (ha : a ∈ activeGens s.voices) : g = a ↔ rebasedGen s g = rebasedGen s a := by
  refine ⟨fun h => by rw [h], fun h => ?_⟩
  unfold rebasedGen at h
  split_ifs at h with hoff hg
  · have := rebaseOffset_lt ha hoff
    omega
  · exact genRank_inj hg ha h
  · exact absurd h (genRank_pos ha).ne

end

/-! ### NOTE_ON -/

theorem fofNat_hundred : fofNat 100 = fhundred := by decide

theorem legal_samplesPerUnit {c : Params} (h : c.legal = true) : c.samplesPerUnit ≤ 65535 := by
  simp only [Params.legal, Bool.and_eq_true, decide_eq_true_eq] at h
  obtain ⟨-, -, -, -, h, -⟩ := h
  exact h

/-- A legal time in samples fits its u32 (R282). -/
theorem toNat_stageSamples {c : Params} (hl : c.legal = true) {u : BitVec 8} (h : u.toNat ≤ 200) :
    (stageSamples c u).toNat = u.toNat * c.samplesPerUnit := by
  have hmul := Nat.mul_le_mul h (legal_samplesPerUnit hl)
  rw [stageSamples, BitVec.toNat_ofNat, Nat.mod_eq_of_lt (by omega)]

theorem genRebase_voices_length (s : State) : (genRebase s).voices.length = s.voices.length := by
  unfold genRebase rebaseBy rebaseRanks
  dsimp only
  split <;> simp

theorem rebaseIfFull_voices_length (s : State) : (rebaseIfFull s).voices.length = s.voices.length := by
  unfold rebaseIfFull
  split
  · exact genRebase_voices_length s
  · rfl

theorem rebaseIfFull_of_room {s : State} (h : s.nextGen ≤ s.cfg.genMax) : rebaseIfFull s = s := if_neg (by omega)

theorem exec_noteOn (k : BitVec 4) (field : BitVec 3) (s : State) :
    exec (.noteOn k field) s = .next (noteOn k (resolveNote field s) s) := rfl

theorem OnlyVoices.eq_update {s t : State} (h : OnlyVoices s t) :
    t = { s with voices := t.voices, nextGen := t.nextGen, keyGen := t.keyGen } :=
  State.ext h.cfg h.seq rfl rfl rfl h.filt h.encs h.keys h.cmdq h.evq h.rawq h.sticky h.irqEn h.regs h.keymap h.tick h.faults h.pcm
    h.answer h.lines h.eager h.drawn

/-- What NOTE_ON writes, `u` being the state that GEN_REBASE leaves where it runs first (R283). -/
theorem noteOn_eq (k : BitVec 4) (n : BitVec 3) {s u : State} {x : Voice} (hu : rebaseIfFull s = u)
    (hx : u.voices[voiceSelect u.voices]? = some x) :
    noteOn k n s = { s with
      voices := u.voices.set (voiceSelect u.voices) (startVoice s.cfg s.regs n u.nextGen x)
      nextGen := u.nextGen + 1
      keyGen := u.keyGen.set k.toNat u.nextGen } := by
  have fr : OnlyVoices s u := hu ▸ rebaseIfFull_frame s
  rw [(noteOn_frame k n s).eq_update]
  unfold noteOn
  dsimp only
  rw [hu, modifyVoice_of_getElem? _ hx, fr.cfg, fr.regs]

/-! ### N + 1 NOTE_ONs -/

/-- `n` NOTE_ONs, at most twice round the pool of `N` voices, after a state with every voice Idle and NEXT_GEN at `g`: they took the
voices in order, again from voice 0 on when all were taken (R285). -/
structure NotesStarted (N g n : Nat) (s : State) : Prop where
  count   : s.voices.length = N
  room    : g + N ≤ s.cfg.genMax
  next    : s.nextGen = g + n
  taken   : ∀ v x, s.voices[v]? = some x → v < n →
    x.env = .attack ∧ x.level = fzero ∧ x.gen = if v + N < n then g + v + N else g + v
  untaken : ∀ v x, s.voices[v]? = some x → n ≤ v → x.env = .idle

section
variable {N g n : Nat} {s : State}

/-- The first N find an Idle voice, the next steals the oldest. -/
theorem NotesStarted.voiceSelect_eq (h : NotesStarted N g n s) (hN : 0 < N) (hn : n ≤ N) :
    voiceSelect s.voices = if n < N then n else 0 := by
  have hne : s.voices ≠ [] := List.ne_nil_of_length_pos (by rw [h.count]; exact hN)
  have hat (v : Nat) (hv : v < N) : ∃ y, s.voices[v]? = some y := ⟨_, List.getElem?_eq_getElem (by rw [h.count]; exact hv)⟩
  obtain ⟨x, hx⟩ := voiceSelect_lt hne
  split_ifs with hlt
  · obtain ⟨y, hy⟩ := hat n hlt
    have hidle := h.untaken n y hy (le_refl n)
    obtain ⟨hxi, hleast⟩ := voiceSelect_of_idle hx ⟨y, List.mem_of_getElem? hy, hidle⟩
    refine le_antisymm (hleast n y hy hidle) (not_lt.1 fun hv => ?_)
    obtain ⟨hatt, -⟩ := h.taken _ x hx hv
    rw [hxi] at hatt
    cases hatt
  · have hall (v : Nat) (y : Voice) (hy : s.voices[v]? = some y) : y.env = .attack ∧ y.gen = g + v := by
      have hv := (List.getElem?_eq_some_iff.1 hy).1
      rw [h.count] at hv
      obtain ⟨he, -, hgen⟩ := h.taken v y hy (by omega)
      rw [if_neg (by omega)] at hgen
      exact ⟨he, hgen⟩
    obtain ⟨y, hy⟩ := hat 0 hN
    have hs : ∀ z ∈ s.voices, z.env ≠ .idle := fun z hz => by
      obtain ⟨v, hv⟩ := List.mem_iff_getElem?.1 hz
      simp [(hall v z hv).1]
    obtain ⟨hle, -⟩ := voiceSelect_of_sounding hx hs 0 y hy
    rw [(hall _ x hx).2, (hall 0 y hy).2] at hle
    omega

theorem NotesStarted.succ (h : NotesStarted N g n s) (hN : 0 < N) (hn : n ≤ N) (k : BitVec 4) (m : BitVec 3) :
    NotesStarted N g (n + 1) (noteOn k m s) := by
  have hsel := h.voiceSelect_eq hN hn
  have hroom := h.room
  have hnext := h.next
  have hcount := h.count
  obtain ⟨x, hx⟩ := voiceSelect_lt (List.ne_nil_of_length_pos (hcount ▸ hN))
  rw [noteOn_eq k m (rebaseIfFull_of_room (by omega)) hx, hsel]
  exact
    { count := by simp [hcount]
      room := hroom
      next := by simp only [hnext]; omega
      taken := fun v y hy hv => by
        have hvN := (List.getElem?_eq_some_iff.1 hy).1
        simp only [List.length_set] at hvN
        rcases eq_or_ne (if n < N then n else 0) v with hv' | hv'
        · rw [← hv', List.getElem?_set_self (by split_ifs <;> omega)] at hy
          obtain rfl := Option.some.inj hy
          refine ⟨rfl, rfl, (startVoice_gen _ _ _ _ _).trans ?_⟩
          split_ifs at hv' ⊢ <;> omega
        · rw [List.getElem?_set_ne hv'] at hy
          obtain ⟨he, hlevel, hgen⟩ := h.taken v y hy (by split_ifs at hv' <;> omega)
          refine ⟨he, hlevel, hgen.trans ?_⟩
          split_ifs at hv' ⊢ <;> omega
      untaken := fun v y hy hv => by
        rw [List.getElem?_set_ne (by split_ifs <;> omega)] at hy
        exact h.untaken v y hy (by omega) }

theorem runInstrs_noteOns (notes : List (BitVec 4 × BitVec 3)) (h : NotesStarted N g n s) (hN : 0 < N)
    (hlen : n + notes.length ≤ N + 1) :
    ∃ t, runInstrs (notes.map fun p => .noteOn p.1 p.2) s = .next t ∧ NotesStarted N g (n + notes.length) t := by
  induction notes generalizing n s with
  | nil => exact ⟨s, rfl, h⟩
  | cons p notes ih =>
    rw [List.length_cons] at hlen
    obtain ⟨t, ht, hst⟩ := ih (h.succ hN (by omega) p.1 (resolveNote p.2 s)) (by omega)
    refine ⟨t, ht, ?_⟩
    rwa [Nat.add_right_comm] at hst

end

end Sys2Proof.Machine

namespace Sys2Proof

open Machine

/-- Settles O48: the scan for an Idle voice comes first, that for the least generation after it. -/
theorem voiceSelect : Obligations.VoiceSelect := by
  intro s hne
  obtain ⟨x, hx⟩ := voiceSelect_lt hne
  exact ⟨_, x, exec_voiceSelect s, hx, voiceSelect_of_idle hx, voiceSelect_of_sounding hx⟩

/-- Settles O50: the key's generation names one voice at most, which `releaseVoice` releases unless it is Idle. -/
theorem noteOff : Obligations.NoteOff := by
  intro k s g hk
  have hexec : exec (.noteOff k) s = .next (Machine.noteOff k s) := rfl
  refine ⟨fun h => by rw [hexec, noteOff_of_absent hk h], fun v x hg h0 hx hxg => ?_⟩
  rw [hexec, noteOff_of_present hk hg h0 hx hxg]
  refine ⟨fun he => ?_, fun he => ⟨_, rfl, ?_⟩⟩
  · obtain ⟨hv, rfl⟩ := List.getElem?_eq_some_iff.1 hx
    rw [releaseVoice_of_idle he, List.set_getElem_self]
  · rw [releaseVoice_of_sounding he, ← toNat_atLeastOne]
    exact ⟨rfl, rfl, rfl⟩

/-- Settles O51: the model's list without repeats is A, whose least element gives the offset and whose counts are the ranks. -/
theorem genRebase : Obligations.GenRebase := by
  intro s A off hA hempty hmin
  obtain rfl : A = (activeGens s.voices).toFinset := by rw [hA, activeGens]; ext; simp
  have hoff : rebaseOffset (activeGens s.voices) s.nextGen = off := by
    rcases Finset.eq_empty_or_nonempty (activeGens s.voices).toFinset with h | h
    · rw [hempty h, (List.toFinset_eq_empty_iff _).1 h]; rfl
    · rw [hmin h, rebaseOffset_eq_min']
  have hnodup := activeGens_nodup s.voices
  rw [exec_genRebase]
  refine ⟨fun h => ?_, fun h => ?_⟩
  · have hsub (g : Nat) : (if off < g then g - off else 0) = g - off := by split_ifs <;> omega
    simp only [hsub]
    rw [genRebase_of_offset (hoff ▸ h), hoff]
    rfl
  · rw [genRebase_of_no_offset (hoff.trans h)]
    simp only [← genRank_eq_card hnodup, List.mem_toFinset, List.toFinset_card_of_nodup hnodup]
    rfl

/-- Settles O52: the invariant leaves room, and `rebasedGen` keeps the order of A and takes nothing else into its image. -/
theorem rebaseKeepsOrder : Obligations.RebaseKeepsOrder := by
  intro s t h ht
  obtain rfl : Machine.genRebase s = t := Host.Outcome.next.inj ht
  have hact {v : Nat} {x : Voice} (hx : s.voices[v]? = some x) (he : x.env ≠ .idle) : x.gen ∈ activeGens s.voices :=
    mem_activeGens.2 ⟨x, List.mem_of_getElem? hx, he, rfl⟩
  refine ⟨fun hfull => ?_, fun v w x y x' y' hx hy hx' hy' hex hey => ?_, fun k v g g' x x' hk hk' hx hx' hex => ?_⟩
  · rw [(genRebase_frame s).cfg]
    exact (genRebase_gensOk h.cfg h.voices h.gens).2 hfull
  · obtain rfl := Option.some.inj ((genRebase_sounding hx hex).symm.trans hx')
    obtain rfl := Option.some.inj ((genRebase_sounding hy hey).symm.trans hy')
    exact rebasedGen_lt_iff (hact hx hex) (hact hy hey)
  · obtain rfl := Option.some.inj ((genRebase_sounding hx hex).symm.trans hx')
    rw [genRebase_keyGen, List.getElem?_map, hk] at hk'
    obtain rfl := Option.some.inj hk'
    exact rebasedGen_eq_iff (hact hx hex)

/-- Settles O49, from what NOTE_ON writes in the state `u` after the rebase, if there is one. -/
theorem noteOn : Obligations.NoteOn := by
  intro k field s hl hr hne hlen
  obtain ⟨u, hu⟩ : ∃ u, rebaseIfFull s = u := ⟨_, rfl⟩
  have fr : OnlyVoices s u := hu ▸ rebaseIfFull_frame s
  have hcount : u.voices.length = s.voices.length := hu ▸ rebaseIfFull_voices_length s
  have hpos := List.length_pos_of_ne_nil hne
  obtain ⟨x, hx⟩ := voiceSelect_lt (List.ne_nil_of_length_pos (hcount ▸ hpos))
  have hv : (BitVec.ofNat 3 (Machine.voiceSelect u.voices)).toNat = Machine.voiceSelect u.voices := by
    have := (List.getElem?_eq_some_iff.1 hx).1
    rw [BitVec.toNat_ofNat]
    omega
  refine ⟨u, _, _, x, startVoice s.cfg s.regs (resolveNote field s) u.nextGen x, ?_, exec_voiceSelect u, hx,
    (exec_noteOn k field s).trans (congrArg _ (noteOn_eq k _ hu hx)), rfl, rfl, rfl, toNat_stageSamples hl hr.attack.2,
    toNat_stageSamples hl hr.decay.2, toNat_stageSamples hl hr.release.2, ?_, ?_, toNat_atLeastOne _, rfl, rfl, rfl, rfl,
    sameMemory_of rfl rfl⟩
  · rw [← hu, exec_genRebase, rebaseIfFull]
    split_ifs <;> rfl
  · rw [fofNat_hundred]; rfl
  · have htune := exec_oscTune (resolveNote field s) (hv.symm ▸ hx)
    have hvoice : Machine.oscTune u.cfg (resolveNote field s) u.regs.octave x =
        Machine.oscTune s.cfg (resolveNote field s) s.regs.octave x := by rw [fr.cfg, fr.regs]
    rw [hv, hvoice] at htune
    exact htune

/-- Settles O53: the notes take the voices in order and then voice 0 again. -/
theorem stealsOldest : Obligations.StealsOldest := by
  intro s notes hne hidle hroom hlen
  have hstart : NotesStarted s.voices.length s.nextGen 0 s :=
    ⟨rfl, hroom, rfl, fun _ _ _ h => absurd h (Nat.not_lt_zero _), fun v x hx _ => hidle x (List.mem_of_getElem? hx)⟩
  obtain ⟨t, ht, h⟩ := runInstrs_noteOns notes hstart (List.length_pos_of_ne_nil hne) (by omega)
  rw [Nat.zero_add, hlen] at h
  refine ⟨t, ht, h.count, h.next, fun v x hx => ?_⟩
  have hv := (List.getElem?_eq_some_iff.1 hx).1
  obtain ⟨he, hlevel, hgen⟩ := h.taken v x hx (by have := h.count; omega)
  refine ⟨he, hlevel, hgen.trans ?_⟩
  split_ifs <;> omega

end Sys2Proof

/-! PROOF of O32, O38 and O39, the filter. A fraction of the model stands for a rational (`Frac.val`), on which `fracMax` and
`fracMin` are `max` and `min`, so the mapping of R330 is read off term by term. A coefficient set is a row of the configuration's ROM
or the formulas of R331, which are arithmetic of integers: at a given setting they evaluate. -/

namespace Sys2Proof

/-- The rational that a fraction stands for. -/
def Frac.val (a : Frac) : ℚ := a.num / a.den

namespace Machine

/-! ### Fractions -/

section
variable {a b : Frac}

theorem fracLe_iff (ha : 0 < a.den) (hb : 0 < b.den) : fracLe a b = true ↔ a.val ≤ b.val := by
  unfold Frac.val
  rw [fracLe, decide_eq_true_iff, div_le_div_iff₀ (Nat.cast_pos.2 ha) (Nat.cast_pos.2 hb)]
  norm_cast

theorem fracMax_den_pos (ha : 0 < a.den) (hb : 0 < b.den) : 0 < (fracMax a b).den := by
  unfold fracMax
  split <;> assumption

theorem fracMin_den_pos (ha : 0 < a.den) (hb : 0 < b.den) : 0 < (fracMin a b).den := by
  unfold fracMin
  split <;> assumption

theorem val_fracMax (ha : 0 < a.den) (hb : 0 < b.den) : (fracMax a b).val = max a.val b.val := by
  simp only [fracMax, fracLe_iff ha hb, max_def, apply_ite Frac.val]

theorem val_fracMin (ha : 0 < a.den) (hb : 0 < b.den) : (fracMin a b).val = min a.val b.val := by
  simp only [fracMin, fracLe_iff ha hb, min_def, apply_ite Frac.val]

end

section
variable {c : Params} {cutoff resonance : ℕ}

/-! ### The parameter mapping (R330) -/

theorem legal_filter (h : c.legal = true) :
    0 < c.cutoffHz.den ∧ 0 < c.nyqFrac.den ∧ 0 < c.qBase.den ∧ 0 < c.qStep.den := by
  simp only [Params.legal, Bool.and_eq_true, decide_eq_true_eq] at h
  omega

theorem filterFc_den_pos (h : c.legal = true) : 0 < (filterFc c cutoff).den := by
  obtain ⟨hhz, hnyq, -, -⟩ := legal_filter h
  exact fracMin_den_pos (fracMax_den_pos hhz Nat.one_pos) (Nat.mul_pos hnyq Nat.two_pos)

theorem filterQ_den_pos (h : c.legal = true) : 0 < (filterQ c resonance).den := by
  obtain ⟨-, -, hbase, hstep⟩ := legal_filter h
  exact fracMax_den_pos (Nat.mul_pos hbase hstep) (by decide)

theorem val_filterFc (h : c.legal = true) :
    (filterFc c cutoff).val = min (max (cutoff * c.cutoffHz.val) 1) (c.nyqFrac.val * c.fs / 2) := by
  obtain ⟨hhz, hnyq, -, -⟩ := legal_filter h
  have hscaled : (Frac.mk (cutoff * c.cutoffHz.num) c.cutoffHz.den).val = cutoff * c.cutoffHz.val := by
    simp only [Frac.val, Nat.cast_mul, mul_div_assoc]
  have hfloor : (Frac.mk 1 1).val = 1 := by norm_num [Frac.val]
  have hceil : (Frac.mk (c.nyqFrac.num * c.fs) (c.nyqFrac.den * 2)).val = c.nyqFrac.val * c.fs / 2 := by
    simp only [Frac.val, Nat.cast_mul, Nat.cast_ofNat, div_mul_eq_mul_div, div_div]
  rw [filterFc, val_fracMin, val_fracMax, hscaled, hfloor, hceil]
  · exact hhz
  · exact Nat.one_pos
  · exact fracMax_den_pos hhz Nat.one_pos
  · exact Nat.mul_pos hnyq Nat.two_pos

theorem val_filterQ (h : c.legal = true) :
    (filterQ c resonance).val = max (c.qBase.val + resonance * c.qStep.val) (1 / 10) := by
  obtain ⟨-, -, hbase, hstep⟩ := legal_filter h
  have hsum : (Frac.mk (c.qBase.num * c.qStep.den + resonance * c.qStep.num * c.qBase.den) (c.qBase.den * c.qStep.den)).val =
      c.qBase.val + resonance * c.qStep.val := by
    simp only [Frac.val, Nat.cast_add, Nat.cast_mul]
    field_simp
  have hfloor : (Frac.mk 1 10).val = 1 / 10 := by norm_num [Frac.val]
  rw [filterQ, val_fracMax (Nat.mul_pos hbase hstep) (by decide), hsum, hfloor]

/-! ### The coefficients of a setting (R331) -/

theorem filterCoefs_of_no_row (h : ∀ r ∈ c.coefRom, r.cutoff ≠ cutoff ∨ r.resonance ≠ resonance) :
    filterCoefs c cutoff resonance = biquadCoef (filterFc c cutoff) (filterQ c resonance) c.fs := by
  rw [filterCoefs, List.find?_eq_none.2 (by simpa [imp_iff_not_or] using h)]

theorem filterCoefs_of_row (h : ∃ r ∈ c.coefRom, r.cutoff = cutoff ∧ r.resonance = resonance) :
    ∃ r ∈ c.coefRom, r.cutoff = cutoff ∧ r.resonance = resonance ∧ filterCoefs c cutoff resonance = r.coefs := by
  unfold filterCoefs
  split
  · next r hfound =>
    have hset := List.find?_some hfound
    simp only [Bool.and_eq_true, decide_eq_true_eq] at hset
    exact ⟨r, List.mem_of_find?_eq_some hfound, hset.1, hset.2, rfl⟩
  · next hnone =>
    obtain ⟨r, hr, hcutoff, hresonance⟩ := h
    exact absurd (List.find?_eq_none.1 hnone r hr) (by simp [hcutoff, hresonance])

/-- The reference ROM has no row of its own. -/
theorem filterCoefs_reference : filterCoefs Config.reference cutoff resonance =
    biquadCoef (filterFc Config.reference cutoff) (filterQ Config.reference resonance) 44100 :=
  filterCoefs_of_no_row (List.forall_mem_nil _)

end

/-! ### The rows (R332, R333) -/

theorem exec_filtUpdate_of_dirty {s : State} (h : s.filt.dirty = true) :
    exec .filtUpdate s = .next { s with
      filt := loadCoefs (filterCoefs s.cfg s.regs.cutoff.toNat s.regs.resonance.toNat) { s.filt with dirty := false } } :=
  congrArg Host.Outcome.next (if_pos h)

theorem exec_filtUpdate_of_clean {s : State} (h : s.filt.dirty = false) : exec .filtUpdate s = .next s :=
  congrArg Host.Outcome.next (if_neg (Bool.not_eq_true _ ▸ h))

theorem exec_filtProcess (x : F32) (s : State) : exec (.filtProcess x) s =
    .next { s with filt := filtShift x (filtOutput x s.filt) s.filt, answer := .sample (filtOutput x s.filt) } := rfl

end Machine

open Machine

/-- Settles O32: the mapping is R330's in rationals, the ROM is searched for the setting, and the row does one thing per value of
`F.dirty`. -/
theorem filtUpdate : Obligations.FiltUpdate := by
  refine ⟨?_, fun s => ⟨fun h => ⟨_, rfl, exec_filtUpdate_of_dirty h⟩, exec_filtUpdate_of_clean⟩⟩
  rintro c cutoff resonance _ _ hl rfl rfl
  exact ⟨filterFc_den_pos hl, val_filterFc hl, filterQ_den_pos hl, val_filterQ hl, filterCoefs_of_no_row, filterCoefs_of_row⟩

/-- Settles O38: the five results are the subterms of `filtOutput`, from the inside out. -/
theorem filtProcess : Obligations.FiltProcess := fun x s =>
  ⟨_, _, _, _, filtOutput x s.filt, rfl, rfl, rfl, rfl, rfl, exec_filtProcess x s⟩

/-- Settles O39: the formulas of R331 evaluate at each of the seven settings. -/
theorem referenceCoefficients : Obligations.ReferenceCoefficients := by
  unfold Obligations.ReferenceCoefficients
  simp only [filterCoefs_reference]
  decide +kernel

end Sys2Proof

/-! PROOF of O31 and O33 to O37, the renderer. A notification, a pass start and a frame are each one equation for the next state, from
which the statements are read off. A frame's voices, mix and filter are `renderFrame_next`; its commands are the rows NOTE_ON and
NOTE_OFF run in order, and its two stores are four bytes of the buffer. CLIP16 compares bit patterns, which order the numbers. -/

namespace Sys2Proof.Machine

/-! ### DMA notifications (R361) -/

section
variable {h : BitVec 1} {s : State}

theorem exec_dmaNotify (h : BitVec 1) (s : State) : exec (if h = 0#1 then .dmaHt else .dmaTc) s = .next (dmaNotify h s) := by
  rcases bit_cases h with rfl | rfl <;> rfl

theorem deadlineMissed_iff {q : Seq} : deadlineMissed h q = true ↔
    notify h q = true ∨ notify (~~~h) q = true ∨ (q.busy = true ∧ q.cur = ~~~h) := by
  simp [deadlineMissed, or_assoc]

theorem dmaNotify_of_miss (hm : deadlineMissed h s.seq = true) : dmaNotify h s = { s with
    seq := setNotify h true s.seq, sticky := s.sticky ||| 0b10000#5, faults := { s.faults with deadlineMiss := true } } := by
  rw [dmaNotify, if_pos hm]
  rfl

theorem dmaNotify_of_no_miss (hm : ¬ deadlineMissed h s.seq = true) : dmaNotify h s = { s with seq := setNotify h true s.seq } := by
  rw [dmaNotify, if_neg hm]

theorem setNotify_frame (h : BitVec 1) (b : Bool) (q : Seq) :
    setNotify h b q = { q with notify0 := (setNotify h b q).notify0, notify1 := (setNotify h b q).notify1 } := by
  unfold setNotify
  split <;> rfl

theorem not_bit_ne (h : BitVec 1) : ~~~h ≠ h := by
  rcases bit_cases h with rfl | rfl <;> decide

end

/-! ### PASS_START (R362, R363) -/

section
variable {s : State}

theorem passStartEnabled_iff :
    passStartEnabled s = true ↔ s.seq.busy = false ∧ notify s.seq.nextHalf s.seq = true := by simp [passStartEnabled]

theorem exec_passStart_of_enabled (h : passStartEnabled s = true) :
    exec .passStart s = .next (filtUpdate { s with seq := startPass s.seq }) := if_pos h

theorem exec_passStart_of_waiting (h : ¬ passStartEnabled s = true) : exec .passStart s = .next s := if_neg h

theorem startPass_nextHalf (q : Seq) : (startPass q).nextHalf = q.nextHalf := setNotify_nextHalf q.nextHalf false q

theorem notify_startPass_taken (q : Seq) : notify q.nextHalf (startPass q) = false := notify_setNotify_same q.nextHalf false q

theorem notify_startPass_other (q : Seq) : notify (~~~q.nextHalf) (startPass q) = notify (~~~q.nextHalf) q :=
  notify_setNotify_other (not_bit_ne q.nextHalf) false q

end

/-! ### Rows that find nothing to act on -/

section
variable {v : BitVec 3} {s : State}

theorem decodeStep_of_empty (h : s.rawq = []) : decodeStep s = s := by rw [decodeStep, h]

theorem exec_frame_of_waiting (h : s.seq.busy = false) : exec .frame s = .next s := if_neg (Bool.not_eq_true _ ▸ h)

theorem exec_envRow_of_other {e : Env} {x : Voice} (hx : s.voices[v.toNat]? = some x) (he : x.env ≠ e) :
    exec (envRow v e) s = .next s := by
  have hset : s.voices.set v.toNat x = s.voices := (modify_eq_set id hx).symm.trans (List.modify_id _ _)
  rw [exec_envRow, modifyVoice_of_getElem? _ hx, whenEnv, if_neg he, hset]

theorem modifyVoice_of_absent {u : Nat} (f : Voice → Voice) (h : s.voices.length ≤ u) : modifyVoice u f s = s := by
  rw [modifyVoice, List.modify_eq_self h]

theorem exec_envRow_of_absent (e : Env) (h : s.voices.length ≤ v.toNat) : exec (envRow v e) s = .next s := by
  rw [exec_envRow, modifyVoice_of_absent _ h]

theorem exec_oscTune_of_absent (n : BitVec 3) (h : s.voices.length ≤ v.toNat) : exec (.oscTune v n) s = .next s :=
  congrArg Host.Outcome.next (modifyVoice_of_absent _ h)

theorem exec_oscAdvance_of_absent (h : s.voices.length ≤ v.toNat) : exec (.oscAdvance v) s = .next s :=
  congrArg Host.Outcome.next (modifyVoice_of_absent _ h)

theorem exec_oscLookup_of_absent (h : s.voices.length ≤ v.toNat) : exec (.oscLookup v) s = .next s := by
  show execOscLookup v s = _
  rw [execOscLookup, List.getElem?_eq_none h]

end

/-! ### The commands of a frame (R365) -/

/-- The row that applies a queued command (R280). -/
def commandRow (r : Cmd) : Instr :=
  match r.op with
  | .noteOn => .noteOn r.key r.note
  | .noteOff => .noteOff r.key

/-- A queued NOTE names its note, so that the row resolves nothing (R142, R150). -/
theorem exec_commandRow {r : Cmd} (h : CmdOk r) (s : State) : exec (commandRow r) s = .next (applyCmd s r) := by
  obtain ⟨op, key, note⟩ := r
  cases op with
  | noteOn =>
    have hnote : resolveNote note s = note := if_pos h
    show exec (.noteOn key note) s = _
    rw [exec_noteOn, hnote]
    rfl
  | noteOff => rfl

theorem runInstrs_commandRows {q : List Cmd} (h : ∀ r ∈ q, CmdOk r) (s : State) :
    runInstrs (q.map commandRow) s = .next (q.foldl applyCmd s) := by
  induction q generalizing s with
  | nil => rfl
  | cons r q ih =>
    obtain ⟨hr, hq⟩ := List.forall_mem_cons.1 h
    rw [List.map_cons, runInstrs, exec_commandRow hr]
    exact ih hq _

/-! ### One frame (R364) -/

/-- The mix read after the envelopes: the voices' contributions in ascending order (R367). -/
theorem mixOf_eq_foldl (c : Params) (w : BitVec 2) (vs : List Voice) :
    mixOf c w vs = (vs.map envAdvance).foldl (mixVoice c w) fzero := List.foldl_map.symm

section
variable {c : Params} {q : Seq}

theorem toNat_succ_j (hc : c.legal = true) (hj : q.j.toNat < c.half) : (q.j + 1#16).toNat = q.j.toNat + 1 := by
  obtain ⟨-, hhalf, -⟩ := half_pos hc
  rw [BitVec.toNat_add, BitVec.toNat_ofNat]
  omega

theorem advanceSeq_of_lt (hc : c.legal = true) (hj : q.j.toNat + 1 < c.half) : advanceSeq c q = { q with j := q.j + 1#16 } := by
  have hsucc := toNat_succ_j hc (Nat.lt_of_succ_lt hj)
  exact if_neg (by omega)

theorem advanceSeq_of_last (hc : c.legal = true) (hj : q.j.toNat + 1 = c.half) :
    advanceSeq c q = { q with j := 0#16, busy := false, nextHalf := ~~~q.cur } := by
  have hsucc := toNat_succ_j hc (Nat.lt_of_succ_le hj.le)
  exact if_pos (by omega)

end

section
variable {s : State}

/-- The mix of the frame that a state is about to render, its commands applied (R365, R367). -/
def frameMix (s : State) : F32 := mixOf s.cfg s.regs.wave (applyCommands s).voices

/-- Everything a FRAME writes. -/
theorem exec_frame_of_busy (hl : s.cfg.legal = true) (hs : SeqOk s) (hb : s.seq.busy = true) :
    exec .frame s = .next { s with
      cmdq := []
      voices := ((applyCommands s).voices.map envAdvance).map oscAdvance
      nextGen := (applyCommands s).nextGen
      keyGen := (applyCommands s).keyGen
      filt := filtShift (frameMix s) (filtOutput (frameMix s) s.filt) s.filt
      pcm := pcmAfterFrame (frameIndex s) (scaleClip (filtOutput (frameMix s) s.filt) s.regs.volume) s.pcm
      seq := advanceSeq s.cfg s.seq } := by
  have hrun : exec .frame s = renderFrame s := if_pos hb
  rw [hrun, renderFrame_next hl hs, List.map_map, (applyCommands_frame s).eq_update]
  rfl

end

/-! ### The sample in the buffer (R101, R102, R368) -/

section
variable {s t : State} {i : Nat} {v : BitVec 16}

theorem memRead_of_frame_written (hc : t.cfg = s.cfg) (hp : t.pcm = pcmAfterFrame i v s.pcm) (hi : i < s.cfg.bufFrames) (a : Nat) :
    memRead t a =
      if a = s.cfg.pcmBase + 4 * i ∨ a = s.cfg.pcmBase + 4 * i + 2 then some (v.extractLsb' 0 8)
      else if a = s.cfg.pcmBase + 4 * i + 1 ∨ a = s.cfg.pcmBase + 4 * i + 3 then some (v.extractLsb' 8 8)
      else memRead s a := by
  have hbytes : s.cfg.pcmBytes = 4 * s.cfg.bufFrames := rfl
  unfold memRead
  rw [hc, hp, pcmAfterFrame_lookup]
  by_cases hin : s.cfg.pcmBase ≤ a ∧ a < s.cfg.pcmBase + s.cfg.pcmBytes
  · rw [if_pos hin, if_pos hin, apply_ite some, apply_ite some]
    exact if_congr (by omega) rfl (if_congr (by omega) rfl rfl)
  · rw [if_neg hin, if_neg hin, if_neg (by omega), if_neg (by omega)]

theorem dmaReadFrame_of_frame_written (hc : t.cfg = s.cfg) (hp : t.pcm = pcmAfterFrame i v s.pcm) (hi : i < s.cfg.bufFrames) :
    dmaReadFrame t i = some (v ++ v) := by
  have hread : dmaReadFrame t i =
      some (v.extractLsb' 8 8 ++ v.extractLsb' 0 8 ++ v.extractLsb' 8 8 ++ v.extractLsb' 0 8) := by
    simp [dmaReadFrame_eq, hc, hi, hp, pcmAfterFrame_lookup]
  have hbytes : v.extractLsb' 8 8 ++ v.extractLsb' 0 8 = v := BitVec.extractLsb'_append_extractLsb' (w := 8) (len := 8)
  rw [hread, hbytes, BitVec.append_assoc, hbytes, BitVec.cast_eq]

end

/-! ### CLIP16 (R369) -/

theorem fle_iff_of_number {a b : F32} (ha : isNan a = false) (hb : isNan b = false) : fle a b = true ↔ fval a ≤ fval b := by
  simp [fle, ha, hb, fkey_le_iff]

/-- The patterns that CLIP16 compares with are 32767.0 and -32768.0. -/
theorem fval_clip_bounds : fval 0x46FFFE00#32 = 32767 * 2 ^ 149 ∧ fval 0xC7000000#32 = -(32768 * 2 ^ 149) := by decide

/-- The whole part toward zero is that of the magnitude, with the sign. -/
theorem tdiv_fval (o : F32) : Int.tdiv (fval o) (2 ^ 149) =
    if fneg? o then -((funits o / 2 ^ 149 : Nat) : Int) else ((funits o / 2 ^ 149 : Nat) : Int) := by
  unfold fval
  split
  · rw [Int.neg_tdiv]
    rfl
  · rfl

theorem clip16_of_number {o : F32} (h : isNan o = false) : clip16 o =
    if 32767 * 2 ^ 149 ≤ fval o then 32767
    else if fval o ≤ -(32768 * 2 ^ 149) then -32768
    else Int.tdiv (fval o) (2 ^ 149) := by
  obtain ⟨htop, hbottom⟩ := fval_clip_bounds
  have hle := fle_iff_of_number (a := 0x46FFFE00#32) rfl h
  have hge := fle_iff_of_number (b := 0xC7000000#32) h rfl
  simp only [clip16, h, Bool.false_eq_true, if_false, hle, hge, htop, hbottom, tdiv_fval]

/-- Between the bounds the whole part is between theirs. -/
theorem tdiv_between {x : Int} (hlo : -(32768 * 2 ^ 149) < x) (hhi : x < 32767 * 2 ^ 149) :
    -32768 ≤ Int.tdiv x (2 ^ 149) ∧ Int.tdiv x (2 ^ 149) ≤ 32767 := by
  have lo := Int.tdiv_le_tdiv (c := 2 ^ 149) (by decide) hlo.le
  have hi := Int.tdiv_le_tdiv (c := 2 ^ 149) (by decide) hhi.le
  exact ⟨lo, hi⟩

end Sys2Proof.Machine

namespace Sys2Proof

open Machine

/-- Settles O31: the notification's three fields, with and without a miss. -/
theorem dmaNotify : Obligations.DmaNotify := by
  intro s h
  have hother := notify_setNotify_other (not_bit_ne h) true s.seq
  by_cases hm : deadlineMissed h s.seq = true
  · exact ⟨_, (exec_dmaNotify h s).trans (congrArg _ (dmaNotify_of_miss hm)), notify_setNotify_same h true s.seq, hother,
      setNotify_frame h true s.seq, fun _ => ⟨rfl, rfl⟩, fun hn => absurd (deadlineMissed_iff.1 hm) hn, rfl, sameMemory_of rfl rfl⟩
  · exact ⟨_, (exec_dmaNotify h s).trans (congrArg _ (dmaNotify_of_no_miss hm)), notify_setNotify_same h true s.seq, hother,
      setNotify_frame h true s.seq, fun hy => absurd (deadlineMissed_iff.2 hy) hm, fun _ => ⟨rfl, rfl⟩, rfl, sameMemory_of rfl rfl⟩

/-- Settles O33: the sequencer is `startPass`, and FILT_UPDATE writes the filter alone. -/
theorem passStart : Obligations.PassStart := by
  intro s hb hn
  have hframe := filtUpdate_frame { s with seq := startPass s.seq }
  exact ⟨_, startPass s.seq, exec_passStart_of_enabled (passStartEnabled_iff.2 ⟨hb, hn⟩), rfl, rfl, rfl, startPass_nextHalf _,
    notify_startPass_taken _, notify_startPass_other _, rfl, hframe, sameMemory_of (by rw [hframe]) (by rw [hframe])⟩

/-- Settles O34: an agent that is not enabled, a row for another envelope state and a row for an absent voice each keep the state. -/
theorem waitingAgents : Obligations.WaitingAgents := by
  intro v n s
  refine ⟨fun h => (exec_decode s).trans (congrArg _ (decodeStep_of_empty h)), fun h => exec_passStart_of_waiting ?_,
    exec_frame_of_waiting, fun x hx => ?_, fun h => ?_⟩
  · rw [passStartEnabled_iff]
    rcases h with h | h <;> simp [h]
  · exact ⟨exec_envRow_of_other hx, exec_envRow_of_other hx, exec_envRow_of_other hx, exec_envRow_of_other hx,
      exec_envRow_of_other hx⟩
  · have row (e : Env) : exec (envRow v e) s = .next s := exec_envRow_of_absent e h
    simp only [List.forall_mem_cons]
    exact ⟨row .idle, row .attack, row .decay, row .sustain, row .release, exec_oscTune_of_absent n h, exec_oscLookup_of_absent h,
      exec_oscAdvance_of_absent h, List.forall_mem_nil _⟩

/-- Settles O35: the queued commands are their rows in order, and the rest is read off what a FRAME writes. -/
theorem frameRenders : Obligations.FrameRenders := by
  refine ⟨fun v s x hx => ⟨?_, exec_oscLookup hx, exec_oscAdvance hx⟩, exec_filtProcess, fun s hl hs hq hb => ?_⟩
  · cases he : x.env <;> exact exec_envRow_of_env hx he
  · exact ⟨applyCommands s, _, _, frameMix s, runInstrs_commandRows hq _, rfl, mixOf_eq_foldl _ _ _, exec_frame_of_busy hl hs hb,
      rfl, rfl, advanceSeq_of_lt hl, advanceSeq_of_last hl, rfl⟩

/-- Settles O36: the sample is `scaleClip` of the filter's output, and the buffer changes in the four bytes of frame i. -/
theorem frameWritesSample : Obligations.FrameWritesSample := by
  intro s t i v hl hs hb ht hidx hv
  obtain rfl : i = frameIndex s := hidx
  obtain rfl : v = scaleClip t.filt.y1 s.regs.volume := by
    rw [hv, fofNat_hundred]
    rfl
  have hwrites := Host.Outcome.next.inj (ht.symm.trans (exec_frame_of_busy hl hs hb))
  have hcfg : t.cfg = s.cfg := by rw [hwrites]
  have hpcm : t.pcm = pcmAfterFrame (frameIndex s) (scaleClip t.filt.y1 s.regs.volume) s.pcm := by
    rw [hwrites]
    rfl
  have hlt := frameIndex_lt hl hs
  have hread := memRead_of_frame_written hcfg hpcm hlt
  refine ⟨fun a ha => ?_, fun a ha => ?_, fun a ha => ?_, dmaReadFrame_of_frame_written hcfg hpcm hlt⟩
  · rw [hread, if_pos ha]
  · rw [hread, if_neg (by omega), if_pos ha]
  · rw [hread, if_neg (by omega), if_neg (by omega)]

/-- Settles O37: a number is clipped at the bounds, and between them is its whole part toward zero. -/
theorem clipRule : Obligations.ClipRule := by
  intro o
  have hnan (h : isNan o = true) : clip16 o = 0 := if_pos h
  refine ⟨hnan, fun h htop => ?_, fun h hbottom => ?_, fun h hlo hhi => ?_, ?_⟩
  · rw [clip16_of_number h, if_pos htop]
  · rw [clip16_of_number h, if_neg (by omega), if_pos hbottom]
  · rw [clip16_of_number h, if_neg (by omega), if_neg (by omega)]
  · cases h : isNan o with
    | true => rw [hnan h]; decide
    | false =>
      rw [clip16_of_number h]
      split_ifs with htop hbottom
      · decide
      · decide
      · exact tdiv_between (not_le.1 hbottom) (not_le.1 htop)

end Sys2Proof

/-! PROOF of O21 and O23 to O26, raw capture and the encoders. What a reported change leaves is said once, by `EncoderReports`: one
encoder replaced, one event pushed, nothing else. ENC_AB and DETENT_CHECK both end in the threshold check of R402, `settleEnc`, whose
three cases are the statements' cases; a clean cycle is three samples below the threshold and one that reaches it. -/

namespace Sys2Proof.Machine

theorem exec_capture (record : Word) (s : State) : exec (.capture record) s = .next (pushRaw (s.tick ++ record) s) := rfl

/-! ### One encoder replaced -/

/-- Encoder `e` replaced by `y`. -/
def withEnc (e : Nat) (y : Encoder) (s : State) : State := { s with encs := s.encs.set e y }

/-- Between `s` and `t`, encoder `e` becomes `y`, `r` is pushed to EVQ, and nothing else changes. -/
structure EncoderReports (e : Nat) (y : Encoder) (r : Event) (s t : State) : Prop where
  encs : t.encs = s.encs.set e y
  pushed : PushedEvent r s t
  frame : t = { s with encs := t.encs, evq := t.evq, sticky := t.sticky }
  memory : SameMemory s t

section
variable {e : Nat} {s : State} {x : Encoder}

theorem modifyEnc_of_getElem? (f : Encoder → Encoder) (hx : s.encs[e]? = some x) : modifyEnc e f s = withEnc e (f x) s := by
  rw [modifyEnc, modify_eq_set f hx, withEnc]

theorem modifyEnc_pushEvent (f : Encoder → Encoder) (r : Event) (hx : s.encs[e]? = some x) :
    modifyEnc e f (pushEvent r s) = withEnc e (f x) (pushEvent r s) :=
  modifyEnc_of_getElem? f (by rw [pushEvent_encs, hx])

theorem withEnc_getElem? (y : Encoder) (hx : s.encs[e]? = some x) : (withEnc e y s).encs[e]? = some y :=
  List.getElem?_set_self (List.getElem?_eq_some_iff.1 hx).1

theorem withEnc_withEnc (e : Nat) (y z : Encoder) (s : State) : withEnc e z (withEnc e y s) = withEnc e z s := by
  simp [withEnc]

theorem withEnc_self (hx : s.encs[e]? = some x) : withEnc e x s = s := by
  obtain ⟨hlt, rfl⟩ := List.getElem?_eq_some_iff.1 hx
  rw [withEnc, List.set_getElem_self]

/-- An event is pushed alike before and after an encoder is written. -/
theorem pushEvent_withEnc (r : Event) (e : Nat) (y : Encoder) (s : State) :
    pushEvent r (withEnc e y s) = withEnc e y (pushEvent r s) := by
  rw [pushEvent, pushEvent, apply_ite (withEnc e y)]
  rfl

theorem pushEvent_of_room {r : Event} (h : s.evq.length < s.cfg.evqDepth) : pushEvent r s = { s with evq := s.evq ++ [r] } :=
  if_pos h

theorem encoderReports_withEnc_pushEvent (e : Nat) (y : Encoder) (r : Event) (s : State) :
    EncoderReports e y r s (withEnc e y (pushEvent r s)) where
  encs := congrArg (List.set · e y) (pushEvent_encs r s)
  pushed := pushEvent_pushed r s
  frame := by unfold pushEvent; split <;> rfl
  memory := sameMemory_of (pushEvent_cfg r s) (pushEvent_pcm r s)

end

/-! ### The thresholds (R402) -/

/-- Encoder `e` becomes `y`, and where the accumulator of `y` is at a threshold, the detent is pushed and the accumulator restarts
from 0. -/
def settleEnc (e : BitVec 4) (st : Word) (y : Encoder) (s : State) : State :=
  if (s.cfg.detentSubsteps : Int) ≤ y.acc.toInt then
    withEnc e.toNat { y with acc := 0#8 } (pushEvent (detentEvent e true st) s)
  else if y.acc.toInt ≤ -(s.cfg.detentSubsteps : Int) then
    withEnc e.toNat { y with acc := 0#8 } (pushEvent (detentEvent e false st) s)
  else withEnc e.toNat y s

section
variable {e : BitVec 4} {st : Word} {ab : BitVec 2} {l : BitVec 1} {x y z : Encoder} {s : State} {rest : List Instr}

theorem settleEnc_of_up (h : (s.cfg.detentSubsteps : Int) ≤ y.acc.toInt) :
    settleEnc e st y s = withEnc e.toNat { y with acc := 0#8 } (pushEvent (detentEvent e true st) s) := if_pos h

theorem settleEnc_of_between (hlo : -(s.cfg.detentSubsteps : Int) < y.acc.toInt) (hhi : y.acc.toInt < s.cfg.detentSubsteps) :
    settleEnc e st y s = withEnc e.toNat y s := by
  rw [settleEnc, if_neg (by omega), if_neg (by omega)]

theorem encoderReports_settleEnc_of_up (h : (s.cfg.detentSubsteps : Int) ≤ y.acc.toInt) :
    EncoderReports e.toNat { y with acc := 0#8 } (detentEvent e true st) s (settleEnc e st y s) := by
  rw [settleEnc_of_up h]
  exact encoderReports_withEnc_pushEvent ..

/-- A legal T is at least 1, so an accumulator at the lower threshold is below the upper one. -/
theorem encoderReports_settleEnc_of_down (hc : s.cfg.legal = true) (h : y.acc.toInt ≤ -(s.cfg.detentSubsteps : Int)) :
    EncoderReports e.toNat { y with acc := 0#8 } (detentEvent e false st) s (settleEnc e st y s) := by
  obtain ⟨-, hpos, -⟩ := legal_input hc
  rw [settleEnc, if_neg (by omega), if_pos h]
  exact encoderReports_withEnc_pushEvent ..

theorem settleEnc_frame (e : BitVec 4) (st : Word) (y : Encoder) (s : State) : settleEnc e st y s =
    { s with encs := (settleEnc e st y s).encs, evq := (settleEnc e st y s).evq, sticky := (settleEnc e st y s).sticky } := by
  unfold settleEnc
  split_ifs
  · exact (encoderReports_withEnc_pushEvent ..).frame
  · exact (encoderReports_withEnc_pushEvent ..).frame
  · rfl

theorem settleEnc_sameMemory (e : BitVec 4) (st : Word) (y : Encoder) (s : State) : SameMemory s (settleEnc e st y s) :=
  sameMemory_of (by rw [settleEnc_frame]) (by rw [settleEnc_frame])

/-! ### DETENT_CHECK (R402) -/

theorem detentCheck_of_absent (h : s.encs.length ≤ e.toNat) : detentCheck e st s = s := by
  rw [detentCheck, List.getElem?_eq_none h]

theorem detentCheck_of_getElem? (hx : s.encs[e.toNat]? = some x) : detentCheck e st s = settleEnc e st x s := by
  rw [detentCheck, hx]
  simp only [settleEnc, modifyEnc_pushEvent _ _ hx, withEnc_self hx]

theorem exec_detentCheck (e : BitVec 4) (st : Word) (s : State) : exec (.detentCheck e st) s = .next (detentCheck e st s) := rfl

/-! ### ENC_AB (R401, R403) -/

/-- QTAB is 0 where neither or both of the two lines change. -/
theorem qtab_of_no_step (p : BitVec 2) : qtab p p = 0 ∧ qtab p (~~~p) = 0 := by
  revert p; decide

theorem encAb_of_absent (h : s.encs.length ≤ e.toNat) : encAb e ab st s = s := by
  rw [encAb, List.getElem?_eq_none h]

/-- A sample is stored, and then the thresholds are checked. -/
theorem encAb_of_getElem? (hx : s.encs[e.toNat]? = some x) : encAb e ab st s = settleEnc e st (encSample ab x) s := by
  rw [encAb_eq hx]
  simp only [settleEnc, modifyEnc_of_getElem? _ hx, modifyEnc_pushEvent _ _ hx]

theorem exec_encAb (st : Word) (e : BitVec 4) (ab : BitVec 2) (s : State) :
    exec (.encAb st e ab) s = .next (encAb e ab st s) := rfl

/-- A record that brings the accumulator to no threshold, inside a run of records of one encoder. -/
theorem runInstrs_encAb_of_between (hx : s.encs[e.toNat]? = some x) (hz : encSample ab y = z)
    (hlo : -(s.cfg.detentSubsteps : Int) < z.acc.toInt) (hhi : z.acc.toInt < s.cfg.detentSubsteps) :
    runInstrs (.encAb st e ab :: rest) (withEnc e.toNat y s) = runInstrs rest (withEnc e.toNat z s) := by
  have hrun : encAb e ab st (withEnc e.toNat y s) = withEnc e.toNat z s := by
    rw [encAb_of_getElem? (withEnc_getElem? y hx), hz, settleEnc_of_between (s := withEnc e.toNat y s) hlo hhi, withEnc_withEnc]
  rw [runInstrs, exec_encAb, hrun]

/-! ### ENC_BTN (R410) -/

/-- The ticks since a stamp, modulo 2^32. -/
theorem toNat_stamp_sub (a b : Word) : ((a - b).toNat : Int) = ((a.toNat : Int) - b.toNat) % 2 ^ 32 := by
  rw [BitVec.toNat_sub]
  omega

theorem encBtn_of_absent (h : s.encs.length ≤ e.toNat) : encBtn e l st s = s := by
  simp only [encBtn, List.getElem?_eq_none h]

theorem encBtn_of_taken (hx : s.encs[e.toNat]? = some x) (hl : decide (l = 1#1) ≠ x.blvl)
    (ht : s.cfg.btnDebounceTicks ≤ (st - x.btick).toNat) :
    encBtn e l st s = withEnc e.toNat { x with blvl := decide (l = 1#1), btick := st }
      (pushEvent ⟨.encButton, e, decide (l = 1#1), st.extractLsb' 0 16⟩ s) := by
  rw [← pushEvent_withEnc, ← modifyEnc_of_getElem? (fun y => { y with blvl := decide (l = 1#1), btick := st }) hx]
  simp only [encBtn, hx]
  exact if_pos ⟨hl, ht⟩

theorem encBtn_of_ignored (hx : s.encs[e.toNat]? = some x)
    (h : ¬ (decide (l = 1#1) ≠ x.blvl ∧ s.cfg.btnDebounceTicks ≤ (st - x.btick).toNat)) : encBtn e l st s = s := by
  simp only [encBtn, hx]
  exact if_neg h

theorem exec_encBtn (st : Word) (e : BitVec 4) (l : BitVec 1) (s : State) :
    exec (.encBtn st e l) s = .next (encBtn e l st s) := rfl

end

end Sys2Proof.Machine

namespace Sys2Proof

open Machine

/-- Settles O23: a sample is stored and settled, and its sum does not wrap, as the accumulator starts between the thresholds. -/
theorem encoderSample : Obligations.EncoderSample := by
  refine ⟨qtab_of_no_step, by decide, fun st e ab s h => ?_, ?_⟩
  · rw [exec_encAb, encAb_of_absent h]
  rintro st e ab s x a hc hx hlo hhi rfl
  obtain ⟨-, hpos, hle⟩ := legal_input hc
  rw [exec_encAb, encAb_of_getElem? hx, ← encSample_acc hle ⟨hlo, hhi⟩ ab]
  by_cases hup : (s.cfg.detentSubsteps : Int) ≤ (encSample ab x).acc.toInt
  · obtain ⟨hencs, hpushed, hframe, hmem⟩ := encoderReports_settleEnc_of_up (e := e) (st := st) hup
    exact ⟨_, _, rfl, hencs, rfl, rfl, rfl, fun _ => ⟨rfl, hpushed⟩, fun _ => by omega, fun _ _ => by omega, hframe, hmem⟩
  by_cases hdown : (encSample ab x).acc.toInt ≤ -(s.cfg.detentSubsteps : Int)
  · obtain ⟨hencs, hpushed, hframe, hmem⟩ := encoderReports_settleEnc_of_down (e := e) (st := st) hc hdown
    exact ⟨_, _, rfl, hencs, rfl, rfl, rfl, fun _ => by omega, fun _ => ⟨rfl, hpushed⟩, fun _ _ => by omega, hframe, hmem⟩
  · rw [settleEnc_of_between (not_le.1 hdown) (not_le.1 hup)]
    exact ⟨_, encSample ab x, rfl, rfl, rfl, rfl, rfl, fun _ => by omega, fun _ => by omega, fun _ _ => ⟨rfl, rfl, rfl⟩, rfl,
      sameMemory_of rfl rfl⟩

/-- Settles O25: the first three samples leave the accumulator at 1, 2 and 3, and the fourth brings it to T = 4. -/
theorem cleanCycle : Obligations.CleanCycle := by
  rintro s e ⟨prev, acc, blvl, btick⟩ st1 st2 st3 st4 hT hx rfl rfl hroom
  have three (rest : List Instr) :
      runInstrs (.encAb st1 e 0b10#2 :: .encAb st2 e 0b11#2 :: .encAb st3 e 0b01#2 :: rest) s =
        runInstrs rest (withEnc e.toNat ⟨0b01#2, 3#8, blvl, btick⟩ s) :=
    calc
      _ = runInstrs (.encAb st1 e 0b10#2 :: _) (withEnc e.toNat ⟨0b00#2, 0#8, blvl, btick⟩ s) := by rw [withEnc_self hx]
      _ = runInstrs (.encAb st2 e 0b11#2 :: _) (withEnc e.toNat ⟨0b10#2, 1#8, blvl, btick⟩ s) :=
        runInstrs_encAb_of_between hx rfl (by simp [hT]) (by simp [hT])
      _ = runInstrs (.encAb st3 e 0b01#2 :: _) (withEnc e.toNat ⟨0b11#2, 2#8, blvl, btick⟩ s) :=
        runInstrs_encAb_of_between hx rfl (by simp [hT]) (by simp [hT])
      _ = runInstrs rest (withEnc e.toNat ⟨0b01#2, 3#8, blvl, btick⟩ s) :=
        runInstrs_encAb_of_between hx rfl (by simp [hT]) (by simp [hT])
  refine ⟨three [], (three _).trans ?_⟩
  have hsample : encSample 0b00#2 ⟨0b01#2, 3#8, blvl, btick⟩ = ⟨0b00#2, 4#8, blvl, btick⟩ := rfl
  rw [runInstrs, exec_encAb, encAb_of_getElem? (withEnc_getElem? _ hx), hsample, settleEnc_of_up (by simp [withEnc, hT]),
    pushEvent_withEnc, withEnc_withEnc, ← pushEvent_withEnc, withEnc_self hx, pushEvent_of_room hroom]
  rfl

/-- Settles O21: the record is the stamp above the low word, and CAPTURE is its push. -/
theorem captureRecord : Obligations.CaptureRecord := fun record s =>
  ⟨_, s.tick ++ record, exec_capture record s, BitVec.extractLsb'_append_eq_left, BitVec.extractLsb'_append_eq_right,
    pushRaw_pushed _ s, pushRaw_frame _ s, sameMemory_of (pushRaw_cfg _ s) (pushRaw_pcm _ s)⟩

/-- Settles O24: DETENT_CHECK settles the encoder as it stands. -/
theorem detentCheck : Obligations.DetentCheck := by
  refine ⟨fun e st s h => by rw [exec_detentCheck, detentCheck_of_absent h], fun e st s x hc hx => ?_⟩
  rw [exec_detentCheck, detentCheck_of_getElem? hx]
  refine ⟨_, rfl, fun hup => ?_, fun hdown => ?_, fun hlo hhi => ?_, settleEnc_frame e st x s, settleEnc_sameMemory e st x s⟩
  · obtain ⟨hencs, hpushed, -, -⟩ := encoderReports_settleEnc_of_up (e := e) (st := st) hup
    exact ⟨hencs, hpushed⟩
  · obtain ⟨hencs, hpushed, -, -⟩ := encoderReports_settleEnc_of_down (e := e) (st := st) hc hdown
    exact ⟨hencs, hpushed⟩
  · rw [settleEnc_of_between hlo hhi, withEnc_self hx]

/-- Settles O26: the two conditions of R410 hold together where the change is taken, and one fails where it is not. -/
theorem encoderButton : Obligations.EncoderButton := by
  intro st e l s
  refine ⟨fun h => by rw [exec_encBtn, encBtn_of_absent h], fun x hx => ?_⟩
  rw [exec_encBtn, ← toNat_stamp_sub]
  refine ⟨fun hl ht => ?_, fun h => ?_⟩
  · rw [encBtn_of_taken hx hl (Int.ofNat_le.1 ht)]
    obtain ⟨hencs, hpushed, hframe, hmem⟩ := encoderReports_withEnc_pushEvent e.toNat
      { x with blvl := decide (l = 1#1), btick := st } ⟨.encButton, e, decide (l = 1#1), st.extractLsb' 0 16⟩ s
    exact ⟨_, rfl, hencs, hpushed, hframe, hmem⟩
  · rw [encBtn_of_ignored hx]
    rintro ⟨hl, ht⟩
    rcases h with h | h
    · exact hl h
    · omega

end Sys2Proof

/-! PROOF of O27 to O30, the keypad. One key of a scan replaces that key and reports it, and a report neither reads nor writes the
keys; so a whole scan is its new keys, each `keyAfter` of the old one, together with the reports of the keys that changed. What a scan
leaves in a key, the edges it reports, and the debounce, which iterates `keyAfter`, are read off that form. -/

namespace Sys2Proof.Machine

/-! ### KEY_ACTION (R440) -/

theorem exec_keyAction (k : BitVec 4) (p : Bool) (s : State) : exec (.keyAction k p) s = .next (keyAction k p s) := rfl

section
variable {k : BitVec 4} {s : State} {m : BitVec 8}

theorem keyAction_of_note (p : Bool) (hm : s.keymap[k.toNat]? = some m) (hk : m.extractLsb' 6 2 = 0b01#2) :
    keyAction k p s =
      if p then pushCmd ⟨.noteOn, k, m.extractLsb' 0 3⟩ { s with regs := { s.regs with note := m.extractLsb' 0 3 } }
      else pushCmd ⟨.noteOff, k, 0#3⟩ s := by
  simp [keyAction, hm, keymapKind, hk, keymapIndex]

theorem keyAction_of_wave (p : Bool) (hm : s.keymap[k.toNat]? = some m) (hk : m.extractLsb' 6 2 = 0b10#2) :
    keyAction k p s = if p then { s with regs := { s.regs with wave := m.extractLsb' 0 2 } } else s := by
  have hw : (m.extractLsb' 0 3).setWidth 2 = m.extractLsb' 0 2 := by
    ext i hi
    simp [Nat.lt_succ_of_lt hi]
  simp [keyAction, hm, keymapKind, hk, keymapIndex, hw]

theorem keyAction_of_none (p : Bool) (hm : s.keymap[k.toNat]? = some m) (hk : m.extractLsb' 6 2 = 0b00#2) :
    keyAction k p s = s := by
  simp [keyAction, hm, keymapKind, hk]

end

/-! ### The key after a scan (R431) -/

theorem keyAfter_pressed (max : Nat) (x : Key) :
    keyAfter max true x = ⟨integrate max true x.integ, x.stable || decide (integrate max true x.integ = max)⟩ := by
  by_cases h : integrate max true x.integ = max
  · cases hs : x.stable <;> simp [keyAfter, h, hs]
  · simp [keyAfter, h]

theorem keyAfter_released (max : Nat) (x : Key) :
    keyAfter max false x = ⟨x.integ - 1, x.stable && decide (x.integ - 1 ≠ 0)⟩ := by
  by_cases h : x.integ - 1 = 0
  · cases hs : x.stable <;> simp [keyAfter, integrate, h, hs]
  · simp [keyAfter, integrate, h]

/-- An edge fires exactly where the stable bit changes. -/
theorem keyFires_iff (max : Nat) (p : Bool) (x : Key) : keyFires max p x = true ↔ x.stable ≠ (keyAfter max p x).stable := by
  cases p <;> cases hs : x.stable <;> simp [keyFires, keyAfter_pressed, keyAfter_released, integrate, hs]

/-- A stable bit that changes takes the bit the scan read. -/
theorem keyAfter_stable_of_ne {max : Nat} {p : Bool} {x : Key} (h : x.stable ≠ (keyAfter max p x).stable) :
    (keyAfter max p x).stable = p := by
  cases p with
  | false =>
    rw [keyAfter_released] at h ⊢
    revert h
    cases x.stable <;> simp
  | true =>
    rw [keyAfter_pressed] at h ⊢
    revert h
    cases x.stable <;> simp

/-! ### The keys of a scan -/

/-- The keys after the keys `ks` were scanned in that order. -/
def scannedKeys (max : Nat) (mask : BitVec 16) (ks : List Nat) (l : List Key) : List Key :=
  ks.foldl (fun l k => l.modify k (keyAfter max (mask.getLsbD k))) l

theorem scannedKeys_cons (max : Nat) (mask : BitVec 16) (k : Nat) (ks : List Nat) (l : List Key) :
    scannedKeys max mask (k :: ks) l = scannedKeys max mask ks (l.modify k (keyAfter max (mask.getLsbD k))) := rfl

theorem scannedKeys_length (max : Nat) (mask : BitVec 16) (ks : List Nat) (l : List Key) :
    (scannedKeys max mask ks l).length = l.length := by
  induction ks generalizing l with
  | nil => rfl
  | cons k ks ih => rw [scannedKeys_cons, ih, List.length_modify]

theorem scannedKeys_getElem? (max : Nat) (mask : BitVec 16) {ks : List Nat} (hks : ks.Nodup) (l : List Key) (j : Nat) :
    (scannedKeys max mask ks l)[j]? = if j ∈ ks then l[j]?.map (keyAfter max (mask.getLsbD j)) else l[j]? := by
  induction ks generalizing l with
  | nil => rfl
  | cons k ks ih =>
    obtain ⟨hk, hks⟩ := List.nodup_cons.1 hks
    rw [scannedKeys_cons, ih hks, List.getElem?_modify]
    by_cases hj : k = j
    · subst hj
      simp [hk]
    · simp [hj, Ne.symm hj]

/-! ### The reports of a scan (R432, R433) -/

/-- The keys replaced by `l`. -/
def withKeys (l : List Key) (s : State) : State := { s with keys := l }

@[simp] theorem withKeys_evq (l : List Key) (s : State) : (withKeys l s).evq = s.evq := rfl

theorem pushCmd_withKeys (r : Cmd) (l : List Key) (s : State) : pushCmd r (withKeys l s) = withKeys l (pushCmd r s) := by
  rw [pushCmd, pushCmd, apply_ite (withKeys l)]
  rfl

theorem pushEvent_withKeys (r : Event) (l : List Key) (s : State) : pushEvent r (withKeys l s) = withKeys l (pushEvent r s) := by
  rw [pushEvent, pushEvent, apply_ite (withKeys l)]
  rfl

theorem keyAction_withKeys (k : BitVec 4) (p : Bool) (l : List Key) (s : State) :
    keyAction k p (withKeys l s) = withKeys l (keyAction k p s) := by
  simp only [keyAction, apply_ite (withKeys l), ← pushCmd_withKeys]
  rfl

theorem keyEdge_withKeys (k : BitVec 4) (p : Bool) (st : Word) (l : List Key) (s : State) :
    keyEdge k p st (withKeys l s) = withKeys l (keyEdge k p st s) := by
  rw [keyEdge, pushEvent_withKeys, keyAction_withKeys, keyEdge]

theorem keyEdge_cfg (k : BitVec 4) (p : Bool) (st : Word) (s : State) : (keyEdge k p st s).cfg = s.cfg :=
  (keyEdge_frame k p st s).1.cfg

theorem keyEdge_evq_of_room (k : BitVec 4) (p : Bool) (st : Word) {s : State} (h : s.evq.length < s.cfg.evqDepth) :
    (keyEdge k p st s).evq = s.evq ++ [⟨.key, k, p, st.extractLsb' 0 16⟩] := by
  obtain ⟨-, -, -, hevq⟩ := keyAction_frame k p (pushEvent ⟨.key, k, p, st.extractLsb' 0 16⟩ s)
  rw [keyEdge, hevq, pushEvent_of_room h]

/-- KEY_EDGE of key `k` where its stable bit differs between `old` and `new`. -/
def reportKey (st : Word) (old new : List Key) (u : State) (k : Nat) : State :=
  match old[k]?, new[k]? with
  | some x, some y => if x.stable = y.stable then u else keyEdge (BitVec.ofNat 4 k) y.stable st u
  | _, _ => u

/-- The events of that report. -/
def keyEvents (st : Word) (old new : List Key) (k : Nat) : List Event :=
  match old[k]?, new[k]? with
  | some x, some y => if x.stable = y.stable then [] else [⟨.key, BitVec.ofNat 4 k, y.stable, st.extractLsb' 0 16⟩]
  | _, _ => []

/-- What a report of a key is: nothing at all, or one KEY_EDGE. -/
theorem reportKey_cases (st : Word) (old new : List Key) (k : Nat) :
    (∀ u, reportKey st old new u k = u) ∧ keyEvents st old new k = [] ∨
      ∃ p, (∀ u, reportKey st old new u k = keyEdge (BitVec.ofNat 4 k) p st u) ∧
        keyEvents st old new k = [⟨.key, BitVec.ofNat 4 k, p, st.extractLsb' 0 16⟩] := by
  unfold reportKey keyEvents
  split
  · next x y _ _ =>
    by_cases h : x.stable = y.stable
    · exact .inl ⟨fun u => if_pos h, if_pos h⟩
    · exact .inr ⟨y.stable, fun u => if_neg h, if_neg h⟩
  · exact .inl ⟨fun u => rfl, rfl⟩

theorem reportKey_withKeys (st : Word) (old new l : List Key) (u : State) (k : Nat) :
    reportKey st old new (withKeys l u) k = withKeys l (reportKey st old new u k) := by
  obtain ⟨h, -⟩ | ⟨p, h, -⟩ := reportKey_cases st old new k
  · rw [h, h]
  · rw [h, h, keyEdge_withKeys]

theorem foldl_reportKey_withKeys (st : Word) (old new l : List Key) (ks : List Nat) (s : State) :
    ks.foldl (reportKey st old new) (withKeys l s) = withKeys l (ks.foldl (reportKey st old new) s) :=
  List.foldl_hom (withKeys l) fun u k => reportKey_withKeys st old new l u k

/-- A report reads its own key alone. -/
theorem reportKey_congr {st : Word} {old old' new new' : List Key} {k : Nat} (ho : old[k]? = old'[k]?) (hn : new[k]? = new'[k]?)
    (u : State) : reportKey st old new u k = reportKey st old' new' u k := by
  rw [reportKey, reportKey, ho, hn]

theorem foldl_reportKey_evq (st : Word) (old new : List Key) (ks : List Nat) {s : State}
    (h : s.evq.length + ks.length ≤ s.cfg.evqDepth) :
    (ks.foldl (reportKey st old new) s).evq = s.evq ++ ks.flatMap (keyEvents st old new) := by
  induction ks generalizing s with
  | nil => simp
  | cons k ks ih =>
    rw [List.length_cons] at h
    rw [List.foldl_cons, List.flatMap_cons]
    obtain ⟨hr, he⟩ | ⟨p, hr, he⟩ := reportKey_cases st old new k
    · rw [hr, he, ih (by omega), List.nil_append]
    · have hevq := keyEdge_evq_of_room (BitVec.ofNat 4 k) p st (s := s) (by omega)
      rw [hr, he, ih, hevq, List.append_assoc]
      rw [hevq, keyEdge_cfg, List.length_append, List.length_singleton]
      omega

/-! ### KEY_SCAN -/

theorem exec_keyScan (st : Word) (mask : BitVec 16) (s : State) : exec (.keyScan st mask) s = .next (keyScan mask st s) := rfl

/-- One key of a scan is the key after it and its report. -/
theorem scanKey_eq_reportKey (mask : BitVec 16) (st : Word) (s : State) (k : Nat) {new : List Key}
    (hn : new[k]? = s.keys[k]?.map (keyAfter s.cfg.debounceMax (mask.getLsbD k))) :
    scanKey mask st s k =
      withKeys (s.keys.modify k (keyAfter s.cfg.debounceMax (mask.getLsbD k))) (reportKey st s.keys new s k) := by
  rw [scanKey_eq, reportKey, hn]
  cases hx : s.keys[k]? with
  | none =>
    rw [List.modify_eq_self (List.getElem?_eq_none_iff.1 hx)]
    rfl
  | some x =>
    have hset : setKey k (keyAfter s.cfg.debounceMax (mask.getLsbD k) x) s =
        withKeys (s.keys.modify k (keyAfter s.cfg.debounceMax (mask.getLsbD k))) s := by
      rw [setKey, modify_eq_set _ hx, withKeys]
    simp only [Option.map_some, hset]
    by_cases h : x.stable = (keyAfter s.cfg.debounceMax (mask.getLsbD k) x).stable
    · rw [if_neg (mt (keyFires_iff _ _ x).1 (not_not.2 h)), if_pos h]
    · rw [if_pos ((keyFires_iff _ _ x).2 h), if_neg h, keyAfter_stable_of_ne h, keyEdge_withKeys]

/-- A scan of distinct keys is its new keys and the reports of those that changed: a key's report finds the other keys as they were. -/
theorem foldl_scanKey_eq (mask : BitVec 16) (st : Word) {ks : List Nat} (hks : ks.Nodup) (s : State) :
    ks.foldl (scanKey mask st) s =
      withKeys (scannedKeys s.cfg.debounceMax mask ks s.keys)
        (ks.foldl (reportKey st s.keys (scannedKeys s.cfg.debounceMax mask ks s.keys)) s) := by
  induction ks generalizing s with
  | nil => rfl
  | cons k ks ih =>
    obtain ⟨hk, hnd⟩ := List.nodup_cons.1 hks
    have hnew := scannedKeys_getElem? s.cfg.debounceMax mask hks s.keys k
    rw [if_pos List.mem_cons_self] at hnew
    obtain ⟨hframe, -, hkeys⟩ := scanKey_frame mask st s k
    have hrest (u : State) (j : Nat) (hj : j ∈ ks) :
        reportKey st (s.keys.modify k (keyAfter s.cfg.debounceMax (mask.getLsbD k)))
            (scannedKeys s.cfg.debounceMax mask (k :: ks) s.keys) u j =
          reportKey st s.keys (scannedKeys s.cfg.debounceMax mask (k :: ks) s.keys) u j :=
      reportKey_congr (by simp [(ne_of_mem_of_not_mem hj hk).symm]) rfl u
    rw [List.foldl_cons, ih hnd, hframe.cfg, hkeys, ← scannedKeys_cons, List.foldl_ext _ _ _ hrest,
      scanKey_eq_reportKey mask st s k hnew, foldl_reportKey_withKeys]
    rfl

theorem foldl_scanKey_keys (mask : BitVec 16) (st : Word) {ks : List Nat} (hks : ks.Nodup) (s : State) :
    (ks.foldl (scanKey mask st) s).keys = scannedKeys s.cfg.debounceMax mask ks s.keys :=
  congrArg State.keys (foldl_scanKey_eq mask st hks s)

theorem keyScan_keys (mask : BitVec 16) (st : Word) (s : State) :
    (keyScan mask st s).keys = scannedKeys s.cfg.debounceMax mask (List.range 16) s.keys := by
  rw [keyScan, foldl_scanKey_keys mask st List.nodup_range]

theorem keyScan_eq (mask : BitVec 16) (st : Word) (s : State) :
    keyScan mask st s =
      withKeys (keyScan mask st s).keys ((List.range 16).foldl (reportKey st s.keys (keyScan mask st s).keys) s) := by
  rw [keyScan_keys, keyScan, foldl_scanKey_eq mask st List.nodup_range]

/-- Where EVQ has room for sixteen more, the host gets every edge (R433). -/
theorem keyScan_evq_of_room (mask : BitVec 16) (st : Word) {s : State} (h : s.evq.length + 16 ≤ s.cfg.evqDepth) :
    (keyScan mask st s).evq = s.evq ++ (List.range 16).flatMap (keyEvents st s.keys (keyScan mask st s).keys) := by
  have hroom : s.evq.length + (List.range 16).length ≤ s.cfg.evqDepth := by rwa [List.length_range]
  rw [← foldl_reportKey_evq st s.keys _ _ hroom]
  exact (congrArg State.evq (keyScan_eq mask st s)).trans (withKeys_evq _ _)

theorem keyScan_getElem? (mask : BitVec 16) (st : Word) (s : State) {k : Nat} (hk : k < 16) :
    (keyScan mask st s).keys[k]? = s.keys[k]?.map (keyAfter s.cfg.debounceMax (mask.getLsbD k)) := by
  rw [keyScan_keys, scannedKeys_getElem? _ _ List.nodup_range, if_pos (List.mem_range.2 hk)]

theorem keyScan_keys_length (mask : BitVec 16) (st : Word) (s : State) : (keyScan mask st s).keys.length = s.keys.length := by
  rw [keyScan_keys, scannedKeys_length]

/-! ### Repeated scans (R441) -/

theorem keyAfter_pressed_iterate {max : Nat} (hm : 1 ≤ max) (n : Nat) :
    (keyAfter max true)^[n] ⟨0, false⟩ = ⟨min n max, decide (max ≤ n)⟩ := by
  induction n with
  | zero => simp; omega
  | succ n ih =>
    have hinteg : integrate max true (min n max) = min (n + 1) max := by
      rw [integrate, if_pos rfl]
      split <;> omega
    rw [Function.iterate_succ_apply', ih, keyAfter_pressed]
    simp only [hinteg, ← Bool.decide_or, Key.mk.injEq, true_and, decide_eq_decide]
    omega

theorem keyAfter_released_iterate {max : Nat} (hm : 1 ≤ max) (n : Nat) :
    (keyAfter max false)^[n] ⟨max, true⟩ = ⟨max - n, decide (n < max)⟩ := by
  induction n with
  | zero => simp; omega
  | succ n ih =>
    rw [Function.iterate_succ_apply', ih, keyAfter_released]
    simp only [Nat.sub_sub, ← Bool.decide_and, Key.mk.injEq, true_and, decide_eq_decide]
    omega

/-- Scans that all read key `k` as `p` run `keyAfter` on it once each. -/
theorem runInstrs_keyScans {k : Nat} (hk : k < 16) {p : Bool} {scans : List (Word × BitVec 16)}
    (hp : ∀ q ∈ scans, q.2.getLsbD k = p) (s : State) :
    ∃ t, runInstrs (scans.map (fun q => .keyScan q.1 q.2)) s = .next t ∧
      t.keys[k]? = s.keys[k]?.map (keyAfter s.cfg.debounceMax p)^[scans.length] := by
  induction scans generalizing s with
  | nil => exact ⟨s, rfl, by simp⟩
  | cons q scans ih =>
    obtain ⟨hq, hrest⟩ := List.forall_mem_cons.1 hp
    obtain ⟨t, ht, htk⟩ := ih hrest (keyScan q.2 q.1 s)
    refine ⟨t, ht, ?_⟩
    rw [htk, (keyScan_frame q.2 q.1 s).1.cfg, keyScan_getElem? q.2 q.1 s hk, hq, Option.map_map, ← Function.iterate_succ]
    rfl

end Sys2Proof.Machine

namespace Sys2Proof

open Machine

/-- Settles O27: every key becomes `keyAfter` of what it was, and KEY_EDGE keeps the frame of a DECODER step. -/
theorem scanIntegrates : Obligations.ScanIntegrates := by
  intro st mask s
  obtain ⟨hframe, hencs⟩ := keyScan_frame mask st s
  refine ⟨_, exec_keyScan st mask s, keyScan_keys_length mask st s, fun k x hk hx => ?_, hframe, hencs,
    sameMemory_of hframe.cfg hframe.pcm⟩
  refine ⟨_, by rw [keyScan_getElem? mask st s hk, hx, Option.map_some], fun hp => ?_, fun hp => ?_⟩
  · rw [hp, keyAfter_pressed]
    exact ⟨rfl, rfl⟩
  · rw [hp, keyAfter_released]
    exact ⟨rfl, rfl⟩

/-- Settles O28: the reports of a scan are its fold after the keys are in place, and each that finds room appends its event. -/
theorem scanReportsEdges : Obligations.ScanReportsEdges := by
  refine ⟨fun k p st s => ⟨_, pushEvent_pushed _ s, pushEvent_frame _ s, rfl⟩, fun st mask s t _ ht => ?_⟩
  obtain rfl := Host.Outcome.next.inj ((exec_keyScan st mask s).symm.trans ht)
  exact ⟨(keyScan_eq mask st s).trans (foldl_reportKey_withKeys st s.keys _ _ _ s).symm, keyScan_evq_of_room mask st⟩

/-- Settles O29: scans that read the key alike iterate `keyAfter`, which climbs from 0 to MAX, or falls from MAX to 0. -/
theorem debounceExact : Obligations.DebounceExact := by
  intro s k scans hc hk
  obtain ⟨hmax, -, -⟩ := legal_input hc
  refine ⟨fun hx hp => ?_, fun hx hp => ?_⟩
  · obtain ⟨t, ht, htk⟩ := runInstrs_keyScans hk hp s
    exact ⟨t, ht, by rw [htk, hx, Option.map_some, keyAfter_pressed_iterate hmax]⟩
  · obtain ⟨t, ht, htk⟩ := runInstrs_keyScans hk hp s
    exact ⟨t, ht, by rw [htk, hx, Option.map_some, keyAfter_released_iterate hmax]⟩

/-- Settles O30: the action of each KIND in turn. -/
theorem keyActions : Obligations.KeyActions := by
  intro k s m hm
  refine ⟨fun hk => ⟨⟨_, rfl, ?_⟩, ⟨_, rfl, ?_⟩⟩, fun hk => ⟨?_, ?_⟩, fun hk p => ?_⟩
  · rw [keyAction_of_note true hm hk, if_pos rfl]
    exact ⟨pushCmd_pushed _ { s with regs := { s.regs with note := m.extractLsb' 0 3 } }, pushCmd_frame _ _,
      sameMemory_of (pushCmd_cfg _ _) (pushCmd_pcm _ _)⟩
  · rw [keyAction_of_note false hm hk, if_neg Bool.false_ne_true]
    exact ⟨pushCmd_pushed _ _, pushCmd_frame _ _, sameMemory_of (pushCmd_cfg _ _) (pushCmd_pcm _ _)⟩
  · rw [exec_keyAction, keyAction_of_wave true hm hk, if_pos rfl]
  · rw [exec_keyAction, keyAction_of_wave false hm hk, if_neg Bool.false_ne_true]
  · rw [exec_keyAction, keyAction_of_none p hm hk]

end Sys2Proof

/-! PROOF of O7, O9 to O19, O54 and O55, the host's registers and RESET. A HOST step is the row of its BUS word because decoder and
dispatch branch on the same conditions (R460). Each write is one update of the state and each read one latched word, so what is left of
a statement is the arithmetic of the stored field or the bits of the word. After RESET those words do not depend on the configuration
or on the pins (R541). -/

namespace Sys2Proof.Machine

/-! ### A bus access and its row (R460) -/

theorem exec_ite {i j : Instr} {s a b : State} {c : Prop} [Decidable c] (hi : exec i s = .next a) (hj : exec j s = .next b) :
    exec (if c then i else j) s = .next (if c then a else b) := by
  split <;> assumption

/-- The last two offsets, VOICE_STATE and TICK, are one branch of `writeAt`: both writes are ignored (R484). -/
theorem exec_decodeWrite (o : BitVec 8) (d : Word) (s : State) : exec (decodeWrite o d) s = .next (writeAt o d s) := by
  unfold decodeWrite writeAt
  iterate 16 refine exec_ite rfl ?_
  split <;> rfl

theorem exec_decodeRead (o : BitVec 8) (s : State) : exec (decodeRead o) s = .next (readAt o s) := by
  unfold decodeRead readAt
  iterate 17 refine exec_ite rfl ?_
  rfl

section
variable {o : BitVec 8}

theorem decodeBus_of_aligned (we : BitVec 1) (d : Word) (h0 : o.getLsbD 0 = false) (h1 : o.getLsbD 1 = false) :
    decodeBus (busWord we 0b10#2 o d) = if we = 1#1 then decodeWrite o d else decodeRead o := by
  rw [decodeBus_busWord, h0, h1]; rfl

/-- R468's two conditions come before any register. -/
theorem busAccess_of_error {size : BitVec 2} (we : BitVec 1) (d : Word) (s : State)
    (h : size ≠ 0b10#2 ∨ o.extractLsb' 0 2 ≠ 0b00#2) : busAccess (busWord we size o d) s = busError s := by
  rw [busAccess, busSize, busOffset, busWord_size, busWord_offset, if_pos h]

theorem busAccess_of_aligned (we : BitVec 1) (d : Word) (s : State) (h : o.extractLsb' 0 2 = 0b00#2) :
    busAccess (busWord we 0b10#2 o d) s = if we = 1#1 then writeAt o d s else readAt o s := by
  rw [busAccess, busSize, busOffset, busWe, busData, busWord_size, busWord_offset, busWord_we, busWord_data,
    if_neg (not_or.2 ⟨not_not.2 rfl, not_not.2 h⟩)]

end

/-- A HOST step and the row of its BUS word: the three wrong sizes, the two misalignments, the register's own rule. -/
theorem exec_decodeBus (we : BitVec 1) (size : BitVec 2) (o : BitVec 8) (d : Word) (s : State) :
    exec (decodeBus (busWord we size o d)) s = .next (busAccess (busWord we size o d) s) := by
  rcases size_cases size with rfl | rfl | rfl | rfl
  iterate 3
    rw [decodeBus_busWord, busAccess_of_error we d s (.inl (by decide))]
    rfl
  cases h0 : o.getLsbD 0 with
  | true =>
    rw [decodeBus_alignB0 we d h0, busAccess_of_error we d s (.inr fun h => nomatch h0.symm.trans (aligned_iff.1 h).1)]
    rfl
  | false =>
    cases h1 : o.getLsbD 1 with
    | true =>
      rw [decodeBus_alignB1 we d h0 h1, busAccess_of_error we d s (.inr fun h => nomatch h1.symm.trans (aligned_iff.1 h).2)]
      rfl
    | false =>
      rw [decodeBus_of_aligned we d h0 h1, busAccess_of_aligned we d s (aligned_iff.2 ⟨h0, h1⟩)]
      exact exec_ite (exec_decodeWrite o d s) (exec_decodeRead o s)

/-! ### Clamps (R9, R464) -/

/-- A field that holds every value up to `hi` stores the clamped word itself. -/
theorem toNat_ofNat_clampU {n hi : Nat} (d : Word) (h : hi < 2 ^ n) : (BitVec.ofNat n (clampU d 0 hi)).toNat = min d.toNat hi := by
  rw [clampU, Nat.max_zero, BitVec.toNat_ofNat, Nat.mod_eq_of_lt (by omega)]

/-! ### Reads of a word -/

section
variable {s : State} {w : Word}

theorem exec_rdStatus_of (h : statusWord s = w) : exec .rdStatus s = .next { s with answer := .rdata w } := by rw [← h]; rfl

theorem exec_rdVoiceState_of (h : voiceStateWord s = w) : exec .rdVoiceState s = .next { s with answer := .rdata w } := by
  rw [← h]; rfl

end

/-! ### STATUS and the interrupt line (R462, R465, R510) -/

theorem writeStatus_getLsbD (d : Word) (s : State) {n : Nat} (hn : n < 5) :
    (writeStatus d s).sticky.getLsbD n = (s.sticky.getLsbD n && !d.getLsbD n) := by
  simp [writeStatus, hn]

theorem getLsbD_bitOf (b : Bool) : (bitOf b).getLsbD 0 = b := by cases b <;> rfl

theorem statusWord_sticky (s : State) {n : Nat} (hn : n < 5) : (statusWord s).getLsbD n = s.sticky.getLsbD n := by
  rw [statusWord, BitVec.getLsbD_append, if_pos hn]

theorem statusWord_views (s : State) :
    (statusWord s).getLsbD 11 = s.filt.dirty ∧ (statusWord s).getLsbD 10 = s.seq.busy ∧
      (statusWord s).getLsbD 9 = !s.evq.isEmpty ∧ (statusWord s).getLsbD 8 = s.cmdq.isEmpty := by
  simp only [statusWord, BitVec.getLsbD_append, Nat.reduceLT, Nat.reduceSub, reduceIte, getLsbD_bitOf, and_self]

theorem statusWord_zeros (s : State) {n : Nat} (hn : (5 ≤ n ∧ n < 8) ∨ 12 ≤ n) : (statusWord s).getLsbD n = false := by
  simp only [statusWord, BitVec.getLsbD_append, BitVec.getLsbD_zero]
  split_ifs <;> first | rfl | omega

theorem irq_iff (s : State) :
    irq s = true ↔ (s.irqEn.getLsbD 0 = true ∧ s.evq ≠ []) ∨ (s.irqEn.getLsbD 1 = true ∧ s.sticky ≠ 0#5) := by
  simp [irq]

/-! ### The event word (R160, R463) -/

theorem readEvent_of_empty {s : State} (h : s.evq = []) : readEvent s = readWord 0#32 s := by rw [readEvent, h]

theorem readEvent_cons {s : State} {e : Event} {rest : List Event} (h : s.evq = e :: rest) :
    readEvent s = readWord (eventWord e) { s with evq := rest } := by
  rw [readEvent, h]

theorem eventWord_fields (e : Event) :
    (eventWord e).getLsbD 31 = true ∧ (eventWord e).extractLsb' 23 8 = 0#8 ∧ (eventWord e).getLsbD 22 = e.value ∧
      (eventWord e).extractLsb' 20 2 = eventTypeCode e.type ∧ (eventWord e).extractLsb' 16 4 = e.index ∧
      (eventWord e).extractLsb' 0 16 = e.stamp := by
  unfold eventWord eventBits
  refine ⟨?_, ?_, ?_, ?_, ?_, ?_⟩
  · simp only [BitVec.getLsbD_append, Nat.reduceLT, Nat.reduceSub, reduceIte]; rfl
  · rw [extract_low _ _ _ _ (by omega), extract_high _ _ _ _ (by omega), extract_high _ _ _ _ (by omega),
      extract_high _ _ _ _ (by omega), extract_high _ _ _ _ (by omega), extract_all]
  · simp only [BitVec.getLsbD_append, Nat.reduceLT, Nat.reduceSub, reduceIte, getLsbD_bitOf]; rfl
  · rw [extract_low _ _ _ _ (by omega), extract_high _ _ _ _ (by omega), extract_high _ _ _ _ (by omega),
      extract_low _ _ _ _ (by omega), extract_all]
  · rw [extract_low _ _ _ _ (by omega), extract_high _ _ _ _ (by omega), extract_low _ _ _ _ (by omega), extract_all]
  · rw [extract_low _ _ _ _ (by omega), extract_low _ _ _ _ (by omega), extract_all]

/-! ### VOICE_STATE (R55, R481) -/

theorem envCode_lt (e : Env) : envCode e < 8 := by cases e <;> decide

theorem voiceCodes_lt (vs : List Voice) : voiceCodes vs < 8 ^ vs.length := by
  induction vs with
  | nil => decide
  | cons x xs ih =>
    have := envCode_lt x.env
    rw [voiceCodes, List.length_cons, pow_succ]
    omega

/-- The code of voice v is digit v of the sum in base 8. -/
theorem voiceCodes_digit {vs : List Voice} {v : Nat} {x : Voice} (hx : vs[v]? = some x) :
    voiceCodes vs / 8 ^ v % 8 = envCode x.env := by
  induction vs generalizing v with
  | nil => cases hx
  | cons y ys ih =>
    have := envCode_lt y.env
    cases v with
    | zero =>
      obtain rfl : y = x := by simpa using hx
      rw [voiceCodes, pow_zero]
      omega
    | succ v =>
      rw [voiceCodes, pow_succ', ← Nat.div_div_eq_div_mul, show (envCode y.env + 8 * voiceCodes ys) / 8 = voiceCodes ys by omega]
      exact ih (by simpa using hx)

section
variable {s : State} (h : s.voices.length ≤ 8)
include h

theorem toNat_voiceStateWord : (voiceStateWord s).toNat = voiceCodes s.voices := by
  rw [voiceStateWord, BitVec.toNat_ofNat, Nat.mod_eq_of_lt]
  calc voiceCodes s.voices < 8 ^ s.voices.length := voiceCodes_lt _
    _ ≤ 8 ^ 8 := Nat.pow_le_pow_right (by decide) h
    _ < 2 ^ 32 := by decide

theorem voiceStateWord_field {v : Nat} {x : Voice} (hx : s.voices[v]? = some x) :
    ((voiceStateWord s).extractLsb' (3 * v) 3).toNat = envCode x.env := by
  rw [BitVec.extractLsb'_toNat, toNat_voiceStateWord h, Nat.shiftRight_eq_div_pow, pow_mul]
  exact voiceCodes_digit hx

theorem voiceStateWord_zeros {n : Nat} (hn : 3 * s.voices.length ≤ n) : (voiceStateWord s).getLsbD n = false := by
  rw [BitVec.getLsbD, toNat_voiceStateWord h]
  refine Nat.testBit_lt_two_pow ?_
  calc voiceCodes s.voices < 8 ^ s.voices.length := voiceCodes_lt _
    _ = 2 ^ (3 * s.voices.length) := (pow_mul 2 3 _).symm
    _ ≤ 2 ^ n := Nat.pow_le_pow_right (by decide) hn

end

/-! ### KEYMAP (R466, R467) -/

/-- An entry's number from its KIND and INDEX, bits 5:3 being zero. -/
theorem toNat_keymapWord (kind : BitVec 2) (index : BitVec 3) : (kind ++ 0#3 ++ index).toNat = 0x40 * kind.toNat + index.toNat := by
  revert kind index; decide

theorem toNat_keymapWord_min (kind : BitVec 2) (n : Nat) {hi : Nat} (h : hi < 8) :
    (kind ++ 0#3 ++ BitVec.ofNat 3 (min n hi)).toNat = 0x40 * kind.toNat + min n hi := by
  rw [toNat_keymapWord, BitVec.toNat_ofNat, Nat.mod_eq_of_lt (by omega)]

theorem toNat_keymapEntry_note {d : Word} (h : d.extractLsb' 6 2 = 0b01#2) :
    (keymapEntry d).toNat = 0x40 + min (d.extractLsb' 0 3).toNat 6 := by
  rw [keymapEntry, h]
  exact toNat_keymapWord_min 0b01#2 _ (by decide)

theorem toNat_keymapEntry_wave {d : Word} (h : d.extractLsb' 6 2 = 0b10#2) :
    (keymapEntry d).toNat = 0x80 + min (d.extractLsb' 0 3).toNat 3 := by
  rw [keymapEntry, h]
  exact toNat_keymapWord_min 0b10#2 _ (by decide)

theorem keymapEntry_none {d : Word} (h : d.extractLsb' 6 2 = 0b00#2 ∨ d.extractLsb' 6 2 = 0b11#2) : keymapEntry d = 0#8 := by
  rcases h with h | h <;> rw [keymapEntry, h] <;> rfl

/-! ### WR CMD (R461) -/

section
variable {d : Word} (s : State)

theorem cmdPush_of_noteOn (h : d.extractLsb' 0 4 = 0x1#4) :
    cmdPush d s = pushCmd ⟨.noteOn, d.extractLsb' 4 4, resolveNote (d.extractLsb' 8 3) s⟩ s := if_pos h

theorem cmdPush_of_noteOff (h : d.extractLsb' 0 4 = 0x2#4) : cmdPush d s = pushCmd ⟨.noteOff, d.extractLsb' 4 4, 0#3⟩ s := by
  rw [cmdPush, h]; rfl

theorem cmdPush_of_reserved (h1 : d.extractLsb' 0 4 ≠ 0x1#4) (h2 : d.extractLsb' 0 4 ≠ 0x2#4) :
    cmdPush d s = setSticky bitCmdErr s := by
  rw [cmdPush, if_neg h1, if_neg h2]

theorem cmdPush_frame (d : Word) : cmdPush d s = { s with cmdq := (cmdPush d s).cmdq, sticky := (cmdPush d s).sticky } := by
  by_cases h1 : d.extractLsb' 0 4 = 0x1#4
  · rw [cmdPush_of_noteOn s h1]; exact pushCmd_frame _ s
  · by_cases h2 : d.extractLsb' 0 4 = 0x2#4
    · rw [cmdPush_of_noteOff s h2]; exact pushCmd_frame _ s
    · rw [cmdPush_of_reserved s h1 h2]; rfl

end

/-! ### RESET (R541) -/

/-- The pins word whose encoder e stands at `f e`. -/
def pinsOf (f : Nat → BitVec 2) : Word := BitVec.ofFnLE fun i => (f (i / 2)).getLsbD (i % 2)

theorem pinsOf_pair (f : Nat → BitVec 2) {e : Nat} (he : e < 16) : (pinsOf f).extractLsb' (2 * e) 2 = f e := by
  ext i hi
  have hq : (2 * e + i) / 2 = e := by omega
  have hr : (2 * e + i) % 2 = i := by omega
  rw [BitVec.getElem_extractLsb', pinsOf, BitVec.getLsbD_ofFnLE, dif_pos (by omega)]
  simp only [hq, hr, BitVec.getLsbD_eq_getElem hi]

theorem exec_reset (pins : Word) (s : State) : exec (.reset pins) s = .next (resetCore pins s) := rfl

section
variable (c : Params) (pins : Word) (s : State)

theorem resetCore_encs : (resetCore pins s).encs = (List.range s.cfg.numEnc).map (Encoder.reset s.cfg pins) := rfl

theorem resetCore_encs_getElem? {e : Nat} {x : Encoder} (h : (resetCore pins s).encs[e]? = some x) :
    e < s.cfg.numEnc ∧ x = Encoder.reset s.cfg pins e := by
  rw [resetCore_encs, List.getElem?_map, Option.map_eq_some_iff] at h
  obtain ⟨n, hn, rfl⟩ := h
  obtain ⟨hlt, rfl⟩ := List.getElem?_eq_some_iff.1 hn
  exact ⟨by simpa using hlt, by rw [List.getElem_range]⟩

/-- NOTE 0 to 6 at keys 0 to 6, WAVE 0 to 3 at keys 8 to 11, NONE elsewhere (R57). -/
theorem resetKeymap_entry (k : Fin 16) :
    resetKeymap[k].toNat = if k.val ≤ 6 then 0x40 + k.val else if 8 ≤ k.val ∧ k.val ≤ 11 then 0x80 + (k.val - 8) else 0 := by
  revert k; decide

theorem voiceCodes_reset (n : Nat) : voiceCodes (List.replicate n Voice.reset) = 0 := by
  induction n with
  | zero => rfl
  | succ n ih => rw [List.replicate_succ, voiceCodes, ih]; rfl

theorem statusWord_launch : statusWord (State.launch c pins) = 0x00000900#32 := by
  show 0#20 ++ bitOf true ++ bitOf false ++ bitOf false ++ bitOf true ++ 0#3 ++ 0#5 = 0x00000900#32
  decide

theorem irq_launch : irq (State.launch c pins) = false := by
  simp [irq, State.launch]

theorem voiceStateWord_launch : voiceStateWord (State.launch c pins) = 0x00000000#32 :=
  congrArg (BitVec.ofNat 32) (voiceCodes_reset c.nVoices)

end

theorem reference_legal : Config.reference.legal = true := by decide +kernel

end Sys2Proof.Machine

namespace Sys2Proof

open Machine

/-- Settles O7: a BUS word is its four fields, and on those decoder and dispatch agree. -/
theorem hostRunsItsRow : Obligations.HostRunsItsRow := by
  intro w s
  rw [← busWord_fields w, exec_decodeBus]
  exact ⟨rfl, _, rfl⟩

/-- Settles O9: each register takes its clamp, which its field holds. -/
theorem writeParameter : Obligations.WriteParameter := by
  intro d s
  have same {f : Regs → Regs} : SameMemory s (writeRegs f s) := sameMemory_of rfl rfl
  exact ⟨⟨_, rfl, toNat_clampReg (by decide), rfl, same⟩, ⟨_, rfl, toNat_clampReg (by decide), rfl, same⟩,
    ⟨_, rfl, toNat_ofNat_clampU d (by decide), rfl, same⟩, ⟨_, rfl, toNat_clampReg (by decide), rfl, same⟩,
    ⟨_, rfl, toNat_ofNat_clampU d (by decide), rfl, same⟩, ⟨_, rfl, toNat_ofNat_clampU d (by decide), rfl, same⟩,
    ⟨_, rfl, toNat_ofNat_clampU d (by decide), rfl, same⟩, ⟨_, rfl, rfl, rfl, same⟩⟩

/-- Settles O10: as a parameter write, and `F.dirty` is set beside it. -/
theorem writeFilterParameter : Obligations.WriteFilterParameter := fun _ _ =>
  ⟨⟨_, rfl, toNat_clampReg (by decide), rfl, sameMemory_of rfl rfl⟩,
    ⟨_, rfl, toNat_clampReg (by decide), rfl, sameMemory_of rfl rfl⟩⟩

/-- Settles O11: the cleared bits of a write, and the STATUS word bit by bit. -/
theorem statusRegister : Obligations.StatusRegister := by
  refine ⟨fun d s => ⟨_, rfl, fun n => writeStatus_getLsbD d s, rfl, sameMemory_of rfl rfl⟩, fun s => ⟨_, rfl, ?_⟩⟩
  obtain ⟨hdirty, hbusy, hevq, hcmdq⟩ := statusWord_views s
  refine ⟨hdirty, hbusy, hevq.trans ?_, hcmdq.trans ?_, fun n => statusWord_sticky s, fun n => statusWord_zeros s⟩
  · cases s.evq <;> rfl
  · cases s.cmdq <;> rfl

/-- Settles O12: two bits kept and given, and the line as R510 has it. -/
theorem interrupts : Obligations.Interrupts := by
  refine ⟨fun d s => ⟨_, rfl, fun n hn => ?_, rfl, sameMemory_of rfl rfl⟩, fun s => ⟨_, rfl, ?_⟩, irq_iff⟩
  · simp [writeIrqEn, hn]
  · exact BitVec.toNat_setWidth_of_le (by decide)

/-- Settles O13: the pop, and the fields of the event's word. -/
theorem readEvent : Obligations.ReadEvent := by
  refine ⟨fun s h => congrArg _ (readEvent_of_empty h), fun s e rest h => ⟨eventWord e, congrArg _ (readEvent_cons h), ?_⟩⟩
  obtain ⟨hvalid, hzero, hvalue, htype, hrest⟩ := eventWord_fields e
  exact ⟨hvalid, hzero, hvalue, htype.trans (by cases e.type <;> rfl), hrest⟩

/-- Settles O14: a zero-extended field keeps its number, and VOICE_STATE holds one code per base-8 digit. -/
theorem readParameter : Obligations.ReadParameter := by
  intro s
  have zext {n : Nat} (x : BitVec n) (h : n ≤ 32) : (x.setWidth 32).toNat = x.toNat := BitVec.toNat_setWidth_of_le h
  refine ⟨⟨_, rfl, zext _ (by decide)⟩, ⟨_, rfl, zext _ (by decide)⟩, ⟨_, rfl, zext _ (by decide)⟩, ⟨_, rfl, zext _ (by decide)⟩,
    ⟨_, rfl, zext _ (by decide)⟩, ⟨_, rfl, zext _ (by decide)⟩, ⟨_, rfl, zext _ (by decide)⟩, ⟨_, rfl, zext _ (by decide)⟩,
    ⟨_, rfl, zext _ (by decide)⟩, fun hlo hhi => ⟨_, rfl, BitVec.toInt_ofInt_eq_self (by decide) hlo hhi⟩,
    fun h => ⟨_, rfl, fun v x hx => (voiceStateWord_field h hx).trans ?_, fun n => voiceStateWord_zeros h⟩⟩
  cases x.env <;> rfl

/-- Settles O15: the sum of two words is taken modulo 2^32. -/
theorem tickCounts : Obligations.TickCounts := fun s =>
  ⟨⟨_, rfl, BitVec.toNat_add s.tick 1#32, rfl, sameMemory_of rfl rfl⟩, rfl⟩

/-- Settles O16: the entry a word stores, KIND by KIND. -/
theorem keymapAccess : Obligations.KeymapAccess := by
  intro k d s
  refine ⟨⟨_, rfl, toNat_keymapEntry_note, toNat_keymapEntry_wave, fun h => by rw [keymapEntry_none h]; rfl⟩,
    fun m hm => ⟨_, rfl, ?_⟩⟩
  rw [BitVec.toNat_setWidth_of_le (by decide), List.getD_eq_getElem?_getD, hm, Option.getD_some]

/-- Settles O17: none of these rows writes more than the answer. -/
theorem ignoredAccesses : Obligations.IgnoredAccesses := by
  refine fun d o s => ⟨rfl, rfl, fun i hi => ⟨writeIgnored s, ?_, rfl, sameMemory_of rfl rfl⟩⟩
  simp only [List.mem_cons, List.not_mem_nil, or_false] at hi
  rcases hi with rfl | rfl | rfl | rfl <;> rfl

/-- Settles O18: the five rows and a BUS word of wrong SIZE or alignment are all `busError`. -/
theorem busErrors : Obligations.BusErrors := by
  refine fun we size o d s => ⟨fun i hi => ⟨busError s, ?_, rfl, sameMemory_of rfl rfl⟩, fun h => ?_⟩
  · simp only [List.mem_cons, List.not_mem_nil, or_false] at hi
    rcases hi with rfl | rfl | rfl | rfl | rfl <;> rfl
  · exact congrArg _ (busAccess_of_error we d s h)

/-- Settles O19: OP by OP, a push or CMD_ERR. -/
theorem writeCmd : Obligations.WriteCmd := by
  intro d s
  refine ⟨Machine.writeCmd d s, rfl, fun h => ?_, fun h => ?_, fun h1 h2 => ?_, ?_, ?_⟩
  · rw [Machine.writeCmd, cmdPush_of_noteOn s h]
    exact pushCmd_pushed _ s
  · rw [Machine.writeCmd, cmdPush_of_noteOff s h]
    exact pushCmd_pushed _ s
  · rw [Machine.writeCmd, cmdPush_of_reserved s h1 h2]
    exact ⟨rfl, rfl⟩
  · exact congrArg (answerWith .written) (cmdPush_frame s d)
  · rw [Machine.writeCmd, cmdPush_frame s d]
    exact sameMemory_of rfl rfl

/-- Settles O54: RESET is a launch but for what R540 keeps, and any pins can be written as a word. -/
theorem resetStep : Obligations.ResetStep := by
  refine ⟨fun s f hn => ⟨pinsOf f, _, exec_reset _ s, fun e x hx => ?_⟩, fun pins s => ⟨_, exec_reset pins s, ?_⟩⟩
  · obtain ⟨he, rfl⟩ := resetCore_encs_getElem? _ s hx
    exact pinsOf_pair f (by omega)
  · refine ⟨exec_rdStatus_of (statusWord_launch s.cfg pins), exec_rdVoiceState_of (voiceStateWord_launch s.cfg pins),
      irq_launch s.cfg pins, rfl, rfl, rfl, rfl, rfl, ?_, ?_, rfl, rfl, rfl, rfl, rfl, rfl, rfl, rfl, rfl, ?_, rfl, rfl, rfl,
      sameMemory_of rfl rfl⟩
    · exact (List.length_map _).trans List.length_range
    · intro x hx
      obtain ⟨e, -, rfl⟩ := List.mem_map.1 hx
      exact ⟨rfl, rfl, fun _ => BitVec.toNat_ofNat ..⟩
    · intro k m hm
      obtain ⟨hk, rfl⟩ := List.getElem?_eq_some_iff.1 hm
      exact resetKeymap_entry ⟨k, hk⟩

/-- Settles O55: the reference configuration is legal, and a launch reads as R541 says. -/
theorem resetInv : Obligations.ResetInv := by
  refine ⟨inv_launch _ reference_legal, exec_rdStatus_of (statusWord_launch _ _), exec_rdVoiceState_of (voiceStateWord_launch _ _),
    rfl, rfl, rfl, rfl, irq_launch _ _, rfl, fun c pins i => ⟨fun hi => ?_, fun hi => ?_⟩⟩
  · exact (dmaReadFrame_eq _ i).trans (if_pos hi)
  · exact (dmaReadFrame_eq _ i).trans (if_neg (Nat.not_lt.2 hi))

end Sys2Proof
